-- ==== Sys2Proof/Word.lean ====
section
/-! DEFINITION. The word types of the engine (spec/00_scope.md R5, R9: all values are unsigned). -/

namespace Sys2Proof

/-- A byte: a character code, a glyph column, a cascade byte (R9, R52). -/
abbrev Byte := BitVec 8

/-- A 16-bit word: an EEPROM word, RESULT, FADDR, a record address (R5 `WORD_W`, R12). -/
abbrev Word := BitVec 16

/-- A 9-bit EEPROM address as the wire carries it (R5 `ADDR_W`, R72). -/
abbrev EeAddr := BitVec 9

/-- An address of the text memory TXT (R5 `TXT_AW`, R53). -/
abbrev TxtAddr := BitVec 16

/-- A command word (R5 `CMD_W`, R70). -/
abbrev CmdWord := BitVec 32

end Sys2Proof
end

