-- ==== Sys2Proof/Config.lean ====
section
/-! DEFINITION. The implementation parameters of spec/00_scope.md R5 in one record, and the free values: the values the
spec leaves open (spec/93_implementation_defined.md). A free value has no body, so no proof can see what it is. -/

namespace Sys2Proof

/-- The four named durations (R5, R91): a settle is always one of them (R11). -/
inductive Duration where
  | short     -- T_SHORT
  | srclk     -- T_SRCLK
  | latch     -- T_LATCH
  | postread  -- T_POSTREAD
  deriving DecidableEq, Repr

/-- The parameters of R5, every row of its table. The widths (`WORD_W`, `ADDR_W`, `OPC_W`, `CMD_W`, `TXT_AW`) are also the
widths of the types of `Word.lean`, which fix the layout of a word; `txtAw` and `cmdW` are read nowhere else. -/
structure Config where
  /-- bits of the address sent in a READ frame, `ADDR_W` -/
  addrW : Nat
  /-- bits of the opcode sent in a READ frame, `OPC_W` -/
  opcW : Nat
  /-- width of an EEPROM word and number of samples of a read, `WORD_W` -/
  wordW : Nat
  /-- `READ_OPCODE` -/
  readOpcode : BitVec 2
  /-- `N_SLOTS` -/
  nSlots : Nat
  /-- `STRIDE` -/
  stride : Nat
  /-- `SENTINEL` -/
  sentinel : Word
  /-- `N_PASS` -/
  nPass : Nat
  /-- `N_COLS` -/
  nCols : Nat
  /-- `MASK[0..7]` -/
  mask : List Byte
  /-- `T_SHORT` -/
  tShort : Nat
  /-- `T_SRCLK` -/
  tSrclk : Nat
  /-- `T_LATCH` -/
  tLatch : Nat
  /-- `T_POSTREAD` -/
  tPostread : Nat
  /-- `BUF_SLOTS` -/
  bufSlots : Nat
  /-- address bits of the text memory, `TXT_AW` -/
  txtAw : Nat
  /-- width of a command word, `CMD_W` -/
  cmdW : Nat
  /-- `TERM` -/
  term : Byte
  deriving DecidableEq, Repr

/-- The values this hardware takes (R5). PRESUMED: `readOpcode` and `term` are the spec's from general knowledge (G1, G2;
log entries 10 and 11; unsafe). UNVERIFIED: the other literals are the source's, unaudited (U18; log entry 12; unsafe). -/
def Config.config : Config where
  addrW := 9
  opcW := 2
  wordW := 16
  readOpcode := 0b10#2
  nSlots := 37
  stride := 10
  sentinel := 5#16
  nPass := 32
  nCols := 8
  mask := [1#8, 2#8, 4#8, 8#8, 16#8, 32#8, 64#8, 128#8]
  tShort := 1
  tSrclk := 5
  tLatch := 10
  tPostread := 10000
  bufSlots := 256
  txtAw := 16
  cmdW := 32
  term := 0x00#8

/-- The units of a settle (R5, R91). -/
def Duration.units : Duration → Nat
  | .short => Config.config.tShort
  | .srclk => Config.config.tSrclk
  | .latch => Config.config.tLatch
  | .postread => Config.config.tPostread

/-- FREE VALUE (log entry 7, safe): the level of `EE_DIN` at the n-th sample that neither the reference EEPROM nor the
input list `din` determines (R8, U3, U7, U8). -/
opaque Config.freeSample : Nat → Bool

/-- FREE VALUE (log entry 20, safe): the level of `EE_DIN` a host sees in `PINS[6]` when no device determines it (R35). -/
opaque Config.freeLevel : Nat → Bool

/-- FREE VALUE (log entry 5, safe): the EEPROM's word at an address State's list does not give (R51, U16). -/
opaque Config.eeContent : EeAddr → Word

/-- FREE VALUE (log entry 9, safe): the cascade's chain after power-up (R173, U15). -/
opaque Config.powerUpChain : BitVec 16

/-- FREE VALUE (log entry 9, safe): the cascade's output latch after power-up (R173, U15). -/
opaque Config.powerUpOut : BitVec 16

end Sys2Proof
end

