-- ==== Sys2Proof/Syntax.lean ====
section
/-! DEFINITION. The commands as syntax: one constructor for each row of spec/opcode_table.json (spec/30_encoding.md R71,
R77, R79), and the names their operands stand for (spec/10_state.md R20, spec/30_encoding.md R72). -/

namespace Sys2Proof

/-- The six output signals (spec/10_state.md R20, codes 0 to 5). -/
inductive Pin where
  | eeSel    -- 0, chip select of the EEPROM
  | eeClk    -- 1, clock of the EEPROM
  | eeDout   -- 2, data to the EEPROM
  | srClk    -- 3, shift clock of the cascade
  | srData   -- 4, data to the cascade
  | srLatch  -- 5, latch of the cascade
  deriving DecidableEq, Repr

/-- The seven signals (R20): the six outputs and the input `EE_DIN` (code 6). -/
inductive Signal where
  | out (p : Pin)
  | eeDin
  deriving DecidableEq, Repr

/-- The `hold` operand of `PIN` (R72): no settle, or one of three durations. -/
inductive Hold where
  | none
  | short
  | srclk
  | latch
  deriving DecidableEq, Repr

/-- The `dir` operand of `SHIFT` (R72). -/
inductive Direction where
  | msb  -- 0, most significant bit first
  | lsb  -- 1, least significant bit first
  deriving DecidableEq, Repr

/-- The rows of spec/opcode_table.json. The first eleven are the commands (R71). The last two are the wire frames (R77,
R79), sub-operations that no command word names (log entry 14). -/
inductive Instr where
  /-- `PIN sig, level, hold` (R90) -/
  | pin (sig : Signal) (level : Bool) (hold : Hold)
  /-- `START` (R100) -/
  | start
  /-- `WBITS value, bitCount` (R101) -/
  | wbits (value : Word) (bitCount : BitVec 5)
  /-- `RWORD` (R102) -/
  | rword
  /-- `RDAT address` (R103) -/
  | rdat (address : EeAddr)
  /-- `RDRNG start, end` (R104) -/
  | rdrng (first last : EeAddr)
  /-- `SHIFT value, dir` (R120) -/
  | shift (value : Byte) (dir : Direction)
  /-- `LATCH` (R121) -/
  | latch
  /-- `CASC byte0, byte1` (R122) -/
  | casc (byte0 byte1 : Byte)
  /-- `FIND character` (R130) -/
  | find (character : Byte)
  /-- `RENDER ptr` (R132) -/
  | render (ptr : TxtAddr)
  /-- the READ frame sent to the EEPROM for `address` (R77) -/
  | eeReadFrame (address : EeAddr)
  /-- the frame sent to the cascade for `byte0`, `byte1` (R79) -/
  | srCascadeFrame (byte0 byte1 : Byte)
  deriving DecidableEq, Repr

/-- The row's mnemonic in spec/opcode_table.json (R13, R83). -/
def Instr.mnemonic : Instr → String
  | .pin _ _ _ => "PIN"
  | .start => "START"
  | .wbits _ _ => "WBITS"
  | .rword => "RWORD"
  | .rdat _ => "RDAT"
  | .rdrng _ _ => "RDRNG"
  | .shift _ _ => "SHIFT"
  | .latch => "LATCH"
  | .casc _ _ => "CASC"
  | .find _ => "FIND"
  | .render _ => "RENDER"
  | .eeReadFrame _ => "EE_READ_FRAME"
  | .srCascadeFrame _ _ => "SR_CASCADE_FRAME"

/-- Whether the row is one of the eleven commands, not a wire frame (R71). -/
def Instr.isCommand : Instr → Bool
  | .pin _ _ _ => true
  | .start => true
  | .wbits _ _ => true
  | .rword => true
  | .rdat _ => true
  | .rdrng _ _ => true
  | .shift _ _ => true
  | .latch => true
  | .casc _ _ => true
  | .find _ => true
  | .render _ => true
  | .eeReadFrame _ => false
  | .srCascadeFrame _ _ => false

end Sys2Proof
end

