-- ==== Sys2Proof/WellFormed.lean ====
section
/-! DEFINITION. Which terms are legal commands (spec/30_encoding.md R72, R75): the two checks the types do not make. -/

namespace Sys2Proof

/-- `PIN` drives an output: `EE_DIN` is an input the engine cannot drive (R75). -/
def Signal.isOutput : Signal → Bool
  | .out _ => true
  | .eeDin => false

/-- `bitCount` is legal from 1 to 16 (R72, R75). -/
def bitCountOk (n : BitVec 5) : Bool := decide (1 ≤ n.toNat) && decide (n.toNat ≤ 16)

/-- A legal instruction (R75). -/
def Instr.wf : Instr → Bool
  | .pin sig _ _ => sig.isOutput
  | .start => true
  | .wbits _ n => bitCountOk n
  | .rword => true
  | .rdat _ => true
  | .rdrng _ _ => true
  | .shift _ _ => true
  | .latch => true
  | .casc _ _ => true
  | .find _ => true
  | .render _ => true
  | .eeReadFrame _ => true
  | .srCascadeFrame _ _ => true

end Sys2Proof
end

