-- ==== Sys2Proof/Decode.lean ====
section
/-! DEFINITION. The decoder of spec/30_encoding.md (R70 to R76, R85), total on every 32-bit word and rejecting by name, the
readers of the two wire frames (R77, R79), and after them the encoder. -/

namespace Sys2Proof

/-- What a command word decodes to (R76): a legal command, or the name of the fault it raises (R85). -/
inductive Decoded where
  | command (i : Instr)
  | illegalCmd
  | badBitCount
  deriving DecidableEq, Repr

/-! ### Operand codes (R20, R72) -/

/-- The signal of a code (R20); code 7 names nothing. -/
def Signal.ofCode (c : BitVec 3) : Option Signal :=
  match c.toNat with
  | 0 => some (.out .eeSel)
  | 1 => some (.out .eeClk)
  | 2 => some (.out .eeDout)
  | 3 => some (.out .srClk)
  | 4 => some (.out .srData)
  | 5 => some (.out .srLatch)
  | 6 => some .eeDin
  | _ => none

/-- The code of an output (R20). -/
def Pin.code : Pin → BitVec 3
  | .eeSel => 0
  | .eeClk => 1
  | .eeDout => 2
  | .srClk => 3
  | .srData => 4
  | .srLatch => 5

/-- The code of a signal (R20). -/
def Signal.code : Signal → BitVec 3
  | .out p => p.code
  | .eeDin => 6

/-- `hold`: 0 no settle, 1 `T_SHORT`, 2 `T_SRCLK`, 3 `T_LATCH` (R72). -/
def Hold.ofCode (c : BitVec 2) : Hold :=
  match c.toNat with
  | 0 => .none
  | 1 => .short
  | 2 => .srclk
  | _ => .latch

/-- The code of a hold (R72). -/
def Hold.code : Hold → BitVec 2
  | .none => 0
  | .short => 1
  | .srclk => 2
  | .latch => 3

/-- `dir`: 0 most significant first, 1 least significant first (R72). -/
def Direction.ofBit (b : Bool) : Direction := if b then .lsb else .msb

/-- The bit of a direction (R72). -/
def Direction.bit : Direction → Bool
  | .msb => false
  | .lsb => true

/-! ### The command decoder -/

/-- The must-be-zero and opcode test of a row: `(cmd & mask) = match` (R71). -/
def rowMatches (cmd mtch mask : CmdWord) : Bool := cmd &&& mask == mtch

/-- `PIN` after its row matched: `sig` 6 or 7 is illegal (R75, R85 step 3). -/
def decodePin (cmd : CmdWord) : Decoded :=
  match Signal.ofCode (cmd.extractLsb' 0 3) with
  | some (.out p) => .command (.pin (.out p) (cmd.getLsbD 3) (Hold.ofCode (cmd.extractLsb' 4 2)))
  | some .eeDin => .illegalCmd
  | none => .illegalCmd

/-- `WBITS` after its row matched: `bitCount` 0 or 17..31 is a bad bit count (R75, R85 step 4). -/
def decodeWbits (cmd : CmdWord) : Decoded :=
  if bitCountOk (cmd.extractLsb' 16 5) then
    .command (.wbits (cmd.extractLsb' 0 16) (cmd.extractLsb' 16 5))
  else .badBitCount

/-- The decoder (R85): the opcode nibble, then the row's must-be-zero bits, then the row's own checks. -/
def decode (cmd : CmdWord) : Decoded :=
  match (cmd.extractLsb' 28 4).toNat with
  | 1 => if rowMatches cmd 0x10000000 0xFFFFFFC0 then decodePin cmd else .illegalCmd
  | 2 => if rowMatches cmd 0x20000000 0xFFFFFFFF then .command .start else .illegalCmd
  | 3 => if rowMatches cmd 0x30000000 0xFFE00000 then decodeWbits cmd else .illegalCmd
  | 4 => if rowMatches cmd 0x40000000 0xFFFFFFFF then .command .rword else .illegalCmd
  | 5 => if rowMatches cmd 0x50000000 0xFFFFFE00 then .command (.rdat (cmd.extractLsb' 0 9)) else .illegalCmd
  | 6 => if rowMatches cmd 0x60000000 0xFE00FE00 then
      .command (.rdrng (cmd.extractLsb' 0 9) (cmd.extractLsb' 16 9)) else .illegalCmd
  | 7 => if rowMatches cmd 0x70000000 0xFFFFFE00 then
      .command (.shift (cmd.extractLsb' 0 8) (Direction.ofBit (cmd.getLsbD 8))) else .illegalCmd
  | 8 => if rowMatches cmd 0x80000000 0xFFFFFFFF then .command .latch else .illegalCmd
  | 9 => if rowMatches cmd 0x90000000 0xFFFF0000 then
      .command (.casc (cmd.extractLsb' 0 8) (cmd.extractLsb' 8 8)) else .illegalCmd
  | 10 => if rowMatches cmd 0xA0000000 0xFFFFFF00 then .command (.find (cmd.extractLsb' 0 8)) else .illegalCmd
  | 11 => if rowMatches cmd 0xB0000000 0xFFFF0000 then .command (.render (cmd.extractLsb' 0 16)) else .illegalCmd
  | _ => .illegalCmd

/-! ### The wire frames, read as a number whose most significant bit is sent first -/

/-- A READ frame (R77): start bit 1, `READ_OPCODE`, then the nine address bits. -/
def decodeReadFrame (f : BitVec 12) : Option Instr :=
  if f.extractLsb' 9 3 == 1#1 ++ Config.config.readOpcode then some (.eeReadFrame (f.extractLsb' 0 9)) else none

/-- A cascade frame (R79): `byte1[0]`, ..., `byte1[7]`, `byte0[0]`, ..., `byte0[7]`; every 16-bit pattern is one. -/
def decodeCascadeFrame (f : BitVec 16) : Instr :=
  .srCascadeFrame (f.extractLsb' 0 8).reverse (f.extractLsb' 8 8).reverse

/-- The instruction the decoder reads from the `nbits` bits `w` of a row of spec/opcode_table.json. A row of 12 bits is
the READ frame, one of 16 bits the cascade frame, every other length a command word (log entry 14). -/
def decodeTableWord (nbits w : Nat) : Option Instr :=
  match nbits with
  | 12 => decodeReadFrame (BitVec.ofNat 12 w)
  | 16 => some (decodeCascadeFrame (BitVec.ofNat 16 w))
  | n =>
    match decode (BitVec.ofNat 32 (w % 2 ^ n)) with
    | .command i => some i
    | .illegalCmd => none
    | .badBitCount => none

/-! ### The encoder -/

/-- The command word of a command (R71): opcode nibble, fields, zeros. A wire frame has no command word (R76); the word of
its bits stands here, with no opcode nibble. -/
def encode : Instr → CmdWord
  | .pin sig level hold => 0x1#4 ++ 0#22 ++ hold.code ++ BitVec.ofBool level ++ sig.code
  | .start => 0x2#4 ++ 0#28
  | .wbits value bitCount => 0x3#4 ++ 0#7 ++ bitCount ++ value
  | .rword => 0x4#4 ++ 0#28
  | .rdat address => 0x5#4 ++ 0#19 ++ address
  | .rdrng first last => 0x6#4 ++ 0#3 ++ last ++ 0#7 ++ first
  | .shift value dir => 0x7#4 ++ 0#19 ++ BitVec.ofBool dir.bit ++ value
  | .latch => 0x8#4 ++ 0#28
  | .casc byte0 byte1 => 0x9#4 ++ 0#12 ++ byte1 ++ byte0
  | .find character => 0xA#4 ++ 0#20 ++ character
  | .render ptr => 0xB#4 ++ 0#12 ++ ptr
  | .eeReadFrame address => 0#20 ++ 1#1 ++ Config.config.readOpcode ++ address
  | .srCascadeFrame byte0 byte1 => 0#16 ++ byte1.reverse ++ byte0.reverse

/-- How many bits the table gives the row: 32 for a command (R70), 12 and 16 for the frames (R77, R79). -/
def Instr.bits : Instr → Nat
  | .eeReadFrame _ => 12
  | .srCascadeFrame _ _ => 16
  | .pin _ _ _ => 32
  | .start => 32
  | .wbits _ _ => 32
  | .rword => 32
  | .rdat _ => 32
  | .rdrng _ _ => 32
  | .shift _ _ => 32
  | .latch => 32
  | .casc _ _ => 32
  | .find _ => 32
  | .render _ => 32

end Sys2Proof
end

