-- ==== Sys2Proof/Machine/State.lean ====
section
/-! DEFINITION. The state: everything spec/10_state.md R33 lists, the sequencer's control state (R29, R32), the two external
devices of spec/20_memory.md R56 and R60, the memories outside, the trace (spec/00_scope.md R11) and the inputs. -/

namespace Sys2Proof.Machine

/-- A byte memory: cells with strictly rising addresses, none equal to what an unlisted address reads as
(`Memory.wf`, `Memory.unlisted` in Machine/Ops.lean). TXT (R53) and CBUF (R26) are held so. -/
abbrev Memory := List Host.Cell

/-- The levels of the six output pins (spec/10_state.md R22). -/
structure Pins where
  eeSel : Bool
  eeClk : Bool
  eeDout : Bool
  srClk : Bool
  srData : Bool
  srLatch : Bool
  deriving DecidableEq, Repr

/-- The sequencer state (R29). -/
inductive Seq where
  | idle
  | busy
  | halt
  deriving DecidableEq, Repr

/-- An event of the trace (spec/00_scope.md R11). -/
inductive Event where
  | drive (p : Pin) (v : Bool)
  | settle (d : Duration)
  | sample (b : Bool)
  | result (w : Word)
  | txtRead (a : TxtAddr) (c : Byte)
  deriving DecidableEq, Repr

/-- One micro-operation: a primitive of R11, a register write of the pseudocode, or a control point of the renderer
(spec/43_renderer.md R137). The locals of R32 that a point still needs are its arguments. -/
inductive Micro where
  /-- `drive(S, v)` (R11) -/
  | drive (p : Pin) (v : Bool)
  /-- `settle(T)` (R11) -/
  | settle (d : Duration)
  /-- `w = 0` (R102) -/
  | clearWord
  /-- `w[i] = sample()` (R102) -/
  | sample (i : Nat)
  /-- `result(w)` (R102) -/
  | result
  /-- `CBUF[j] <- w[7:0]; CBUF[j+1] <- w[15:8]`, nothing between them (R54, R132 step 3) -/
  | unpack (j : Nat)
  /-- `TXTPTR <- ptr` (R132) -/
  | setTxtptr (ptr : TxtAddr)
  /-- `R_FETCH`: read the character, test for the terminator (R137) -/
  | fetch
  /-- the test of `R_SCAN` after slot `idx` was read; `inRender` says whether RENDER called the lookup (R130, R137) -/
  | scanTest (c : Byte) (idx : Nat) (inRender : Bool)
  /-- `cc = m[15:8]` of `R_META`, opening the column load and the refresh (R137) -/
  | metaTest (addr : Word)
  /-- `R_SHOW`'s `writeCascade(~CBUF[slot], MASK[slot])` (R137) -/
  | showCol (slot : Nat)
  /-- `R_NEXT`: `TXTPTR <- TXTPTR + 1` (R137) -/
  | nextChar
  deriving DecidableEq, Repr

/-- The phase of the reference EEPROM (spec/20_memory.md R56). -/
inductive Phase where
  | idle
  | cmd
  | data
  | ignore
  deriving DecidableEq, Repr

/-- The protocol state of the reference EEPROM (R56). -/
structure Eeprom where
  phase : Phase
  /-- the bits taken since the start bit, oldest first -/
  sh : List Bool
  word : Word
  q : Nat
  deriving DecidableEq, Repr

/-- What the host does at its ports during one step (spec/10_state.md R34, log entry 3). -/
structure HostIn where
  /-- `rst` (R170) -/
  rst : Bool
  /-- `cmd_valid` and `cmd`: the word presented, if any (R80) -/
  cmd : Option CmdWord
  /-- bytes the host writes into its text memory (R53, R174), in order -/
  txt : List (TxtAddr × Byte)
  /-- how many micro-operations the step may run before the outside looks again; none: until the command completes -/
  look : Option Nat
  deriving DecidableEq, Repr

/-- No input: the host presents nothing. -/
def HostIn.quiet : HostIn := ⟨false, none, [], none⟩

/-- The machine's faults. The engine's own two faults (spec/60_exceptions.md R151) are NEXT states, entered as R154 says,
and no address of its memories is missing (R51, R53, R59): nothing stops a step with a fault, so there is no constructor
(safe). -/
inductive Fault where
  deriving DecidableEq, Repr

/-- Why a step is given no meaning. -/
inductive Refusal where
  /-- raised by an arm of `exec` that has no meaning yet; none is left (safe) -/
  | notModelled (mnemonic : String)
  /-- raised by `step` before the first reset after power-up (R173, U14; safe) -/
  | beforeFirstReset
  /-- raised by `step` when the host changes a byte of the text a running RENDER works on (R67, U13; safe) -/
  | textChangedDuringRender
  deriving DecidableEq, Repr

structure State where
  -- the engine's architectural state (R33)
  pins : Pins
  result : Word
  faddr : Word
  cbuf : Memory
  txtptr : TxtAddr
  seq : Seq
  fcause : BitVec 4
  finfo : CmdWord
  -- the sequencer's control and working state (R29, R32), the completion pulse (R81)
  todo : List Micro
  work : Word
  done : Bool
  textBase : Option TxtAddr
  resetSeen : Bool
  -- the trace, newest event first (R11)
  log : List Event
  -- outside the engine: EEPROM (R51, R56), cascade (R60), text memory (R53), the levels of EE_DIN (R8)
  ee : List (Nat × Word)
  eeRef : Bool
  eeprom : Eeprom
  chain : BitVec 16
  out : BitVec 16
  txt : Memory
  din : List Bool
  draws : Nat
  -- the host's inputs (R34)
  host : List HostIn
  look : Option Nat
  deriving DecidableEq, Repr

/-- The trace, oldest event first (R11). -/
def State.trace (s : State) : List Event := s.log.reverse

/-- All six pins low (spec/10_state.md R37). -/
def Pins.low : Pins := ⟨false, false, false, false, false, false⟩

/-- The reference EEPROM deselected (R56). DESIGN CHOICE: `sh`, `word` and `q` are written before they are read
(log entry 8). -/
def Eeprom.idle : Eeprom := ⟨.idle, [], 0, 0⟩

/-- The machine right after reset: the engine as R37 says; the cascade unknown (R173, U15); the EEPROM's words unknown
(U16); no text, no inputs. -/
def State.reset : State where
  pins := .low
  result := 0
  faddr := 0
  cbuf := []
  txtptr := 0
  seq := .idle
  fcause := 0
  finfo := 0
  todo := []
  work := 0
  done := false
  textBase := none
  resetSeen := true
  log := []
  ee := []
  eeRef := false
  eeprom := .idle
  chain := Config.powerUpChain
  out := Config.powerUpOut
  txt := []
  din := []
  draws := 0
  host := []
  look := none

end Sys2Proof.Machine
end

