-- ==== Sys2Proof/Machine/Operands.lean ====
section
/-! DEFINITION. Operand forms and bit fields (spec/00_scope.md R9, spec/30_encoding.md R72): what an operand of a command
stands for when its pseudocode reads it. -/

namespace Sys2Proof.Machine

/-- `w[7:0]`, the earlier item of a word (R55). -/
def lowByte (w : Word) : Byte := w.extractLsb' 0 8

/-- `w[15:8]`, the later item of a word (R55). -/
def highByte (w : Word) : Byte := w.extractLsb' 8 8

/-- `w[i] = b` (R102). -/
def setBit (w : Word) (i : Nat) (b : Bool) : Word :=
  if b then w ||| BitVec.twoPow 16 i else w &&& ~~~(BitVec.twoPow 16 i)

/-- `zext_16` of a 9-bit address operand (R72). -/
def zext16 (a : EeAddr) : Word := a.setWidth 16

/-- The nine bits of an address that reach the wire: bits 15 to 9 are dropped (spec/20_memory.md R57). -/
def wireAddr (a : Word) : EeAddr := a.setWidth 9

/-- The settle a `hold` operand selects (spec/40_bit_io.md R90). -/
def holdDuration : Hold → Option Duration
  | .none => none
  | .short => some .short
  | .srclk => some .srclk
  | .latch => some .latch

/-- The k-th bit `shiftByte` sends: `value[7 - k]` for MSB, `value[k]` for LSB, two formulas kept apart
(spec/42_shiftreg.md R120, spec/90_conflicts.md C3). -/
def shiftBit (value : Byte) (dir : Direction) (k : Nat) : Bool :=
  match dir with
  | .msb => value.getLsbD (7 - k)
  | .lsb => value.getLsbD k

/-- `MASK[slot]` (spec/10_state.md R28). -/
def maskOf (slot : Nat) : Byte := Config.config.mask.getD slot 0

/-- The record base address of a slot, `10 * idx` in 16 bits (spec/43_renderer.md R130, R12). -/
def slotAddr (idx : Nat) : Word := BitVec.ofNat 16 (Config.config.stride * idx)

/-- The address of the bitmap word for column offset `j`, `addr + j + 2` in 16 bits (R132 step 3). -/
def bitmapAddr (addr : Word) (j : Nat) : Word := addr + BitVec.ofNat 16 (j + 2)

end Sys2Proof.Machine
end

