-- ==== Sys2Proof/Machine/Code.lean ====
section
/-! DEFINITION. The pseudocode of the operations as lists of micro-operations, leaf first, each beside its rule. A command
runs the list of its operation; the lists hold no state. -/

namespace Sys2Proof.Machine

/-! ### Bit I/O (spec/40_bit_io.md) -/

/-- `PIN(sig, level, hold)` (R90). -/
def pinCode (p : Pin) (level : Bool) (hold : Hold) : List Micro :=
  .drive p level :: (holdDuration hold).toList.map .settle

/-! ### EEPROM driver (spec/41_eeprom.md) -/

/-- `startCondition()` (R100). -/
def startCode : List Micro :=
  [.drive .eeSel false,
   .drive .eeClk false,
   .drive .eeDout false,
   .settle .short,
   .drive .eeSel true,
   .settle .short,
   .drive .eeDout true,
   .settle .short,
   .drive .eeClk true,
   .settle .short,
   .drive .eeClk false]

/-- One round of the loop of `writeBits` (R101): `b` is `value[i]`. -/
def sendBit (b : Bool) : List Micro :=
  [.drive .eeDout b, .settle .short, .drive .eeClk true, .settle .short, .drive .eeClk false]

/-- `for i = n - 1 downto 0` of `writeBits` (R101). -/
def sendBits (value : Word) : Nat → List Micro
  | 0 => []
  | i + 1 => sendBit (value.getLsbD i) ++ sendBits value i

/-- `writeBits(value, bitCount)` (R101). -/
def writeBitsCode (value : Word) (bitCount : Nat) : List Micro :=
  sendBits value bitCount ++ [.drive .eeDout false]

/-- One round of the loop of `readWord` (R102). -/
def readBit (i : Nat) : List Micro :=
  [.drive .eeClk false, .settle .short, .sample i, .drive .eeClk true, .settle .short]

/-- `for i = n - 1 downto 0` of `readWord` (R102). -/
def readBits : Nat → List Micro
  | 0 => []
  | i + 1 => readBit i ++ readBits i

/-- `readWord()` (R102). -/
def readWordCode : List Micro :=
  .clearWord :: readBits Config.config.wordW ++ [.result]

/-- The READ frame (R77): `startCondition()`, `writeBits(READ_OPCODE, 2)`, `writeBits(address, 9)`. -/
def readFrameCode (address : Word) : List Micro :=
  startCode ++ writeBitsCode (Config.config.readOpcode.setWidth 16) Config.config.opcW
    ++ writeBitsCode address Config.config.addrW

/-- The end of `readWordAt` (R103): the post-read settle, select idle, data line cleared. -/
def releaseCode : List Micro :=
  [.settle .postread, .drive .eeSel false, .drive .eeDout false]

/-- `readWordAt(address)` (R103). -/
def readWordAtCode (address : Word) : List Micro :=
  readFrameCode address ++ readWordCode ++ releaseCode

/-- `n` reads at ascending addresses from `a`, the loop of `readRange` (R104). -/
def readsFrom (a : Nat) : Nat → List Micro
  | 0 => []
  | n + 1 => readWordAtCode (BitVec.ofNat 16 a) ++ readsFrom (a + 1) n

/-- `readRange(start, end)` (R104): every address of the range when `end > start`, else one read at `start`. -/
def readRangeCode (first last : EeAddr) : List Micro :=
  if first.toNat < last.toNat then readsFrom first.toNat (last.toNat - first.toNat + 1)
  else readWordAtCode (zext16 first)

/-! ### Shift-register driver (spec/42_shiftreg.md) -/

/-- One round of the loop of `shiftByte` (R120). -/
def shiftOne (b : Bool) : List Micro :=
  [.drive .srData b, .drive .srClk true, .settle .srclk, .drive .srClk false, .settle .srclk]

/-- The bits `shiftByte` sends, first bit first (R120). -/
def shiftBits (value : Byte) (dir : Direction) : List Bool :=
  (List.range 8).map (shiftBit value dir)

/-- `shiftByte(value, direction)` (R120). -/
def shiftByteCode (value : Byte) (dir : Direction) : List Micro :=
  (shiftBits value dir).flatMap shiftOne

/-- `commitLatch()` (R121). -/
def latchCode : List Micro :=
  [.drive .srLatch true, .settle .latch, .drive .srLatch false]

/-- `writeCascade(byte0, byte1)` (R122): byte1 first, so that it ends up furthest down the cascade. -/
def cascadeCode (byte0 byte1 : Byte) : List Micro :=
  shiftByteCode byte1 .lsb ++ shiftByteCode byte0 .lsb ++ latchCode

/-! ### Glyph lookup and renderer (spec/43_renderer.md) -/

/-- `findGlyphAddress(c)` from slot `idx` on (R130): read the slot's metadata word, then the test. -/
def scanCode (c : Byte) (idx : Nat) (inRender : Bool) : List Micro :=
  readWordAtCode (slotAddr idx) ++ [.scanTest c idx inRender]

/-- Step 2 of `renderString` (R132): read the metadata word again. -/
def metaCode (addr : Word) : List Micro :=
  readWordAtCode addr ++ [.metaTest addr]

/-- Step 3 for one `j` (R132): a read and an unpack when `j` is even. -/
def loadOne (addr : Word) (j : Nat) : List Micro :=
  if j % 2 = 0 then readWordAtCode (bitmapAddr addr j) ++ [.unpack j] else []

/-- Step 3 (R132): `for j = 0 to cc`, inclusive. -/
def loadCode (addr : Word) (cc : Byte) : List Micro :=
  (List.range (cc.toNat + 1)).flatMap (loadOne addr)

/-- Step 4 for one slot (R132): the column, a short settle, the blank. -/
def refreshOne (slot : Nat) : List Micro :=
  .showCol slot :: .settle .short :: cascadeCode 0 0

/-- Step 4 for one pass (R132): the first `N_COLS` slots. -/
def refreshPass : List Micro :=
  (List.range Config.config.nCols).flatMap refreshOne

/-- Step 4 (R132): `N_PASS` passes. -/
def refreshCode : List Micro :=
  (List.range Config.config.nPass).flatMap (fun _ => refreshPass)

/-- Steps 3, 4 and 5 once the column count is known (R132). -/
def glyphCode (addr : Word) (cc : Byte) : List Micro :=
  loadCode addr cc ++ refreshCode ++ [.nextChar]

/-- `renderString(ptr)` up to its first fetch (R132). -/
def renderCode (ptr : TxtAddr) : List Micro :=
  [.setTxtptr ptr, .fetch]

end Sys2Proof.Machine
end

