-- ==== Sys2Proof/Machine/Ops.lean ====
section
/-! DEFINITION. The named operations over memories, pins, devices and registers: the primitives of spec/00_scope.md R11, the
reference devices of spec/20_memory.md R56 and R60, taking a fault (spec/60_exceptions.md R154) and reset
(spec/70_reset_and_hazards.md R170), command acceptance and completion (spec/30_encoding.md R80, R81). -/

namespace Sys2Proof.Machine

/-! ### Byte memories (TXT, CBUF) -/

/-- What an address that is not listed reads as. For CBUF it is the reset value of R37. DESIGN CHOICE for TXT: the spec
gives text memory no contents before the host writes it (log entry 6; unsafe). -/
def Memory.unlisted : Byte := 0x00#8

/-- One byte of a memory. -/
def Memory.read : Memory → Nat → Byte
  | [], _ => Memory.unlisted
  | (k, v) :: rest, a => if k = a then v else Memory.read rest a

/-- Put `v` before the cells of `m`, unless an unlisted address reads as `v`. -/
def Memory.cons (a : Nat) (v : Byte) (m : Memory) : Memory :=
  if v = Memory.unlisted then m else (a, v) :: m

/-- Write one byte, keeping the canonical form. -/
def Memory.write : Memory → Nat → Byte → Memory
  | [], a, v => Memory.cons a v []
  | (k, w) :: rest, a, v =>
    if a < k then Memory.cons a v ((k, w) :: rest)
    else if a = k then Memory.cons a v rest
    else (k, w) :: Memory.write rest a v

/-- The canonical form over a memory of `size` bytes: addresses below `size`, strictly rising, no value equal to what an
unlisted address reads as. -/
def Memory.wf (size : Nat) : Memory → Bool
  | [] => true
  | (k, v) :: rest =>
    decide (k < size) && decide (v ≠ Memory.unlisted) && rest.all (fun c => decide (k < c.1)) && Memory.wf size rest

/-- `TXT[a]` (spec/20_memory.md R53). -/
def State.txtRead (s : State) (a : TxtAddr) : Byte := Memory.read s.txt a.toNat

/-- `CBUF[j]` (spec/10_state.md R26). -/
def State.cbufRead (s : State) (j : Nat) : Byte := Memory.read s.cbuf j

/-- `CBUF[j] <- v` for an index of the buffer (R26); no rule forms another index (R135). -/
def State.cbufWrite (s : State) (j : Nat) (v : Byte) : State :=
  { s with cbuf := if j < Config.config.bufSlots then Memory.write s.cbuf j v else s.cbuf }

/-- `EE[a]` (R51): the word the list gives, else the free value of log entry 5. -/
def eeRead : List (Nat × Word) → EeAddr → Word
  | [], a => Config.eeContent a
  | (k, w) :: rest, a => if k = a.toNat then w else eeRead rest a

/-! ### Pins -/

/-- `PIN[S]` (R22). -/
def Pins.get (p : Pins) : Pin → Bool
  | .eeSel => p.eeSel
  | .eeClk => p.eeClk
  | .eeDout => p.eeDout
  | .srClk => p.srClk
  | .srData => p.srData
  | .srLatch => p.srLatch

/-- `PIN[S] <- v` (R22). -/
def Pins.set (p : Pins) (sig : Pin) (v : Bool) : Pins :=
  match sig with
  | .eeSel => { p with eeSel := v }
  | .eeClk => { p with eeClk := v }
  | .eeDout => { p with eeDout := v }
  | .srClk => { p with srClk := v }
  | .srData => { p with srData := v }
  | .srLatch => { p with srLatch := v }

/-- Whether driving `v` on `sig` makes a rising edge (R11). -/
def Pins.rises (p : Pins) (sig : Pin) (v : Bool) : Bool := v && !p.get sig

/-! ### The reference EEPROM (spec/20_memory.md R56) -/

/-- A bit list as a number, first bit most significant (R56). -/
def bitsToNat (bits : List Bool) : Nat := bits.foldl (fun n b => 2 * n + b.toNat) 0

/-- How many bits follow the start bit of a frame: the opcode and the address (R56, R77). -/
def frameBits : Nat := Config.config.opcW + Config.config.addrW

/-- The end of the CMD phase: the device has all the bits of the frame (R56). -/
def Eeprom.decideFrame (d : Eeprom) (ee : List (Nat × Word)) : Eeprom :=
  if bitsToNat (d.sh.take Config.config.opcW) = Config.config.readOpcode.toNat then
    { d with
      phase := .data
      word := eeRead ee (BitVec.ofNat 9 (bitsToNat (d.sh.drop Config.config.opcW)))
      q := 0 }
  else { d with phase := .ignore }

/-- A rising edge of `EE_CLK` while the device is selected (R56). -/
def Eeprom.clock (d : Eeprom) (dout : Bool) (ee : List (Nat × Word)) : Eeprom :=
  match d.phase with
  | .idle => if dout then { d with phase := .cmd, sh := [] } else d
  | .cmd =>
    let d' := { d with sh := d.sh ++ [dout] }
    if d'.sh.length = frameBits then d'.decideFrame ee else d'
  | .data => { d with q := min (d.q + 1) Config.config.wordW }
  | .ignore => d

/-- The device with the levels `pins` on its wires: deselected it is in IDLE, selected it takes a rising edge of its clock
(R56). -/
def Eeprom.see (d : Eeprom) (pins : Pins) (clockRises : Bool) (ee : List (Nat × Word)) : Eeprom :=
  if pins.eeSel = false then { d with phase := .idle }
  else if clockRises then d.clock pins.eeDout ee
  else d

/-- What a pin write does to the device; `pins` are the levels after it. The cascade's wires are not its own (R20). -/
def Eeprom.afterDrive (d : Eeprom) (pins : Pins) (sig : Pin) (rise : Bool) (ee : List (Nat × Word)) : Eeprom :=
  match sig with
  | .eeSel => d.see pins false ee
  | .eeClk => d.see pins rise ee
  | .eeDout => d.see pins false ee
  | .srClk => d
  | .srData => d
  | .srLatch => d

/-- The level the device puts on `EE_DIN`; none where R56 leaves it unconstrained. -/
def Eeprom.answer (d : Eeprom) : Option Bool :=
  if d.phase = .data ∧ d.q < Config.config.wordW then some (d.word.getLsbD (Config.config.wordW - 1 - d.q)) else none

/-! ### The reference cascade (spec/20_memory.md R60) -/

/-- One shift: `CH[p] <- CH[p-1]`, `CH[0] <- b` (R60). -/
def shiftIn (ch : BitVec 16) (b : Bool) : BitVec 16 := (ch <<< 1) ||| (BitVec.ofBool b).setWidth 16

/-- The chain after a pin write: it shifts on a rising edge of `SR_CLK` (R60). -/
def chainAfter (ch : BitVec 16) (pins : Pins) (sig : Pin) (rise : Bool) : BitVec 16 :=
  if sig = .srClk ∧ rise = true then shiftIn ch pins.srData else ch

/-- The outputs after a pin write: all sixteen at once on a rising edge of `SR_LATCH` (R60, R66). -/
def outAfter (o ch : BitVec 16) (sig : Pin) (rise : Bool) : BitVec 16 :=
  if sig = .srLatch ∧ rise = true then ch else o

/-! ### The primitives of R11 -/

/-- Append one event to the trace (R11). -/
def State.emit (s : State) (e : Event) : State := { s with log := e :: s.log }

/-- `drive(S, v)` (R11), with what the two devices on the wires make of it. -/
def State.drive (s : State) (sig : Pin) (v : Bool) : State :=
  { s with
    pins := s.pins.set sig v
    eeprom := s.eeprom.afterDrive (s.pins.set sig v) sig (s.pins.rises sig v) s.ee
    chain := chainAfter s.chain (s.pins.set sig v) sig (s.pins.rises sig v)
    out := outAfter s.out s.chain sig (s.pins.rises sig v)
    log := .drive sig v :: s.log }

/-- The level the reference EEPROM puts on `EE_DIN`, when it is the device there (R56, R8). -/
def State.deviceLevel (s : State) : Option Bool := if s.eeRef then s.eeprom.answer else none

/-- The level a sample takes now (R11, R93): the reference device's, else the next input, else a free value. -/
def State.sampleLevel (s : State) : Bool := s.deviceLevel.getD (s.din.headD (Config.freeSample s.draws))

/-- The inputs left after a sample: one the device answers uses none up, one it does not takes the next input, or, when
there is none, draws a free value (log entry 7). -/
def State.afterSample (s : State) : State :=
  { s with
    din := if s.deviceLevel.isSome then s.din else s.din.tail
    draws := if s.deviceLevel.isSome || !s.din.isEmpty then s.draws else s.draws + 1 }

/-- `w[i] = sample()` (R11, R102). -/
def State.sample (s : State) (i : Nat) : State :=
  { s.afterSample with work := setBit s.work i s.sampleLevel, log := .sample s.sampleLevel :: s.log }

/-- `result(w)`: RESULT in a single write, and the strobe (R11, R23, R24). -/
def State.putResult (s : State) : State := { s with result := s.work, log := .result s.work :: s.log }

/-- `CBUF[j] <- w[7:0]`, `CBUF[j+1] <- w[15:8]`: two byte writes in that order (R54). -/
def State.unpack (s : State) (j : Nat) : State :=
  (s.cbufWrite j (lowByte s.work)).cbufWrite (j + 1) (highByte s.work)

/-- Open pseudocode: `code` runs next, then what was left. -/
def State.push (s : State) (code : List Micro) : State := { s with todo := code ++ s.todo }

/-! ### Faults, acceptance, completion, reset -/

/-- The two causes (spec/60_exceptions.md R151). -/
inductive Cause where
  | illegalCmd
  | badBitCount
  deriving DecidableEq, Repr

/-- The code `FCAUSE` holds for a cause (R151). -/
def Cause.code : Cause → BitVec 4
  | .illegalCmd => 1
  | .badBitCount => 2

/-- TAKING A FAULT, `raise Fault(cause, info)` (R154): three registers and nothing else. There is no return from it but
reset (R156). -/
def State.raiseFault (s : State) (cause : Cause) (info : CmdWord) : State :=
  { s with fcause := cause.code, finfo := info, seq := .halt }

/-- A legal command is accepted: `SEQ <- BUSY`, its pseudocode from the first primitive (R80). -/
def State.accept (s : State) (code : List Micro) : State :=
  { s with seq := .busy, todo := code, done := false }

/-- The last primitive was performed: `SEQ <- IDLE`, `done` pulses (R81). -/
def State.complete (s : State) : State := { s with seq := .idle, done := true, textBase := none }

/-- `rst` (spec/70_reset_and_hazards.md R170, R171): every piece of engine state at R37's value, a fresh trace; the devices
and memories outside keep theirs (R173), but `EE_SEL` at 0 puts the reference EEPROM in IDLE (R171, R56). All pins fall, so
no edge reaches a device. -/
def State.resetEngine (s : State) : State :=
  { State.reset with
    ee := s.ee
    eeRef := s.eeRef
    eeprom := { s.eeprom with phase := .idle }
    chain := s.chain
    out := s.out
    txt := s.txt
    din := s.din
    draws := s.draws
    host := s.host
    look := s.look }

end Sys2Proof.Machine
end

