-- ==== Sys2Proof/Machine/Sequencer.lean ====
section
/-! DEFINITION. The sequencer (spec/10_state.md R29): performing one micro-operation, running a command's pseudocode, and
how far one step runs it (log entries 2 and 4). -/

namespace Sys2Proof.Machine

/-- The test of `R_SCAN` (spec/43_renderer.md R130, R137): a match in the low byte writes `FADDR` and, inside RENDER, goes on to
the metadata read; after the last slot `FADDR` is the sentinel and RENDER skips the character (R134); else the next slot. -/
def State.scanTest (s : State) (c : Byte) (idx : Nat) (inRender : Bool) : State :=
  if lowByte s.work = c then
    ({ s with faddr := slotAddr idx }).push (if inRender then metaCode (slotAddr idx) else [])
  else if idx + 1 < Config.config.nSlots then
    s.push (scanCode c (idx + 1) inRender)
  else
    ({ s with faddr := Config.config.sentinel }).push (if inRender then [.nextChar] else [])

/-- `R_FETCH` (R137): read the character at `TXTPTR`; the terminator ends the command, any other is looked up. -/
def State.fetch (s : State) : State :=
  let c := s.txtRead s.txtptr
  (s.emit (.txtRead s.txtptr c)).push (if c = Config.config.term then [] else scanCode c 0 true)

/-- Perform one micro-operation (R11, R132, R137). -/
def perform (m : Micro) (s : State) : State :=
  match m with
  | .drive p v => s.drive p v
  | .settle d => s.emit (.settle d)
  | .clearWord => { s with work := 0 }
  | .sample i => s.sample i
  | .result => s.putResult
  | .unpack j => s.unpack j
  | .setTxtptr ptr => { s with txtptr := ptr }
  | .fetch => s.fetch
  | .scanTest c idx inRender => s.scanTest c idx inRender
  | .metaTest addr => s.push (glyphCode addr (highByte s.work))
  | .showCol slot => s.push (cascadeCode (~~~(s.cbufRead slot)) (maskOf slot))
  | .nextChar => ({ s with txtptr := s.txtptr + 1 }).push [.fetch]

/-- Perform the next micro-operation of the running command. -/
def tick (s : State) : State :=
  match s.todo with
  | [] => s
  | m :: rest => perform m { s with todo := rest }

/-- At most `n` micro-operations; fewer when the pseudocode ends. -/
def runTicks : Nat → State → State
  | 0, s => s
  | n + 1, s => if s.todo.isEmpty then s else runTicks n (tick s)

/-- Perform a list of micro-operations in order. -/
def runCode (code : List Micro) (s : State) : State := code.foldl (fun t m => perform m t) s

/-- How many micro-operations a step runs when nobody looks in. DESIGN CHOICE: more than any command needs that ends at all
(a RENDER of 65535 characters stays below it); one that does not end is BUSY after it and goes on in the next step
(R133, R184; log entry 2; safe). -/
def fullRun : Nat := 2 ^ 34

/-- How many micro-operations this step runs (log entry 4). -/
def State.budget (s : State) : Nat := s.look.getD fullRun

/-- A command that has no micro-operation left completes (R81). -/
def State.settleSeq (s : State) : State := if s.todo.isEmpty then s.complete else s

/-- Let the running command go on for this step's micro-operations (R80, R81). -/
def State.resume (s : State) : State := (runTicks s.budget s).settleSeq

/-- Accept a command and run it (R80, R81). -/
def State.runCommand (s : State) (code : List Micro) : State := (s.accept code).resume

end Sys2Proof.Machine
end

