-- ==== Sys2Proof/Machine/BitIo.lean ====
section
/-! DEFINITION. The meaning of `PIN` (spec/40_bit_io.md). -/

namespace Sys2Proof.Machine

/-- `PIN sig, level, hold` (R90). A `sig` that names the input raises `ILLEGAL_CMD` before the drive (R75). -/
def execPin (sig : Signal) (level : Bool) (hold : Hold) (s : State) : Host.Outcome State Fault Refusal :=
  match sig with
  | .out p => .next (s.runCommand (pinCode p level hold))
  | .eeDin => .next (s.raiseFault .illegalCmd (encode (.pin .eeDin level hold)))

end Sys2Proof.Machine
end

