-- ==== Sys2Proof/Machine/EepromDriver.lean ====
section
/-! DEFINITION. The meanings of the EEPROM driver commands (spec/41_eeprom.md) and of the READ frame (spec/30_encoding.md R77). -/

namespace Sys2Proof.Machine

/-- `START` (R100). -/
def execStart (s : State) : Host.Outcome State Fault Refusal := .next (s.runCommand startCode)

/-- `WBITS value, bitCount` (R101); a `bitCount` outside 1..16 raises `BAD_BITCOUNT` before any drive (R75, R153). -/
def execWbits (value : Word) (bitCount : BitVec 5) (s : State) : Host.Outcome State Fault Refusal :=
  if bitCountOk bitCount then .next (s.runCommand (writeBitsCode value bitCount.toNat))
  else .next (s.raiseFault .badBitCount (encode (.wbits value bitCount)))

/-- `RWORD` (R102). -/
def execRword (s : State) : Host.Outcome State Fault Refusal := .next (s.runCommand readWordCode)

/-- `RDAT address` (R103). -/
def execRdat (address : EeAddr) (s : State) : Host.Outcome State Fault Refusal :=
  .next (s.runCommand (readWordAtCode (zext16 address)))

/-- `RDRNG start, end` (R104). -/
def execRdrng (first last : EeAddr) (s : State) : Host.Outcome State Fault Refusal :=
  .next (s.runCommand (readRangeCode first last))

/-- The READ frame (R77): the part of `readWordAt` that sends it. It is a sub-operation, so SEQ and `done` stay
(log entry 14). -/
def execEeReadFrame (address : EeAddr) (s : State) : Host.Outcome State Fault Refusal :=
  .next (runCode (readFrameCode (zext16 address)) s)

end Sys2Proof.Machine
end

