-- ==== Sys2Proof/Machine/Renderer.lean ====
section
/-! DEFINITION. The meanings of the lookup and the renderer (spec/43_renderer.md). -/

namespace Sys2Proof.Machine

/-- `FIND character` (R130). -/
def execFind (character : Byte) (s : State) : Host.Outcome State Fault Refusal :=
  .next (s.runCommand (scanCode character 0 false))

/-- `RENDER ptr` (R132). From its acceptance on the host must keep the text at `ptr` (R67). -/
def execRender (ptr : TxtAddr) (s : State) : Host.Outcome State Fault Refusal :=
  .next (({ s with textBase := some ptr }).runCommand (renderCode ptr))

end Sys2Proof.Machine
end

