-- ==== Sys2Proof/Machine/ShiftReg.lean ====
section
/-! DEFINITION. The meanings of the shift-register driver commands (spec/42_shiftreg.md) and of the cascade frame
(spec/30_encoding.md R79). -/

namespace Sys2Proof.Machine

/-- `SHIFT value, dir` (R120). -/
def execShift (value : Byte) (dir : Direction) (s : State) : Host.Outcome State Fault Refusal :=
  .next (s.runCommand (shiftByteCode value dir))

/-- `LATCH` (R121). -/
def execLatch (s : State) : Host.Outcome State Fault Refusal := .next (s.runCommand latchCode)

/-- `CASC byte0, byte1` (R122). -/
def execCasc (byte0 byte1 : Byte) (s : State) : Host.Outcome State Fault Refusal :=
  .next (s.runCommand (cascadeCode byte0 byte1))

/-- The cascade frame (R79): the sixteen bits and the latch pulse. It is a sub-operation, so SEQ and `done` stay
(log entry 14). -/
def execSrCascadeFrame (byte0 byte1 : Byte) (s : State) : Host.Outcome State Fault Refusal :=
  .next (runCode (cascadeCode byte0 byte1) s)

end Sys2Proof.Machine
end

