-- ==== Sys2Proof/Machine/Dispatch.lean ====
section
/-! DEFINITION. One arm for each row of spec/opcode_table.json: the effect of an accepted command. -/

namespace Sys2Proof.Machine

def exec (i : Instr) (s : State) : Host.Outcome State Fault Refusal :=
  match i with
  | .pin sig level hold => Sys2Proof.Machine.execPin sig level hold s
  | .start => Sys2Proof.Machine.execStart s
  | .wbits value bitCount => Sys2Proof.Machine.execWbits value bitCount s
  | .rword => Sys2Proof.Machine.execRword s
  | .rdat address => Sys2Proof.Machine.execRdat address s
  | .rdrng first last => Sys2Proof.Machine.execRdrng first last s
  | .shift value dir => Sys2Proof.Machine.execShift value dir s
  | .latch => Sys2Proof.Machine.execLatch s
  | .casc byte0 byte1 => Sys2Proof.Machine.execCasc byte0 byte1 s
  | .find character => Sys2Proof.Machine.execFind character s
  | .render ptr => Sys2Proof.Machine.execRender ptr s
  | .eeReadFrame address => Sys2Proof.Machine.execEeReadFrame address s
  | .srCascadeFrame byte0 byte1 => Sys2Proof.Machine.execSrCascadeFrame byte0 byte1 s

end Sys2Proof.Machine
end

