-- ==== Sys2Proof/Machine/HostPort.lean ====
section
/-! DEFINITION. The host's inputs to one step (spec/10_state.md R34; log entries 3 and 4), its writes to the text memory
(spec/20_memory.md R53, R67), and the bytes a running RENDER asks it to keep (R67). -/

namespace Sys2Proof.Machine

/-- The inputs of this step: the head of the host's script, or none (log entry 3). -/
def State.hostIn (s : State) : HostIn := s.host.headD .quiet

/-- Take this step's inputs: the script moves on, the `done` pulse of the last step is over (R81), and a level of `EE_DIN`
that nothing determines is a fresh one (R35; log entry 20). -/
def State.takeInput (s : State) : State :=
  { s with host := s.host.tail, look := s.hostIn.look, done := false, draws := s.draws + 1 }

/-- The host writes bytes of its text memory, in order (R53, R174). -/
def State.hostWrites (s : State) (ws : List (TxtAddr × Byte)) : State :=
  { s with txt := ws.foldl (fun m w => Memory.write m w.1.toNat w.2) s.txt }

/-- Whether `a` lies in the text from `base` up to and including its terminator: no earlier byte from `base` on is `TERM`
(R67). A text with no terminator is all of TXT. -/
def State.inText (s : State) (base a : TxtAddr) : Bool :=
  (List.range (a - base).toNat).all (fun k => s.txtRead (base + BitVec.ofNat 16 k) != Config.config.term)

/-- Whether the host's writes change a byte of the text of a running RENDER (R67, U13; log entry 18). -/
def State.breaksText (s : State) (ws : List (TxtAddr × Byte)) : Bool :=
  match s.textBase with
  | none => false
  | some base => ws.any (fun w => s.inText base w.1 && s.txtRead w.1 != w.2)

end Sys2Proof.Machine
end

