-- ==== Sys2Proof/Machine/Step.lean ====
section
/-! DEFINITION. One step of the machine: one look at the host's inputs, and what the engine does until the next
(spec/30_encoding.md R80, R81; spec/70_reset_and_hazards.md R170; log entries 2 to 4). -/

namespace Sys2Proof.Machine

/-- A word is accepted (R80): decode it, then raise its fault or run it (R74, R75, R85). -/
def issue (cmd : CmdWord) (s : State) : Host.Outcome State Fault Refusal :=
  match decode cmd with
  | .command i => exec i s
  | .illegalCmd => .next (s.raiseFault .illegalCmd cmd)
  | .badBitCount => .next (s.raiseFault .badBitCount cmd)

/-- What the engine does with a step's inputs when it is not in reset (R80, R156): idle it accepts the word presented, busy it
goes on with its command and halted it does nothing; a word presented while not idle has no effect. -/
def stepEngine (cmd : Option CmdWord) (s : State) : Host.Outcome State Fault Refusal :=
  match s.seq with
  | .halt => .next s
  | .busy => .next s.resume
  | .idle =>
    match cmd with
    | none => .next s
    | some w => issue w s

/-- One step. `rst` comes before everything else (R170); nothing has a meaning before the first reset (R173, U14), nor a
RENDER whose text the host changes (R67, U13). -/
def step (s : State) : Host.Outcome State Fault Refusal :=
  if s.hostIn.rst then .next (s.takeInput.hostWrites s.hostIn.txt).resetEngine
  else if s.resetSeen = false then .refused .beforeFirstReset
  else if s.breaksText s.hostIn.txt then .refused .textChangedDuringRender
  else stepEngine s.hostIn.cmd (s.takeInput.hostWrites s.hostIn.txt)

/-- `s` with an instruction where the next step takes it (log entry 23). A command word (every length but 12 and 16) is
presented by the host to the idle engine. A wire frame is no command, so it is put where the sequencer takes its next
sub-operation, inside a running command (log entry 14); twelve bits that are no READ frame change nothing. -/
def State.withFetchWord (s : State) (nbits w : Nat) : State :=
  match nbits with
  | 12 =>
    match decodeReadFrame (BitVec.ofNat 12 w) with
    | some (.eeReadFrame a) =>
      { s with seq := .busy, todo := readFrameCode (zext16 a), textBase := none, resetSeen := true, host := .quiet :: s.host }
    | _ => s
  | 16 =>
    match decodeCascadeFrame (BitVec.ofNat 16 w) with
    | .srCascadeFrame b0 b1 =>
      { s with seq := .busy, todo := cascadeCode b0 b1, textBase := none, resetSeen := true, host := .quiet :: s.host }
    | _ => s
  | n =>
    { s with
      seq := .idle
      todo := []
      textBase := none
      resetSeen := true
      host := { HostIn.quiet with cmd := some (BitVec.ofNat 32 (w % 2 ^ n)) } :: s.host }

end Sys2Proof.Machine
end

