-- ==== Sys2Proof/Machine/Asm.lean ====
section
/-! DEFINITION. The textual form of a command and the pseudo-commands (spec/30_encoding.md R83, R84), written and
read. DESIGN CHOICE: numbers are written in decimal, one of the forms R83 allows (log entry 24). -/

namespace Sys2Proof.Machine

/-- The signal names of R20. -/
def signalName : Signal → String
  | .out .eeSel => "EE_SEL"
  | .out .eeClk => "EE_CLK"
  | .out .eeDout => "EE_DOUT"
  | .out .srClk => "SR_CLK"
  | .out .srData => "SR_DATA"
  | .out .srLatch => "SR_LATCH"
  | .eeDin => "EE_DIN"

/-- The hold names of R83. -/
def holdName : Hold → String
  | .none => "NONE"
  | .short => "SHORT"
  | .srclk => "SRCLK"
  | .latch => "LATCH"

/-- The direction names of R83. -/
def dirName : Direction → String
  | .msb => "MSB"
  | .lsb => "LSB"

/-- The operands of an instruction, in the order of the source's signature (R83). -/
def operandTexts : Instr → List String
  | .pin sig level hold => [signalName sig, if level then "1" else "0", holdName hold]
  | .start => []
  | .wbits value bitCount => [toString value.toNat, toString bitCount.toNat]
  | .rword => []
  | .rdat address => [toString address.toNat]
  | .rdrng first last => [toString first.toNat, toString last.toNat]
  | .shift value dir => [toString value.toNat, dirName dir]
  | .latch => []
  | .casc byte0 byte1 => [toString byte0.toNat, toString byte1.toNat]
  | .find character => [toString character.toNat]
  | .render ptr => [toString ptr.toNat]
  | .eeReadFrame address => [toString address.toNat]
  | .srCascadeFrame byte0 byte1 => [toString byte0.toNat, toString byte1.toNat]

/-- The text of an instruction (R83): the mnemonic, then its operands separated by commas. -/
def asmText (i : Instr) : String :=
  match operandTexts i with
  | [] => i.mnemonic
  | ops => i.mnemonic ++ " " ++ ", ".intercalate ops

/-- `BLANK` (R84). -/
def blankPseudo : List Instr := [.casc 0 0]

/-- `RELEASE` (R84). -/
def releasePseudo : List Instr := [.pin (.out .eeSel) false .none, .pin (.out .eeDout) false .none]

/-! ### Reading the textual form (R83, R84; log entry 24) -/

/-- The pieces of a line between the characters `sep`. -/
def piecesAt (sep : Char) (cs : List Char) : List (List Char) :=
  cs.foldr (fun c acc => if c = sep then [] :: acc else match acc with
    | [] => [[c]]
    | piece :: rest => (c :: piece) :: rest) [[]]

/-- A piece without the blanks around it. -/
def trimBlanks (cs : List Char) : List Char := ((cs.dropWhile (· = ' ')).reverse.dropWhile (· = ' ')).reverse

/-- The value of a digit, in either case. -/
def digitValue (c : Char) : Option Nat :=
  if '0' ≤ c ∧ c ≤ '9' then some (c.toNat - 48)
  else if 'a' ≤ c ∧ c ≤ 'f' then some (c.toNat - 87)
  else if 'A' ≤ c ∧ c ≤ 'F' then some (c.toNat - 55)
  else none

/-- The number `ds` writes in a base; at least one digit, each below the base. -/
def digitsValue (base : Nat) : List Char → Option Nat
  | [] => none
  | ds => ds.foldl (fun acc c => do
      let n ← acc
      let d ← digitValue c
      if d < base then some (base * n + d) else none) (some 0)

/-- A number (R83): decimal, or hexadecimal with `0x`, or binary with `0b`. -/
def numberValue : List Char → Option Nat
  | '0' :: 'x' :: ds => digitsValue 16 ds
  | '0' :: 'b' :: ds => digitsValue 2 ds
  | ds => digitsValue 10 ds

/-- A number that fits an operand of `w` bits. -/
def fieldValue (w : Nat) (cs : List Char) : Option (BitVec w) := do
  let n ← numberValue cs
  if n < 2 ^ w then some (BitVec.ofNat w n) else none

/-- A character operand (R83): an ASCII character in single quotes, or a number. -/
def characterValue : List Char → Option Byte
  | ['\'', c, '\''] => if c.toNat < 128 then some (BitVec.ofNat 8 c.toNat) else none
  | cs => fieldValue 8 cs

/-- The thing of a list that a word names. -/
def named {α : Type} (name : α → String) (xs : List α) (cs : List Char) : Option α :=
  xs.find? (fun x => (name x).toList == cs)

/-- A signal word (R83): one of the six outputs. -/
def signalWord : List Char → Option Signal :=
  named signalName [.out .eeSel, .out .eeClk, .out .eeDout, .out .srClk, .out .srData, .out .srLatch]

/-- A level, 0 or 1 (R72). -/
def levelWord (cs : List Char) : Option Bool := (fieldValue 1 cs).map (· == 1)

/-- The instruction of a mnemonic and its operands (R83). -/
def instrOf (mnemonic : List Char) (ops : List (List Char)) : Option Instr :=
  if mnemonic = "PIN".toList then
    match ops with
    | [sig, level, hold] => do
      return .pin (← signalWord sig) (← levelWord level) (← named holdName [.none, .short, .srclk, .latch] hold)
    | _ => none
  else if mnemonic = "START".toList then if ops = [] then some .start else none
  else if mnemonic = "WBITS".toList then
    match ops with
    | [value, bitCount] => do return .wbits (← fieldValue 16 value) (← fieldValue 5 bitCount)
    | _ => none
  else if mnemonic = "RWORD".toList then if ops = [] then some .rword else none
  else if mnemonic = "RDAT".toList then
    match ops with
    | [address] => do return .rdat (← fieldValue 9 address)
    | _ => none
  else if mnemonic = "RDRNG".toList then
    match ops with
    | [first, last] => do return .rdrng (← fieldValue 9 first) (← fieldValue 9 last)
    | _ => none
  else if mnemonic = "SHIFT".toList then
    match ops with
    | [value, dir] => do return .shift (← fieldValue 8 value) (← named dirName [.msb, .lsb] dir)
    | _ => none
  else if mnemonic = "LATCH".toList then if ops = [] then some .latch else none
  else if mnemonic = "CASC".toList then
    match ops with
    | [byte0, byte1] => do return .casc (← fieldValue 8 byte0) (← fieldValue 8 byte1)
    | _ => none
  else if mnemonic = "RENDER".toList then
    match ops with
    | [ptr] => do return .render (← fieldValue 16 ptr)
    | _ => none
  else none

/-- The command words of one line (R83, R84); none where the line is neither form. The operand of `FIND` may be a quoted
comma or blank, so it is not cut at commas. -/
def assemble (line : String) : Option (List CmdWord) :=
  let cs := trimBlanks line.toList
  let mnemonic := cs.takeWhile (· ≠ ' ')
  let rest := trimBlanks (cs.drop mnemonic.length)
  if cs = "BLANK".toList then some (blankPseudo.map encode)
  else if cs = "RELEASE".toList then some (releasePseudo.map encode)
  else if mnemonic = "FIND".toList then (characterValue rest).map (fun c => [encode (.find c)])
  else
    (instrOf mnemonic (if rest = [] then [] else (piecesAt ',' rest).map trimBlanks)).map (fun i => [encode i])

end Sys2Proof.Machine
end

