-- ==== Sys2Proof/Machine/Flags.lean ====
section
/-! DEFINITION. The only flags the engine has: the two bits of `STATUS`, a view of `SEQ` (spec/10_state.md R30). No operation
computes a condition code. -/

namespace Sys2Proof.Machine

/-- `STATUS.BUSY` is 1 exactly when `SEQ = BUSY` (R30). -/
def State.busyFlag (s : State) : Bool := decide (s.seq = .busy)

/-- `STATUS.FAULT` is 1 exactly when `SEQ = HALT` (R30). -/
def State.faultFlag (s : State) : Bool := decide (s.seq = .halt)

/-- `STATUS` as the status port shows it (R30, R35): bit 0 `BUSY`, bit 1 `FAULT`, the rest zero. -/
def State.status (s : State) : BitVec 32 :=
  0#30 ++ BitVec.ofBool s.faultFlag ++ BitVec.ofBool s.busyFlag

end Sys2Proof.Machine
end

