-- ==== Sys2Proof/Machine/Ports.lean ====
section
/-! DEFINITION. The output ports as views of the state (spec/10_state.md R34 to R36). Reading one has no side effect. -/

namespace Sys2Proof.Machine

/-- `PIN[5..0]` by signal code (R20, R35). -/
def Pins.bits (p : Pins) : BitVec 6 :=
  BitVec.ofBool p.srLatch ++ BitVec.ofBool p.srData ++ BitVec.ofBool p.srClk
    ++ BitVec.ofBool p.eeDout ++ BitVec.ofBool p.eeClk ++ BitVec.ofBool p.eeSel

/-- The level of `EE_DIN` a host sees in `PINS[6]`: the reference device's where it determines it, else a free value
(R35, R93; log entry 20). -/
def State.liveLevel (s : State) : Bool := s.deviceLevel.getD (Config.freeLevel s.draws)

/-- The status read port (R35): the register `reg_sel` selects, zero-extended. -/
def State.regQ (s : State) (regSel : BitVec 3) : BitVec 32 :=
  match regSel.toNat with
  | 0 => s.status
  | 1 => s.result.setWidth 32
  | 2 => s.faddr.setWidth 32
  | 3 => s.fcause.setWidth 32
  | 4 => s.finfo
  | 5 => s.txtptr.setWidth 32
  | 6 => 0#25 ++ BitVec.ofBool s.liveLevel ++ s.pins.bits
  | _ => 0

/-- The column-buffer read port (R36). -/
def State.cbufQ (s : State) (idx : BitVec 8) : Byte := s.cbufRead idx.toNat

/-- `cmd_ready` is 1 exactly when `SEQ = IDLE` (R34, R80). -/
def State.cmdReady (s : State) : Bool := decide (s.seq = .idle)

/-- `txt_addr` equals `TXTPTR` (R34). -/
def State.txtAddr (s : State) : TxtAddr := s.txtptr

/-- `res_data` is `RESULT` (R34). -/
def State.resData (s : State) : Word := s.result

/-! ### The trace as the rules count it -/

/-- The units a trace takes at least: the sum of its settles (R6, R187). -/
def minUnits (t : List Event) : Nat :=
  (t.map (fun e => match e with | .settle d => d.units | _ => 0)).sum

/-- The words of the result strobe, in order (R24). -/
def resultsOf (t : List Event) : List Word :=
  t.filterMap (fun e => match e with | .result w => some w | _ => none)

/-- The levels sampled, in order (R11). -/
def samplesOf (t : List Event) : List Bool :=
  t.filterMap (fun e => match e with | .sample b => some b | _ => none)

/-- The pin writes, in order (R11). -/
def drivesOf (t : List Event) : List (Pin × Bool) :=
  t.filterMap (fun e => match e with | .drive p v => some (p, v) | _ => none)

/-- The settles, in order (R11). -/
def settlesOf (t : List Event) : List Duration :=
  t.filterMap (fun e => match e with | .settle d => some d | _ => none)

/-- The text reads, in order (R11). -/
def txtReadsOf (t : List Event) : List (TxtAddr × Byte) :=
  t.filterMap (fun e => match e with | .txtRead a c => some (a, c) | _ => none)

/-- The level of the data pin at each rising edge of the clock pin, when the pins were `p` before (R77, R79). -/
def edgeBits (clk data : Pin) : Pins → List (Pin × Bool) → List Bool
  | _, [] => []
  | p, (sig, v) :: rest =>
    (if sig = clk ∧ p.rises sig v = true then [(p.set sig v).get data] else [])
      ++ edgeBits clk data (p.set sig v) rest

end Sys2Proof.Machine
end

