-- ==== Sys2Proof/Safety/Traces.lean ====
section
/-! DEFINITION. The traces the rules give the operations, as event lists written from the rules and not from the model's
pseudocode lists, and the lookup and the renderer at the level of words (spec/41_eeprom.md, spec/42_shiftreg.md,
spec/43_renderer.md). The claims compare the machine with these. -/

namespace Sys2Proof.Machine

/-! ### Bits on the wires -/

/-- The low `n` bits of `v`, most significant first: what `writeBits(v, n)` sends (R101). -/
def msbBits (v : Word) : Nat → List Bool
  | 0 => []
  | i + 1 => v.getLsbD i :: msbBits v i

/-- The eight bits of a byte, least significant first (R120, `LSB`). -/
def lsbFirst (v : Byte) : List Bool :=
  [v.getLsbD 0, v.getLsbD 1, v.getLsbD 2, v.getLsbD 3, v.getLsbD 4, v.getLsbD 5, v.getLsbD 6, v.getLsbD 7]

/-- The eight bits of a byte, most significant first (R120, `MSB`). -/
def msbFirst (v : Byte) : List Bool := (lsbFirst v).reverse

/-! ### Traces of the EEPROM driver -/

/-- `startCondition()` (R100, spec/95_test_vectors.md V18). -/
def startTrace : List Event :=
  [.drive .eeSel false, .drive .eeClk false, .drive .eeDout false, .settle .short, .drive .eeSel true, .settle .short,
   .drive .eeDout true, .settle .short, .drive .eeClk true, .settle .short, .drive .eeClk false]

/-- `writeBits` sending `bits` (R101). -/
def sendTrace (bits : List Bool) : List Event :=
  bits.flatMap (fun b => [.drive .eeDout b, .settle .short, .drive .eeClk true, .settle .short, .drive .eeClk false])
    ++ [.drive .eeDout false]

/-- The sixteen samples of `readWord` when the levels sampled are `bits` (R102). -/
def sampleTrace (bits : List Bool) : List Event :=
  bits.flatMap (fun b => [.drive .eeClk false, .settle .short, .sample b, .drive .eeClk true, .settle .short])

/-- `readWord()` returning `w` (R102): sixteen samples, most significant first, then the result. -/
def readTrace (w : Word) : List Event := sampleTrace (msbBits w 16) ++ [.result w]

/-- The READ frame for an address (R77): start, opcode, nine address bits. -/
def frameTrace (a : EeAddr) : List Event :=
  startTrace ++ sendTrace [Config.config.readOpcode.getLsbD 1, Config.config.readOpcode.getLsbD 0]
    ++ sendTrace (msbBits (zext16 a) 9)

/-- `readWordAt(a)` returning `w` (R103). -/
def readAtTrace (a : EeAddr) (w : Word) : List Event :=
  frameTrace a ++ readTrace w ++ [.settle .postread, .drive .eeSel false, .drive .eeDout false]

/-! ### Traces of the shift-register driver -/

/-- `shiftByte` sending `bits` (R120). -/
def shiftTrace (bits : List Bool) : List Event :=
  bits.flatMap (fun b => [.drive .srData b, .drive .srClk true, .settle .srclk, .drive .srClk false, .settle .srclk])

/-- `commitLatch()` (R121). -/
def latchTrace : List Event := [.drive .srLatch true, .settle .latch, .drive .srLatch false]

/-- `writeCascade(byte0, byte1)` (R122). -/
def cascadeTrace (byte0 byte1 : Byte) : List Event :=
  shiftTrace (lsbFirst byte1) ++ shiftTrace (lsbFirst byte0) ++ latchTrace

/-- One slot of the refresh (R132 step 4): column, short settle, blank. -/
def columnTrace (cbuf : Memory) (slot : Nat) : List Event :=
  cascadeTrace (~~~(Memory.read cbuf slot)) (BitVec.twoPow 8 slot) ++ [.settle .short] ++ cascadeTrace 0 0

/-- The whole refresh of one character (R136): 32 passes of 8 slots. -/
def refreshTrace (cbuf : Memory) : List Event :=
  (List.replicate 32 ((List.range 8).flatMap (columnTrace cbuf))).flatten

/-! ### The lookup at the level of words (R130, R131) -/

/-- The metadata word of slot `i` (R52). -/
def slotWord (ee : List (Nat × Word)) (i : Nat) : Word := eeRead ee (BitVec.ofNat 9 (10 * i))

/-- The first slot, in ascending order, whose low byte is `c` (R130). -/
def firstSlot (ee : List (Nat × Word)) (c : Byte) : Option Nat :=
  (List.range 37).find? (fun i => lowByte (slotWord ee i) == c)

/-- The value the lookup returns: the slot's address, or the sentinel 5 (R130). -/
def lookupAddr (ee : List (Nat × Word)) (c : Byte) : Word :=
  match firstSlot ee c with
  | some i => BitVec.ofNat 16 (10 * i)
  | none => 5

/-- How many slots the lookup reads: up to the match, or all 37 (R130). -/
def slotsRead (ee : List (Nat × Word)) (c : Byte) : Nat :=
  match firstSlot ee c with
  | some i => i + 1
  | none => 37

/-- The trace of slots read in ascending order from slot `idx`, returning the words `ws` (R130). -/
def scanTrace : Nat → List Word → List Event
  | _, [] => []
  | idx, w :: ws => readAtTrace (BitVec.ofNat 9 (10 * idx)) w ++ scanTrace (idx + 1) ws

/-- The trace of the lookup: its slots' metadata words, in order (R130). -/
def findTrace (ee : List (Nat × Word)) (c : Byte) : List Event :=
  scanTrace 0 ((List.range (slotsRead ee c)).map (slotWord ee))

/-! ### The renderer at the level of words (R132, R135) -/

/-- The bitmap word of columns `2k` and `2k + 1` of the record at `addr` (R52, R57). -/
def bitmapWord (ee : List (Nat × Word)) (addr : Word) (k : Nat) : Word :=
  eeRead ee ((addr + BitVec.ofNat 16 (2 * k + 2)).setWidth 9)

/-- The column load with count `cc` (R135): words `0` to `cc / 2`, each into two entries, low byte first. -/
def loadColumns (ee : List (Nat × Word)) (addr : Word) (cc : Byte) (cbuf : Memory) : Memory :=
  (List.range (cc.toNat / 2 + 1)).foldl
    (fun m k => Memory.write (Memory.write m (2 * k) (lowByte (bitmapWord ee addr k))) (2 * k + 1)
      (highByte (bitmapWord ee addr k))) cbuf

/-- The trace of the column load (R135). -/
def loadTrace (ee : List (Nat × Word)) (addr : Word) (cc : Byte) : List Event :=
  (List.range (cc.toNat / 2 + 1)).flatMap
    (fun k => readAtTrace ((addr + BitVec.ofNat 16 (2 * k + 2)).setWidth 9) (bitmapWord ee addr k))

/-- What RENDER keeps from one character to the next, and what it has shown. -/
structure Rendered where
  cbuf : Memory
  faddr : Word
  result : Word
  events : List Event
  deriving DecidableEq, Repr

/-- One character of RENDER after it was read (R132 steps 1 to 4, R134): a miss is skipped, a hit is loaded and shown. -/
def renderChar (ee : List (Nat × Word)) (r : Rendered) (c : Byte) : Rendered :=
  match firstSlot ee c with
  | none => ⟨r.cbuf, 5, slotWord ee 36, r.events ++ findTrace ee c⟩
  | some i =>
    let cc := highByte (slotWord ee i)
    let addr := BitVec.ofNat 16 (10 * i)
    let cbuf := loadColumns ee addr cc r.cbuf
    ⟨cbuf, addr, bitmapWord ee addr (cc.toNat / 2),
      r.events ++ findTrace ee c ++ readAtTrace (BitVec.ofNat 9 (10 * i)) (slotWord ee i) ++ loadTrace ee addr cc
        ++ refreshTrace cbuf⟩

/-- A whole text from address `ptr` on (R132): each character is read once, then rendered; the terminator is read once
(R133). -/
def renderText (ee : List (Nat × Word)) : TxtAddr → List Byte → Rendered → Rendered
  | ptr, [], r => { r with events := r.events ++ [.txtRead ptr Config.config.term] }
  | ptr, c :: rest, r => renderText ee (ptr + 1) rest (renderChar ee { r with events := r.events ++ [.txtRead ptr c] } c)

/-- The least units one character of RENDER takes (R138, R187): a found one its reads and its refresh, any other the 37 reads
of the failed scan. -/
def charUnits (ee : List (Nat × Word)) (c : Byte) : Nat :=
  match firstSlot ee c with
  | none => 372146
  | some i => 10058 * (i + 3 + (highByte (slotWord ee i)).toNat / 2) + 87296

end Sys2Proof.Machine
end

