-- ==== Sys2Proof/Safety.lean ====
section
/-! DEFINITION. What the claims are stated in: the frames of the two buses, the invariant every step keeps, and what it means
for a text to have a terminator. -/

namespace Sys2Proof.Machine

/-! ### The command table -/

/-- A row of the table of R71. -/
structure Row where
  mnemonic : String
  mtch : CmdWord
  mask : CmdWord
  deriving DecidableEq, Repr

/-- The table of spec/30_encoding.md R71. -/
def commandRows : List Row :=
  [⟨"PIN", 0x10000000, 0xFFFFFFC0⟩, ⟨"START", 0x20000000, 0xFFFFFFFF⟩, ⟨"WBITS", 0x30000000, 0xFFE00000⟩,
   ⟨"RWORD", 0x40000000, 0xFFFFFFFF⟩, ⟨"RDAT", 0x50000000, 0xFFFFFE00⟩, ⟨"RDRNG", 0x60000000, 0xFE00FE00⟩,
   ⟨"SHIFT", 0x70000000, 0xFFFFFE00⟩, ⟨"LATCH", 0x80000000, 0xFFFFFFFF⟩, ⟨"CASC", 0x90000000, 0xFFFF0000⟩,
   ⟨"FIND", 0xA0000000, 0xFFFFFF00⟩, ⟨"RENDER", 0xB0000000, 0xFFFF0000⟩]

/-- `(cmd & mask) = match` (R71). -/
def Row.holds (r : Row) (cmd : CmdWord) : Prop := cmd &&& r.mask = r.mtch

/-- `PIN` with `sig` 6 or 7 (R75). -/
def pinOfNoOutput (cmd : CmdWord) : Prop := cmd &&& 0xFFFFFFC0 = 0x10000000 ∧ 6 ≤ (cmd.extractLsb' 0 3).toNat

/-- `WBITS` with `bitCount` 0 or 17..31 (R75). -/
def wbitsOfBadCount (cmd : CmdWord) : Prop :=
  cmd &&& 0xFFE00000 = 0x30000000 ∧ ((cmd.extractLsb' 16 5).toNat = 0 ∨ 17 ≤ (cmd.extractLsb' 16 5).toNat)

/-- Commands one after another, each accepted when the one before has completed (R80). -/
def execAll : List Instr → State → Host.Outcome State Fault Refusal
  | [], s => .next s
  | i :: rest, s =>
    match exec i s with
    | .next t => execAll rest t
    | .fault f => .fault f
    | .refused r => .refused r

/-! ### Frames -/

/-- Nothing but the EEPROM's wires, RESULT, the sampling and the control state differ: the registers, buffers, memories,
cascade pins and cascade of `t` are those of `s` (spec/10_state.md R38). -/
structure OnlyEepromBus (s t : State) : Prop where
  srClk : t.pins.srClk = s.pins.srClk
  srData : t.pins.srData = s.pins.srData
  srLatch : t.pins.srLatch = s.pins.srLatch
  faddr : t.faddr = s.faddr
  cbuf : t.cbuf = s.cbuf
  txtptr : t.txtptr = s.txtptr
  fcause : t.fcause = s.fcause
  finfo : t.finfo = s.finfo
  resetSeen : t.resetSeen = s.resetSeen
  chain : t.chain = s.chain
  out : t.out = s.out
  txt : t.txt = s.txt
  ee : t.ee = s.ee
  eeRef : t.eeRef = s.eeRef
  host : t.host = s.host
  look : t.look = s.look

/-- Nothing but the cascade's wires, the cascade and the control state differ: the registers, buffers, memories, EEPROM
pins, EEPROM and inputs of `t` are those of `s` (R38). -/
structure OnlyCascadeBus (s t : State) : Prop where
  eeSel : t.pins.eeSel = s.pins.eeSel
  eeClk : t.pins.eeClk = s.pins.eeClk
  eeDout : t.pins.eeDout = s.pins.eeDout
  result : t.result = s.result
  faddr : t.faddr = s.faddr
  cbuf : t.cbuf = s.cbuf
  txtptr : t.txtptr = s.txtptr
  fcause : t.fcause = s.fcause
  finfo : t.finfo = s.finfo
  work : t.work = s.work
  resetSeen : t.resetSeen = s.resetSeen
  eeprom : t.eeprom = s.eeprom
  txt : t.txt = s.txt
  ee : t.ee = s.ee
  eeRef : t.eeRef = s.eeRef
  din : t.din = s.din
  draws : t.draws = s.draws
  host : t.host = s.host
  look : t.look = s.look

/-- What RENDER may not touch (R38): the fault registers, the memories outside and the inputs that are not samples. -/
structure RenderFrame (s t : State) : Prop where
  fcause : t.fcause = s.fcause
  finfo : t.finfo = s.finfo
  resetSeen : t.resetSeen = s.resetSeen
  txt : t.txt = s.txt
  ee : t.ee = s.ee
  eeRef : t.eeRef = s.eeRef
  host : t.host = s.host
  look : t.look = s.look

/-- The cascade and its wires are as they were (R134: a miss leaves the display alone). -/
structure SameDisplay (s t : State) : Prop where
  srClk : t.pins.srClk = s.pins.srClk
  srData : t.pins.srData = s.pins.srData
  srLatch : t.pins.srLatch = s.pins.srLatch
  chain : t.chain = s.chain
  out : t.out = s.out

/-- The display is blank and its wires are low, as the blanking write leaves them (R134, R136). -/
structure BlankDisplay (t : State) : Prop where
  srClk : t.pins.srClk = false
  srData : t.pins.srData = false
  srLatch : t.pins.srLatch = false
  chain : t.chain = 0
  out : t.out = 0

/-- The bus is released: select low, data low, the clock left high (spec/41_eeprom.md R105). -/
structure Released (t : State) : Prop where
  sel : t.pins.eeSel = false
  clk : t.pins.eeClk = true
  dout : t.pins.eeDout = false

/-- What RENDER has made so far: the column buffer, FADDR, RESULT and the trace. -/
def State.rendered (s : State) : Rendered := ⟨s.cbuf, s.faddr, s.result, s.trace⟩

/-- A command of `s` completed in `t` (R81): idle, nothing left to do, `done` pulses, no text held. -/
structure Completed (t : State) : Prop where
  seq : t.seq = .idle
  todo : t.todo = []
  done : t.done = true
  textBase : t.textBase = none

/-! ### The invariant -/

/-- A value the lookup can leave in FADDR (spec/10_state.md R25): 0, 10, ..., 360, or the sentinel 5. -/
def lookupValue (a : Word) : Bool := a == 5 || (List.range 37).any (fun i => a == BitVec.ofNat 16 (10 * i))

/-- A micro-operation a command can hold: indices inside the table, the buffer and the word (R32, R135). -/
def Micro.legal : Micro → Bool
  | .drive _ _ => true
  | .settle _ => true
  | .clearWord => true
  | .sample i => decide (i < 16)
  | .result => true
  | .unpack j => decide (j + 1 < 256)
  | .setTxtptr _ => true
  | .fetch => true
  | .scanTest _ idx _ => decide (idx < 37)
  | .metaTest addr => lookupValue addr && addr != 5
  | .showCol slot => decide (slot < 8)
  | .nextChar => true

/-- The fault registers (R31, R151): cause 0 exactly when not halted, and then no word recorded; else one of the two codes. -/
def faultRegsOk (s : State) : Bool :=
  match s.seq with
  | .idle => s.fcause == 0 && s.finfo == 0
  | .busy => s.fcause == 0 && s.finfo == 0
  | .halt => s.fcause == 1 || s.fcause == 2

/-- What holds of the machine after reset and after every step. -/
structure Inv (s : State) : Prop where
  /-- TXT is in canonical form (R53) -/
  txt : Memory.wf 65536 s.txt = true
  /-- CBUF is in canonical form, no index beyond its 256 entries (R26, R135) -/
  cbuf : Memory.wf 256 s.cbuf = true
  /-- FADDR holds a record base address or the sentinel (R25) -/
  faddr : lookupValue s.faddr = true
  /-- a command is in progress exactly when BUSY (R29) -/
  control : s.todo = [] ↔ s.seq ≠ .busy
  /-- what is left of it is legal (R32) -/
  legal : s.todo.all Micro.legal = true
  /-- the fault registers agree with SEQ (R31, R151, R156) -/
  faults : faultRegsOk s = true
  /-- a text is held only while a command runs (R67) -/
  text : s.textBase ≠ none → s.seq = .busy
  /-- the reference EEPROM is in IDLE whenever it is deselected (R56) -/
  deselected : s.pins.eeSel = false → s.eeprom.phase = .idle
  /-- its frame is shorter than a whole one until it has decided, and its bit counter stays within the word (R56) -/
  device : (s.eeprom.phase = .cmd → s.eeprom.sh.length < 11) ∧ s.eeprom.q ≤ 16

/-! ### Texts -/

/-- The bytes of TXT from `ptr` on are `cs`, none of them the terminator, and then the terminator; the text fits TXT
(R53, R133). -/
def State.HoldsText (s : State) (ptr : TxtAddr) (cs : List Byte) : Prop :=
  cs.length < 65536 ∧ (∀ k, k < cs.length → s.txtRead (ptr + BitVec.ofNat 16 k) = cs.getD k 0) ∧
  (∀ c ∈ cs, c ≠ Config.config.term) ∧ s.txtRead (ptr + BitVec.ofNat 16 cs.length) = Config.config.term

/-- No byte of TXT is the terminator (R133, R184). -/
def State.NoTerminator (s : State) : Prop := ∀ a : TxtAddr, s.txtRead a ≠ Config.config.term

/-- A RENDER is running: BUSY, and the last thing left to do is one of its control points (R137). -/
def State.Rendering (s : State) : Prop :=
  s.seq = .busy ∧ ∃ pre m, s.todo = pre ++ [m] ∧
    (m = .fetch ∨ m = .nextChar ∨ (∃ c idx, m = .scanTest c idx true) ∨ ∃ addr, m = .metaTest addr)

end Sys2Proof.Machine
end

