-- ==== Sys2Proof/Certificates/Slice0/Obligations.lean ====
section
/-! DEFINITION. The statements for the provers. `look = none` says that nobody looks into the running command (log entry 4);
"any samples" says that nothing is assumed of what answers `EE_DIN`. -/

open Sys2Proof Sys2Proof.Machine

/-! ### Encoding (spec/30_encoding.md) -/

/-- Every legal instruction's word (or frame bits) decodes to it, at every value of every operand. -/
def Obligations.DecodeOfEncodeIsTheInstruction : Prop :=
  ∀ i : Instr, i.wf = true → decodeTableWord i.bits (encode i).toNat = some i

/-- A word that decodes to a command is that command's word: no word has two meanings and no bit is ignored. -/
def Obligations.EncodeOfDecodeIsTheWord : Prop :=
  ∀ (w : CmdWord) (i : Instr), decode w = .command i → encode i = w ∧ i.wf = true ∧ i.isCommand = true

/-- A word is a command of a row exactly when `(cmd & mask) = match` and neither exclusion of R75 holds (R71). -/
def Obligations.CommandExactlyWhenItsRowMatches : Prop :=
  ∀ (w : CmdWord) (r : Row), r ∈ commandRows →
    ((∃ i, decode w = .command i ∧ i.mnemonic = r.mnemonic) ↔
      r.holds w ∧ ¬ pinOfNoOutput w ∧ ¬ wbitsOfBadCount w)

/-- A word is illegal exactly when no row matches it or it is a `PIN` of no output (R74, R75, R85). -/
def Obligations.IllegalExactlyWhenNoRowMatches : Prop :=
  ∀ w : CmdWord, decode w = .illegalCmd ↔ (∀ r ∈ commandRows, ¬ r.holds w) ∨ pinOfNoOutput w

/-- A word has a bad bit count exactly when it is a `WBITS` word, must-be-zero bits and all, with `bitCount` 0 or 17..31
(R75, R85, R157). -/
def Obligations.BadBitCountExactlyForWbits : Prop :=
  ∀ w : CmdWord, decode w = .badBitCount ↔ wbitsOfBadCount w

/-- Words of spec/95_test_vectors.md section 3.1 and of R83, one of each command. -/
def Obligations.SpecWordsDecodeAsWritten : Prop :=
  decode 0x10000018 = .command (.pin (.out .eeSel) true .short) ∧
  decode 0x1000003D = .command (.pin (.out .srLatch) true .latch) ∧
  decode 0x20000000 = .command .start ∧
  decode 0x30108001 = .command (.wbits 0x8001 16) ∧
  decode 0x40000000 = .command .rword ∧
  decode 0x500001FF = .command (.rdat 511) ∧
  decode 0x6022001E = .command (.rdrng 30 34) ∧
  decode 0x700001B1 = .command (.shift 0xB1 .lsb) ∧
  decode 0x80000000 = .command .latch ∧
  decode 0x90008000 = .command (.casc 0x00 0x80) ∧
  decode 0xA0000041 = .command (.find 0x41) ∧
  decode 0xB000FFFF = .command (.render 0xFFFF) ∧
  decode 0x30001234 = .badBitCount ∧
  decode 0x30200001 = .illegalCmd ∧
  decode 0x00000000 = .illegalCmd ∧
  decode 0xFFFFFFFF = .illegalCmd

/-- The example texts of R83 stand for the words beside them, and the two pseudo-commands of R84 for theirs. -/
def Obligations.SpecTextsAssembleAsWritten : Prop :=
  assemble "PIN SR_LATCH, 1, LATCH" = some [0x1000003D] ∧
  assemble "START" = some [0x20000000] ∧
  assemble "WBITS 30, 9" = some [0x3009001E] ∧
  assemble "RWORD" = some [0x40000000] ∧
  assemble "RDAT 30" = some [0x5000001E] ∧
  assemble "RDRNG 30, 34" = some [0x6022001E] ∧
  assemble "SHIFT 0xB1, LSB" = some [0x700001B1] ∧
  assemble "LATCH" = some [0x80000000] ∧
  assemble "CASC 0xED, 0x01" = some [0x900001ED] ∧
  assemble "FIND 'A'" = some [0xA0000041] ∧
  assemble "RENDER 0x0100" = some [0xB0000100] ∧
  assemble "BLANK" = some [0x90000000] ∧
  assemble "RELEASE" = some [0x10000000, 0x10000002]

/-! ### The step (spec/30_encoding.md R80, R81; spec/60_exceptions.md; spec/70_reset_and_hazards.md) -/

/-- A word presented to the idle engine runs the command it decodes to (R80). What the step adds is the model's choice (log
entries 2 and 3): the host's inputs move on and its writes to TXT land first. -/
def Obligations.StepRunsTheDecodedCommand : Prop :=
  ∀ (s : State) (w : CmdWord) (i : Instr), s.resetSeen = true → s.hostIn.rst = false → s.seq = .idle →
    s.breaksText s.hostIn.txt = false → s.hostIn.cmd = some w → decode w = .command i →
    step s = exec i (s.takeInput.hostWrites s.hostIn.txt)

/-- A step with nothing presented leaves the idle engine as it is, and a step of the busy one goes on with its command; when
that has no micro-operation left the command completes, which writes SEQ, pulses `done` and changes nothing else the command
left (R81). How far one step goes is the model's choice (log entries 2 and 4). -/
def Obligations.StepWithoutCommandWaitsOrGoesOn : Prop :=
  ∀ s : State, s.resetSeen = true → s.hostIn.rst = false → s.breaksText s.hostIn.txt = false →
    (s.seq = .idle → s.hostIn.cmd = none → step s = .next (s.takeInput.hostWrites s.hostIn.txt)) ∧
    (s.seq = .busy → ∃ t, step s = .next t ∧
      (((runTicks (s.hostIn.look.getD fullRun) (s.takeInput.hostWrites s.hostIn.txt)).todo = [] →
         t = (runTicks (s.hostIn.look.getD fullRun) (s.takeInput.hostWrites s.hostIn.txt)).complete ∧ Completed t) ∧
       ((runTicks (s.hostIn.look.getD fullRun) (s.takeInput.hostWrites s.hostIn.txt)).todo ≠ [] →
         t = runTicks (s.hostIn.look.getD fullRun) (s.takeInput.hostWrites s.hostIn.txt) ∧ t.seq = .busy)))

/-- A word presented while the engine is busy or halted has no effect: the step is the same whatever the word (R80). -/
def Obligations.WordPresentedWhileNotIdleHasNoEffect : Prop :=
  ∀ (s : State) (h : HostIn) (rest : List HostIn) (c : Option CmdWord), s.seq ≠ .idle → s.host = h :: rest →
    step { s with host := { h with cmd := c } :: rest } = step s

/-- Fault entry (R154): a word that is no command, accepted by the idle engine, writes FCAUSE, FINFO and SEQ and nothing
else; the `fault` output goes to 1 and stays until reset. -/
def Obligations.FaultEntryWritesThreeRegisters : Prop :=
  ∀ (s : State) (w : CmdWord), s.resetSeen = true → s.hostIn.rst = false → s.seq = .idle →
    s.breaksText s.hostIn.txt = false → s.hostIn.cmd = some w →
    (decode w = .illegalCmd → step s = .next { s.takeInput.hostWrites s.hostIn.txt with
      fcause := 1, finfo := w, seq := .halt }) ∧
    (decode w = .badBitCount → step s = .next { s.takeInput.hostWrites s.hostIn.txt with
      fcause := 2, finfo := w, seq := .halt }) ∧
    (∀ t, step s = .next t → (decode w = .illegalCmd ∨ decode w = .badBitCount) →
      t.faultFlag = true ∧ t.busyFlag = false ∧ t.cmdReady = false ∧ t.done = false ∧
      ∀ u, step t = .next u → t.hostIn.rst = false → u.faultFlag = true)

/-- In HALT no command is accepted, the pins hold, the ports go on working (`PINS[6]`, a free level, is left out; log entry
20) and the fault registers keep the first fault; reset leaves it and clears them (R156). -/
def Obligations.HaltIsLeftOnlyByReset : Prop :=
  ∀ s : State, s.seq = .halt →
    s.cmdReady = false ∧ s.faultFlag = true ∧
    (s.hostIn.rst = true → ∃ t, step s = .next t ∧ t.seq = .idle ∧ t.fcause = 0 ∧ t.finfo = 0) ∧
    (s.hostIn.rst = false → s.resetSeen = true → s.breaksText s.hostIn.txt = false → ∃ t, step s = .next t) ∧
    (s.hostIn.rst = false → ∀ t, step s = .next t →
      t = s.takeInput.hostWrites s.hostIn.txt ∧ t.seq = .halt ∧ t.fcause = s.fcause ∧ t.finfo = s.finfo ∧
        t.pins = s.pins ∧ (∀ r : BitVec 3, r ≠ 6 → t.regQ r = s.regQ r) ∧ ∀ j, t.cbufQ j = s.cbufQ j)

/-- FCAUSE and FINFO are written only by taking a fault and by reset (R31). -/
def Obligations.FaultRegistersChangeOnlyByFaultOrReset : Prop :=
  ∀ s t : State, step s = .next t → s.hostIn.rst = false → (t.fcause ≠ s.fcause ∨ t.finfo ≠ s.finfo) →
    s.seq = .idle ∧ t.seq = .halt ∧ ∃ w, s.hostIn.cmd = some w ∧ t.finfo = w ∧
      ((decode w = .illegalCmd ∧ t.fcause = 1) ∨ (decode w = .badBitCount ∧ t.fcause = 2))

/-- Reset, in any state and anywhere inside a command: every piece of engine state takes the value of the table of R37, the
external devices are not set, but for the phase of the reference EEPROM, which its dropped select puts in IDLE (R171), and
the trace is fresh (R170). -/
def Obligations.ResetGivesEveryRegisterItsValue : Prop :=
  Config.config.mask = [1, 2, 4, 8, 16, 32, 64, 128] ∧
  ∀ s : State, s.hostIn.rst = true → ∃ t, step s = .next t ∧
    (∀ p : Pin, t.pins.get p = false) ∧ t.result = 0 ∧ t.faddr = 0 ∧ (∀ j, t.cbufRead j = 0) ∧ t.txtptr = 0 ∧
    t.seq = .idle ∧ t.fcause = 0 ∧ t.finfo = 0 ∧ t.todo = [] ∧ t.trace = [] ∧
    t.chain = s.chain ∧ t.out = s.out ∧ t.ee = s.ee ∧ t.eeprom = { s.eeprom with phase := .idle }

/-- Reset reaches no device: the cascade's chain and outputs, the EEPROM's words and TXT (but for what the host writes) are
as before; the reference EEPROM is deselected (R171, R173). -/
def Obligations.ResetReachesNoDevice : Prop :=
  ∀ s t : State, s.hostIn.rst = true → step s = .next t →
    t.chain = s.chain ∧ t.out = s.out ∧ t.ee = s.ee ∧ t.txt = (s.hostWrites s.hostIn.txt).txt ∧ t.eeprom.phase = .idle ∧
    t.done = false

/-- A step stops without a meaning exactly before the first reset and when the host changes the text of a running RENDER,
and it never faults (R67, R173). Which writes change the text is the model's reading (log entries 17 and 18). -/
def Obligations.StepRefusesExactlyWhereTheSpecGivesNoMeaning : Prop :=
  ∀ s : State,
    (∀ f, step s ≠ .fault f) ∧
    (step s = .refused .beforeFirstReset ↔ s.hostIn.rst = false ∧ s.resetSeen = false) ∧
    (step s = .refused .textChangedDuringRender ↔
      s.hostIn.rst = false ∧ s.resetSeen = true ∧ s.breaksText s.hostIn.txt = true) ∧
    (∀ m, step s ≠ .refused (.notModelled m))

/-- The invariant holds right after reset. -/
def Obligations.ResetStateMeetsTheInvariant : Prop := Inv State.reset

/-- Every step keeps the invariant: canonical memories, a legal FADDR, legal control state, fault registers that agree with
SEQ, and a reference EEPROM in IDLE while deselected. -/
def Obligations.StepKeepsTheInvariant : Prop :=
  ∀ s t : State, Inv s → step s = .next t → Inv t

/-- No step writes the EEPROM (R51). -/
def Obligations.NoStepWritesTheEeprom : Prop :=
  ∀ s t : State, step s = .next t → t.ee = s.ee ∧ t.eeRef = s.eeRef

/-- TXT changes only by the host's writes: the engine never writes it (R53). -/
def Obligations.OnlyTheHostWritesTheTextMemory : Prop :=
  ∀ s t : State, step s = .next t → t.txt = (s.hostWrites s.hostIn.txt).txt

/-- Without reset a step only appends to the trace: no event is reordered, merged or dropped (R64). -/
def Obligations.TraceOnlyGrows : Prop :=
  ∀ s t : State, step s = .next t → s.hostIn.rst = false → ∃ evs, t.trace = s.trace ++ evs

/-- RESULT is written only together with its strobe event (R23, R24). -/
def Obligations.ResultIsWrittenOnlyWithItsStrobe : Prop :=
  ∀ (m : Micro) (s : State), (perform m s).result ≠ s.result →
    (perform m s).trace = s.trace ++ [.result (perform m s).result]

/-- The cascade's outputs change only when `SR_LATCH` rises, all sixteen at once, to what the chain holds (R61, R66). -/
def Obligations.OutputsChangeOnlyAtTheLatchEdge : Prop :=
  ∀ (m : Micro) (s : State),
    (m = .drive .srLatch true ∧ s.pins.srLatch = false → (perform m s).out = s.chain) ∧
    (¬ (m = .drive .srLatch true ∧ s.pins.srLatch = false) → (perform m s).out = s.out)

/-- Who writes what (R38): whatever an instruction changed when it was stopped or had completed, it is one of the writers of
the register or pin that changed. The wire frames, which R38 does not list, are parts of `RDAT` and `CASC` (log entry 14). -/
def Obligations.StateChangesOnlyByItsWriters : Prop :=
  ∀ (i : Instr) (s t : State), exec i s = .next t →
    (t.cbuf ≠ s.cbuf ∨ t.txtptr ≠ s.txtptr → i.mnemonic = "RENDER") ∧
    (t.faddr ≠ s.faddr → i.mnemonic ∈ ["FIND", "RENDER"]) ∧
    (t.result ≠ s.result → i.mnemonic ∈ ["RWORD", "RDAT", "RDRNG", "FIND", "RENDER"]) ∧
    (t.pins.eeSel ≠ s.pins.eeSel ∨ t.pins.eeDout ≠ s.pins.eeDout →
      i.mnemonic ∈ ["PIN", "START", "WBITS", "RDAT", "RDRNG", "FIND", "RENDER", "EE_READ_FRAME"]) ∧
    (t.pins.eeClk ≠ s.pins.eeClk →
      i.mnemonic ∈ ["PIN", "START", "WBITS", "RWORD", "RDAT", "RDRNG", "FIND", "RENDER", "EE_READ_FRAME"]) ∧
    (t.pins.srClk ≠ s.pins.srClk ∨ t.pins.srData ≠ s.pins.srData →
      i.mnemonic ∈ ["PIN", "SHIFT", "CASC", "RENDER", "SR_CASCADE_FRAME"]) ∧
    (t.pins.srLatch ≠ s.pins.srLatch → i.mnemonic ∈ ["PIN", "LATCH", "CASC", "RENDER", "SR_CASCADE_FRAME"]) ∧
    (t.fcause ≠ s.fcause ∨ t.finfo ≠ s.finfo → t.seq = .halt)

/-- Looking into a running command (the model's device, log entry 4) does not change what it comes to: stopped after `n`
micro-operations and let go on, it ends as it does uninterrupted. -/
def Obligations.LookingInDoesNotChangeTheOutcome : Prop :=
  ∀ (i : Instr) (s t u : State) (n : Nat), s.look = none → exec i s = .next t → t.seq = .idle →
    exec i { s with look := some n } = .next u → u.seq = .busy → State.resume { u with look := none } = t

/-! ### `PIN` (spec/40_bit_io.md) -/

/-- `PIN` drives its pin, settles as its hold says and touches nothing else of the engine (R90). -/
def Obligations.PinDrivesItsSignal : Prop :=
  ∀ (p : Pin) (v : Bool) (hold : Hold) (s : State), s.look = none →
    ∃ t, exec (.pin (.out p) v hold) s = .next t ∧ Completed t ∧
      t.trace = s.trace ++ .drive p v :: (match hold with
        | .none => []
        | .short => [.settle .short]
        | .srclk => [.settle .srclk]
        | .latch => [.settle .latch]) ∧
      t.pins = s.pins.set p v ∧ t.result = s.result ∧ t.work = s.work ∧ t.din = s.din ∧ t.draws = s.draws ∧
      (p = .eeSel ∨ p = .eeClk ∨ p = .eeDout → OnlyEepromBus s t) ∧
      (p = .srClk ∨ p = .srData ∨ p = .srLatch → OnlyCascadeBus s t)

/-- `PIN` of `EE_DIN` takes the fault `ILLEGAL_CMD` with its word, before any drive (R75). That `exec` takes such a term and
records its encoding is the model's choice (log entry 15). -/
def Obligations.PinOfTheInputTakesIllegalCmd : Prop :=
  ∀ (v : Bool) (hold : Hold) (s : State), exec (.pin .eeDin v hold) s =
    .next { s with fcause := 1, finfo := encode (.pin .eeDin v hold), seq := .halt }

/-- Driving the level a pin already has makes no edge: no device changes (R11, R90). -/
def Obligations.DrivingTheSameLevelMakesNoEdge : Prop :=
  ∀ (p : Pin) (hold : Hold) (s : State), s.look = none → (s.pins.eeSel = false → s.eeprom.phase = .idle) →
    ∃ t, exec (.pin (.out p) (s.pins.get p) hold) s = .next t ∧ t.pins = s.pins ∧ t.chain = s.chain ∧ t.out = s.out ∧
      t.eeprom = s.eeprom

/-- `START`, `WBITS`, `SHIFT`, `LATCH` and `CASC` are reproduced by sequences of `PIN` commands, state and trace; an
operation that samples is not: `PIN` commands take no sample and `RWORD` takes sixteen (R94). -/
def Obligations.PinSequencesReproduceTheCompositeOperations : Prop :=
  (∀ (i : Instr) (s : State), s.look = none →
    (i = .start ∨ (∃ v n, i = .wbits v n ∧ bitCountOk n = true) ∨ (∃ v d, i = .shift v d) ∨ i = .latch ∨
      (∃ b0 b1, i = .casc b0 b1)) →
    ∃ (ps : List (Pin × Bool × Hold)) (t : State),
      execAll (ps.map (fun p => .pin (.out p.1) p.2.1 p.2.2)) s = .next t ∧ exec i s = .next t) ∧
  (∀ (ps : List (Pin × Bool × Hold)) (s t : State), s.look = none →
    execAll (ps.map (fun p => .pin (.out p.1) p.2.1 p.2.2)) s = .next t → samplesOf t.trace = samplesOf s.trace) ∧
  (∀ s : State, s.look = none → ∃ t, exec .rword s = .next t ∧
    (samplesOf t.trace).length = (samplesOf s.trace).length + 16)

/-! ### The EEPROM driver (spec/41_eeprom.md) -/

/-- `START`: the seven writes and four settles of R100, the three lines as it leaves them, nothing else touched; the
reference EEPROM has taken the start bit, whatever it held before (R56). -/
def Obligations.StartSendsTheStartCondition : Prop :=
  ∀ s : State, s.look = none → ∃ t, exec .start s = .next t ∧ Completed t ∧ t.trace = s.trace ++ startTrace ∧
    t.pins.eeSel = true ∧ t.pins.eeClk = false ∧ t.pins.eeDout = true ∧ t.result = s.result ∧ t.work = s.work ∧
    t.din = s.din ∧ t.draws = s.draws ∧ t.eeprom.phase = .cmd ∧ t.eeprom.sh = [] ∧ OnlyEepromBus s t

/-- `WBITS` with a legal count sends `value[bitCount-1]`, ..., `value[0]` and leaves clock and data low (R101). -/
def Obligations.WriteBitsSendsTheBits : Prop :=
  ∀ (v : Word) (n : BitVec 5) (s : State), s.look = none → 1 ≤ n.toNat → n.toNat ≤ 16 →
    ∃ t, exec (.wbits v n) s = .next t ∧ Completed t ∧ t.trace = s.trace ++ sendTrace (msbBits v n.toNat) ∧
      t.pins.eeSel = s.pins.eeSel ∧ t.pins.eeClk = false ∧ t.pins.eeDout = false ∧ t.result = s.result ∧
      t.work = s.work ∧ t.din = s.din ∧ t.draws = s.draws ∧ OnlyEepromBus s t

/-- `WBITS` with `bitCount` 0 or 17..31 takes the fault `BAD_BITCOUNT` with its word, before any drive (R75, R153); see log
entry 15. -/
def Obligations.WriteBitsOfBadCountTakesBadBitCount : Prop :=
  ∀ (v : Word) (n : BitVec 5) (s : State), n.toNat = 0 ∨ 17 ≤ n.toNat →
    exec (.wbits v n) s = .next { s with fcause := 2, finfo := encode (.wbits v n), seq := .halt }

/-- `RWORD`, any samples: sixteen of them make the word, most significant first, and RESULT takes it in one write; the
clock is left high (R102, R78). -/
def Obligations.ReadWordAssemblesItsSamples : Prop :=
  ∀ s : State, s.look = none → ∃ (t : State) (w : Word), exec .rword s = .next t ∧ Completed t ∧ t.result = w ∧
    t.trace = s.trace ++ readTrace w ∧ t.pins.eeClk = true ∧ t.pins.eeSel = s.pins.eeSel ∧
    t.pins.eeDout = s.pins.eeDout ∧ OnlyEepromBus s t

/-- `RWORD` with no device on the line reads the next sixteen input levels as the word (R8, R102). That the free samples are
a queue is the model's choice (log entry 7). -/
def Obligations.ReadWordTakesTheInputLevels : Prop :=
  ∀ (s : State) (w : Word) (rest : List Bool), s.look = none → s.eeRef = false → s.din = msbBits w 16 ++ rest →
    ∃ t, exec .rword s = .next t ∧ t.result = w ∧ t.din = rest ∧ t.draws = s.draws

/-- `RDAT`, any samples: one whole transaction, the word in RESULT, the bus released with the clock high (R103). -/
def Obligations.ReadWordAtIsOneTransaction : Prop :=
  ∀ (a : EeAddr) (s : State), s.look = none → ∃ (t : State) (w : Word), exec (.rdat a) s = .next t ∧ Completed t ∧ t.result = w ∧
    t.trace = s.trace ++ readAtTrace a w ∧ Released t ∧ OnlyEepromBus s t

/-- With the reference EEPROM on the wires `RDAT a` returns the word stored at `a`, bit by bit over the pins, and uses up no
input (R56). -/
def Obligations.ReadWordAtReturnsTheStoredWord : Prop :=
  ∀ (a : EeAddr) (s : State), s.look = none → s.eeRef = true →
    ∃ t, exec (.rdat a) s = .next t ∧ t.result = eeRead s.ee a ∧ t.trace = s.trace ++ readAtTrace a (eeRead s.ee a) ∧
      t.din = s.din ∧ t.draws = s.draws ∧ t.eeprom.phase = .idle

/-- `RDRNG`, any samples: the reads of the range in ascending order, or one at `start` when `end <= start`; RESULT holds the
last word (R104). -/
def Obligations.ReadRangeReadsEveryAddressInOrder : Prop :=
  ∀ (first last : EeAddr) (s : State), s.look = none →
    ∃ (t : State) (ws : List Word), exec (.rdrng first last) s = .next t ∧ Completed t ∧
      ws.length = (if first.toNat < last.toNat then last.toNat - first.toNat + 1 else 1) ∧
      t.trace = s.trace ++ (List.range ws.length).flatMap
        (fun k => readAtTrace (BitVec.ofNat 9 (first.toNat + k)) (ws.getD k 0)) ∧
      t.result = ws.getD (ws.length - 1) 0 ∧ Released t ∧ OnlyEepromBus s t

/-- With the reference EEPROM the strobed words of `RDRNG` are the stored words of the range, in order (R104, R24, R56). -/
def Obligations.ReadRangeStrobesTheStoredWords : Prop :=
  ∀ (first last : EeAddr) (s : State), s.look = none → s.eeRef = true →
    ∃ t, exec (.rdrng first last) s = .next t ∧
      resultsOf t.trace = resultsOf s.trace ++
        (List.range (if first.toNat < last.toNat then last.toNat - first.toNat + 1 else 1)).map
          (fun k => eeRead s.ee (BitVec.ofNat 9 (first.toNat + k))) ∧
      t.result = eeRead s.ee (if first.toNat < last.toNat then last else first)

/-- The READ frame is the first part of a transaction: its events, the device left selected with clock and data low, and the
control state as it was (R77; a frame is a sub-operation, log entry 14); with these twelve bits the reference EEPROM serves
the addressed word (R56). -/
def Obligations.ReadFrameAddressesTheWord : Prop :=
  ∀ (a : EeAddr) (s : State), ∃ t, exec (.eeReadFrame a) s = .next t ∧ t.trace = s.trace ++ frameTrace a ∧
    t.pins.eeSel = true ∧ t.pins.eeClk = false ∧ t.pins.eeDout = false ∧ t.result = s.result ∧ t.work = s.work ∧
    t.din = s.din ∧ t.draws = s.draws ∧ OnlyEepromBus s t ∧
    t.eeprom.phase = .data ∧ t.eeprom.word = eeRead s.ee a ∧ t.eeprom.q = 0 ∧
    t.seq = s.seq ∧ t.todo = s.todo ∧ t.done = s.done ∧ t.textBase = s.textBase

/-- The READ frame on the wire, whatever the lines held before: of the events the frame appends, the level of `EE_DOUT` at
the rising edges of `EE_CLK` is the start bit 1, the opcode, then the nine address bits, most significant first, and
`EE_SEL` is 1 at each of the twelve (R77). The opcode's value 0b10 is PRESUMED (log entry 10: R77 has it from general
knowledge). -/
def Obligations.ReadFrameBitsOnTheWire : Prop :=
  Config.config.readOpcode = 0b10#2 ∧
  ∀ (a : EeAddr) (s : State), ∃ (t : State) (evs : List Event), exec (.eeReadFrame a) s = .next t ∧
    t.trace = s.trace ++ evs ∧
    edgeBits .eeClk .eeDout s.pins (drivesOf evs) =
      [true, Config.config.readOpcode.getLsbD 1, Config.config.readOpcode.getLsbD 0, a.getLsbD 8, a.getLsbD 7, a.getLsbD 6,
        a.getLsbD 5, a.getLsbD 4, a.getLsbD 3, a.getLsbD 2, a.getLsbD 1, a.getLsbD 0] ∧
    edgeBits .eeClk .eeSel s.pins (drivesOf evs) = List.replicate 12 true

/-! ### The shift-register driver (spec/42_shiftreg.md) -/

/-- `SHIFT`: eight bits in the order of its direction, the data line left at the last, the clock low, the outputs untouched
(R120). -/
def Obligations.ShiftSendsEightBits : Prop :=
  ∀ (v : Byte) (dir : Direction) (s : State), s.look = none → ∃ t, exec (.shift v dir) s = .next t ∧ Completed t ∧
    t.trace = s.trace ++ shiftTrace (match dir with | .msb => msbFirst v | .lsb => lsbFirst v) ∧
    t.pins.srData = (match dir with | .msb => v.getLsbD 0 | .lsb => v.getLsbD 7) ∧ t.pins.srClk = false ∧
    t.pins.srLatch = s.pins.srLatch ∧ t.out = s.out ∧ OnlyCascadeBus s t

/-- The two directions are mirrors of each other: `SHIFT v, MSB` and `SHIFT reverse(v), LSB` do the same (R120). -/
def Obligations.ShiftDirectionsAreMirrors : Prop :=
  ∀ (v : Byte) (s : State), exec (.shift v .msb) s = exec (.shift v.reverse .lsb) s

/-- `LATCH`: one pulse; the outputs take the chain when the line was low, and nothing is latched when it was high
(R121). -/
def Obligations.LatchCopiesTheChain : Prop :=
  ∀ s : State, s.look = none → ∃ t, exec .latch s = .next t ∧ Completed t ∧ t.trace = s.trace ++ latchTrace ∧
    t.pins.srLatch = false ∧ t.pins.srClk = s.pins.srClk ∧ t.pins.srData = s.pins.srData ∧
    t.out = (if s.pins.srLatch = false then s.chain else s.out) ∧ t.chain = s.chain ∧ OnlyCascadeBus s t

/-- `CASC`: byte1, byte0, each least significant bit first, then the latch pulse; the lines as it leaves them (R122). -/
def Obligations.CascadeSendsByte1ThenByte0 : Prop :=
  ∀ (b0 b1 : Byte) (s : State), s.look = none → ∃ t, exec (.casc b0 b1) s = .next t ∧ Completed t ∧
    t.trace = s.trace ++ cascadeTrace b0 b1 ∧ t.pins.srData = b0.getLsbD 7 ∧ t.pins.srClk = false ∧
    t.pins.srLatch = false ∧ OnlyCascadeBus s t

/-- What the cascade holds (R123): after `CASC` with both clocks low on entry byte0 is near and byte1 far, each with its bit
7 next to the input, the outputs are the chain and nothing older remains; after a bare `SHIFT value, MSB` the near register
holds `CH[p] = value[p]`. -/
def Obligations.CascadeHoldsNearAndFarBytes : Prop :=
  (∀ (b0 b1 : Byte) (s : State), s.look = none → s.pins.srClk = false → s.pins.srLatch = false →
    ∃ t, exec (.casc b0 b1) s = .next t ∧ t.out = t.chain ∧
      ∀ n, n < 8 → t.chain.getLsbD (7 - n) = b0.getLsbD n ∧ t.chain.getLsbD (15 - n) = b1.getLsbD n) ∧
  (∀ (v : Byte) (s : State), s.look = none → s.pins.srClk = false →
    ∃ t, exec (.shift v .msb) s = .next t ∧ ∀ p, p < 8 → t.chain.getLsbD p = v.getLsbD p)

/-- The cascade frame: the events of `writeCascade` and what the cascade takes from them, the control state as it was (R79;
a frame is a sub-operation, log entry 14). -/
def Obligations.CascadeFrameCommitsItsBytes : Prop :=
  ∀ (b0 b1 : Byte) (s : State), ∃ t, exec (.srCascadeFrame b0 b1) s = .next t ∧ t.trace = s.trace ++ cascadeTrace b0 b1 ∧
    t.pins.srData = b0.getLsbD 7 ∧ t.pins.srClk = false ∧ t.pins.srLatch = false ∧ OnlyCascadeBus s t ∧
    (s.pins.srClk = false → s.pins.srLatch = false → t.chain = b1.reverse ++ b0.reverse ∧ t.out = b1.reverse ++ b0.reverse) ∧
    t.seq = s.seq ∧ t.todo = s.todo ∧ t.done = s.done ∧ t.textBase = s.textBase

/-- The cascade frame on the wire: of the events the frame appends, the level of `SR_DATA` at the rising edges of `SR_CLK` is
`byte1[0]`, ..., `byte1[7]`, `byte0[0]`, ..., `byte0[7]` (R79, R58) and `SR_LATCH` rises once after them; on entry with
`SR_CLK` at 1 the first edge is missing and its bit is lost, and with `SR_LATCH` at 1 the latch edge is (R120, R121, R180). -/
def Obligations.CascadeFrameBitsOnTheWire : Prop :=
  ∀ (b0 b1 : Byte) (s : State), ∃ (t : State) (evs : List Event), exec (.srCascadeFrame b0 b1) s = .next t ∧
    t.trace = s.trace ++ evs ∧ evs = shiftTrace (lsbFirst b1 ++ lsbFirst b0) ++ latchTrace ∧
    edgeBits .srClk .srData s.pins (drivesOf evs) =
      (if s.pins.srClk = false then lsbFirst b1 ++ lsbFirst b0 else (lsbFirst b1 ++ lsbFirst b0).tail) ∧
    edgeBits .srLatch .srData s.pins (drivesOf evs) = (if s.pins.srLatch = false then [b0.getLsbD 7] else [])

/-! ### The lookup and the renderer (spec/43_renderer.md) -/

/-- `FIND`, any samples: slots are read in ascending order from slot 0, none before the last read holds the character; a
match in the last leaves its address in FADDR, else all 37 were read and FADDR is 5; RESULT is the last word (R130). -/
def Obligations.FindScansUntilTheFirstMatch : Prop :=
  ∀ (c : Byte) (s : State), s.look = none → ∃ (t : State) (ws : List Word), exec (.find c) s = .next t ∧ Completed t ∧ 0 < ws.length ∧
    ws.length ≤ 37 ∧ t.trace = s.trace ++ scanTrace 0 ws ∧ t.result = ws.getD (ws.length - 1) 0 ∧
    (∀ k, k + 1 < ws.length → lowByte (ws.getD k 0) ≠ c) ∧
    ((lowByte t.result = c ∧ t.faddr = BitVec.ofNat 16 (10 * (ws.length - 1))) ∨
      (lowByte t.result ≠ c ∧ ws.length = 37 ∧ t.faddr = 5)) ∧
    Released t ∧ OnlyEepromBus { s with faddr := t.faddr } t

/-- The two lookup properties (R131), with the reference EEPROM: the character of a slot that no lower slot holds is found
there, and one that no slot holds gives 5. -/
def Obligations.FindReturnsTheSlotOrTheSentinel : Prop :=
  ∀ s : State, s.look = none → s.eeRef = true →
    (∀ i, i < 37 → (∀ j, j < i → lowByte (slotWord s.ee j) ≠ lowByte (slotWord s.ee i)) →
      ∃ t, exec (.find (lowByte (slotWord s.ee i))) s = .next t ∧ t.faddr = BitVec.ofNat 16 (10 * i)) ∧
    (∀ c : Byte, (∀ i, i < 37 → lowByte (slotWord s.ee i) ≠ c) →
      ∃ t, exec (.find c) s = .next t ∧ t.faddr = 5)

/-- With the reference EEPROM the whole trace of `FIND` is that of the slots up to the first match, or of all 37 (R130). -/
def Obligations.FindReadsTheStoredSlots : Prop :=
  ∀ (c : Byte) (s : State), s.look = none → s.eeRef = true →
    ∃ t, exec (.find c) s = .next t ∧ t.faddr = lookupAddr s.ee c ∧ t.trace = s.trace ++ findTrace s.ee c ∧
      t.result = slotWord s.ee (slotsRead s.ee c - 1) ∧ t.cbuf = s.cbuf ∧ t.txtptr = s.txtptr

/-- `RENDER` of a text with a terminator completes, any samples: TXTPTR is left at the terminator, and what it may not
touch is as it was (R132, R133). -/
def Obligations.RenderOfATerminatedTextCompletes : Prop :=
  ∀ (ptr : TxtAddr) (cs : List Byte) (s : State), s.look = none → s.HoldsText ptr cs →
    ∃ t, exec (.render ptr) s = .next t ∧ Completed t ∧ t.txtptr = ptr + BitVec.ofNat 16 cs.length ∧ RenderFrame s t ∧
      (cs ≠ [] → Released t ∧ lookupValue t.faddr = true)

/-- `RENDER` of an empty text reads the terminator and does nothing else (R133). -/
def Obligations.RenderOfAnEmptyTextReadsOneByte : Prop :=
  ∀ (ptr : TxtAddr) (s : State), s.look = none → s.txtRead ptr = Config.config.term →
    exec (.render ptr) s = .next { s with
      txtptr := ptr, seq := .idle, todo := [], done := true, textBase := none,
      log := .txtRead ptr Config.config.term :: s.log }

/-- With the reference EEPROM, `RENDER` over the pins is the renderer at the level of words: on every terminated
text the column buffer, FADDR, RESULT and the whole trace are those of R132's five steps done with stored words. -/
def Obligations.RenderOverPinsIsTheWordRenderer : Prop :=
  ∀ (ptr : TxtAddr) (cs : List Byte) (s : State), s.look = none → s.eeRef = true → s.HoldsText ptr cs →
    ∃ t, exec (.render ptr) s = .next t ∧ t.rendered = renderText s.ee ptr cs s.rendered ∧ t.din = s.din ∧
      t.draws = s.draws

/-- A text none of whose characters is in the table changes nothing on the display: no cascade wire, chain or output, and no
buffer entry; FADDR is 5 (R134). -/
def Obligations.RenderOfMissesLeavesTheDisplay : Prop :=
  ∀ (ptr : TxtAddr) (cs : List Byte) (s : State), s.look = none → s.eeRef = true → s.HoldsText ptr cs →
    (∀ c ∈ cs, ∀ i, i < 37 → lowByte (slotWord s.ee i) ≠ c) →
    ∃ t, exec (.render ptr) s = .next t ∧ SameDisplay s t ∧ t.cbuf = s.cbuf ∧ (cs ≠ [] → t.faddr = 5)

/-- After a text with a character of the table the display is blank: the blanking write is the last (R134, R136). -/
def Obligations.RenderEndsWithABlankDisplay : Prop :=
  ∀ (ptr : TxtAddr) (cs : List Byte) (s : State), s.look = none → s.eeRef = true → s.HoldsText ptr cs →
    (∃ c ∈ cs, ∃ i, i < 37 ∧ lowByte (slotWord s.ee i) = c) →
    ∃ t, exec (.render ptr) s = .next t ∧ BlankDisplay t

/-- The column load (R135): entries `0` to `2 * floor(cc / 2) + 1` take the bitmap words, low byte first, over-read
included, and no other entry changes. -/
def Obligations.ColumnLoadWritesTheEntriesOfItsCount : Prop :=
  ∀ (ptr : TxtAddr) (c : Byte) (i : Nat) (s : State), s.look = none → s.eeRef = true → s.HoldsText ptr [c] →
    Memory.wf 256 s.cbuf = true → firstSlot s.ee c = some i →
    ∃ t, exec (.render ptr) s = .next t ∧
      (∀ k, k ≤ (highByte (slotWord s.ee i)).toNat / 2 →
        t.cbufRead (2 * k) = lowByte (bitmapWord s.ee (BitVec.ofNat 16 (10 * i)) k) ∧
        t.cbufRead (2 * k + 1) = highByte (bitmapWord s.ee (BitVec.ofNat 16 (10 * i)) k)) ∧
      (∀ e, 2 * ((highByte (slotWord s.ee i)).toNat / 2) + 1 < e → t.cbufRead e = s.cbufRead e)

/-- `RENDER` of a text with no terminator does not complete: it is still running, however far the step runs it (R133, R184;
how far is the model's choice, log entries 2 and 4). -/
def Obligations.RenderWithoutTerminatorDoesNotComplete : Prop :=
  ∀ (ptr : TxtAddr) (s : State), s.NoTerminator → ∃ t, exec (.render ptr) s = .next t ∧ t.Rendering ∧ t.done = false

/-- Only reset ends such a RENDER: every further step that has a meaning leaves it running (R133, R184), over a text that still
has no terminator. That the text stays so rests on R67 and on the model's reading of it (log entry 18, DESIGN CHOICE: the
text with no terminator is all of TXT, and a step in which the host changes a byte of it is refused). -/
def Obligations.OnlyResetEndsARenderWithoutTerminator : Prop :=
  ∀ s t : State, s.Rendering → s.NoTerminator → Memory.wf 65536 s.txt = true → s.textBase ≠ none →
    s.hostIn.rst = false → step s = .next t →
    t.Rendering ∧ t.NoTerminator ∧ Memory.wf 65536 t.txt = true ∧ t.textBase ≠ none

/-! ### Ports and time (spec/10_state.md R34 to R36, spec/70_reset_and_hazards.md R187) -/

/-- The status port (R30, R35) and the buffer port (R36). `PINS[6]` is a level of its own (log entry 20). -/
def Obligations.StatusPortShowsTheRegisters : Prop :=
  ∀ s : State,
    (s.regQ 0).getLsbD 0 = decide (s.seq = .busy) ∧ (s.regQ 0).getLsbD 1 = decide (s.seq = .halt) ∧
    (s.regQ 0).toNat < 4 ∧
    (s.regQ 1).toNat = s.result.toNat ∧ (s.regQ 2).toNat = s.faddr.toNat ∧ (s.regQ 3).toNat = s.fcause.toNat ∧
    s.regQ 4 = s.finfo ∧ (s.regQ 5).toNat = s.txtptr.toNat ∧
    (∀ p : Pin, (s.regQ 6).getLsbD p.code.toNat = s.pins.get p) ∧ (s.regQ 6).getLsbD 6 = s.liveLevel ∧
    (s.regQ 6).toNat < 128 ∧ s.regQ 7 = 0 ∧
    (∀ j : BitVec 8, s.cbufQ j = s.cbufRead j.toNat) ∧ (s.cmdReady = true ↔ s.seq = .idle)

/-- The least time the trace of each command takes, in units, every row of the table of R187. `FIND` and `RENDER` are said with
the reference EEPROM, which gives the slots read and the column counts. -/
def Obligations.CommandsTakeTheirLeastTime : Prop :=
  ∀ s : State, s.look = none →
    (∀ p v hold, ∃ t, exec (.pin (.out p) v hold) s = .next t ∧ minUnits t.trace = minUnits s.trace + (match hold with
      | .none => 0
      | .short => 1
      | .srclk => 5
      | .latch => 10)) ∧
    (∃ t, exec .start s = .next t ∧ minUnits t.trace = minUnits s.trace + 4) ∧
    (∀ v n, bitCountOk n = true → ∃ t, exec (.wbits v n) s = .next t ∧ minUnits t.trace = minUnits s.trace + 2 * n.toNat) ∧
    (∃ t, exec .rword s = .next t ∧ minUnits t.trace = minUnits s.trace + 32) ∧
    (∀ a, ∃ t, exec (.rdat a) s = .next t ∧ minUnits t.trace = minUnits s.trace + 10058) ∧
    (∀ first last, ∃ t, exec (.rdrng first last) s = .next t ∧ minUnits t.trace = minUnits s.trace +
      (if first.toNat < last.toNat then 10058 * (last.toNat - first.toNat + 1) else 10058)) ∧
    (∀ v d, ∃ t, exec (.shift v d) s = .next t ∧ minUnits t.trace = minUnits s.trace + 80) ∧
    (∃ t, exec .latch s = .next t ∧ minUnits t.trace = minUnits s.trace + 10) ∧
    (∀ b0 b1, ∃ t, exec (.casc b0 b1) s = .next t ∧ minUnits t.trace = minUnits s.trace + 170) ∧
    (s.eeRef = true →
      (∀ c, ∃ t, exec (.find c) s = .next t ∧ minUnits t.trace = minUnits s.trace + (match firstSlot s.ee c with
        | some i => 10058 * (i + 1)
        | none => 372146)) ∧
      (∀ ptr cs, s.HoldsText ptr cs →
        ∃ t, exec (.render ptr) s = .next t ∧ minUnits t.trace = minUnits s.trace + (cs.map (charUnits s.ee)).sum))
end

