-- ==== Sys2Proof/Laws/State.lean ====
section
/-! SUPPORT. What each named operation does to each field of State, one lemma a field, each true by rfl; with them no later
proof unfolds a record update. -/

namespace Sys2Proof.Machine

/-! ### `emit` -/

@[simp] theorem State.emit_pins (s : State) (e : Event) : (s.emit e).pins = s.pins := rfl
@[simp] theorem State.emit_result (s : State) (e : Event) : (s.emit e).result = s.result := rfl
@[simp] theorem State.emit_faddr (s : State) (e : Event) : (s.emit e).faddr = s.faddr := rfl
@[simp] theorem State.emit_cbuf (s : State) (e : Event) : (s.emit e).cbuf = s.cbuf := rfl
@[simp] theorem State.emit_txtptr (s : State) (e : Event) : (s.emit e).txtptr = s.txtptr := rfl
@[simp] theorem State.emit_seq (s : State) (e : Event) : (s.emit e).seq = s.seq := rfl
@[simp] theorem State.emit_fcause (s : State) (e : Event) : (s.emit e).fcause = s.fcause := rfl
@[simp] theorem State.emit_finfo (s : State) (e : Event) : (s.emit e).finfo = s.finfo := rfl
@[simp] theorem State.emit_todo (s : State) (e : Event) : (s.emit e).todo = s.todo := rfl
@[simp] theorem State.emit_work (s : State) (e : Event) : (s.emit e).work = s.work := rfl
@[simp] theorem State.emit_done (s : State) (e : Event) : (s.emit e).done = s.done := rfl
@[simp] theorem State.emit_textBase (s : State) (e : Event) : (s.emit e).textBase = s.textBase := rfl
@[simp] theorem State.emit_resetSeen (s : State) (e : Event) : (s.emit e).resetSeen = s.resetSeen := rfl
@[simp] theorem State.emit_log (s : State) (e : Event) : (s.emit e).log = e :: s.log := rfl
@[simp] theorem State.emit_ee (s : State) (e : Event) : (s.emit e).ee = s.ee := rfl
@[simp] theorem State.emit_eeRef (s : State) (e : Event) : (s.emit e).eeRef = s.eeRef := rfl
@[simp] theorem State.emit_eeprom (s : State) (e : Event) : (s.emit e).eeprom = s.eeprom := rfl
@[simp] theorem State.emit_chain (s : State) (e : Event) : (s.emit e).chain = s.chain := rfl
@[simp] theorem State.emit_out (s : State) (e : Event) : (s.emit e).out = s.out := rfl
@[simp] theorem State.emit_txt (s : State) (e : Event) : (s.emit e).txt = s.txt := rfl
@[simp] theorem State.emit_din (s : State) (e : Event) : (s.emit e).din = s.din := rfl
@[simp] theorem State.emit_draws (s : State) (e : Event) : (s.emit e).draws = s.draws := rfl
@[simp] theorem State.emit_host (s : State) (e : Event) : (s.emit e).host = s.host := rfl
@[simp] theorem State.emit_look (s : State) (e : Event) : (s.emit e).look = s.look := rfl

/-! ### `drive` -/

@[simp] theorem State.drive_pins (s : State) (p : Pin) (v : Bool) : (s.drive p v).pins = s.pins.set p v := rfl
@[simp] theorem State.drive_result (s : State) (p : Pin) (v : Bool) : (s.drive p v).result = s.result := rfl
@[simp] theorem State.drive_faddr (s : State) (p : Pin) (v : Bool) : (s.drive p v).faddr = s.faddr := rfl
@[simp] theorem State.drive_cbuf (s : State) (p : Pin) (v : Bool) : (s.drive p v).cbuf = s.cbuf := rfl
@[simp] theorem State.drive_txtptr (s : State) (p : Pin) (v : Bool) : (s.drive p v).txtptr = s.txtptr := rfl
@[simp] theorem State.drive_seq (s : State) (p : Pin) (v : Bool) : (s.drive p v).seq = s.seq := rfl
@[simp] theorem State.drive_fcause (s : State) (p : Pin) (v : Bool) : (s.drive p v).fcause = s.fcause := rfl
@[simp] theorem State.drive_finfo (s : State) (p : Pin) (v : Bool) : (s.drive p v).finfo = s.finfo := rfl
@[simp] theorem State.drive_todo (s : State) (p : Pin) (v : Bool) : (s.drive p v).todo = s.todo := rfl
@[simp] theorem State.drive_work (s : State) (p : Pin) (v : Bool) : (s.drive p v).work = s.work := rfl
@[simp] theorem State.drive_done (s : State) (p : Pin) (v : Bool) : (s.drive p v).done = s.done := rfl
@[simp] theorem State.drive_textBase (s : State) (p : Pin) (v : Bool) : (s.drive p v).textBase = s.textBase := rfl
@[simp] theorem State.drive_resetSeen (s : State) (p : Pin) (v : Bool) : (s.drive p v).resetSeen = s.resetSeen := rfl
@[simp] theorem State.drive_log (s : State) (p : Pin) (v : Bool) : (s.drive p v).log = .drive p v :: s.log := rfl
@[simp] theorem State.drive_ee (s : State) (p : Pin) (v : Bool) : (s.drive p v).ee = s.ee := rfl
@[simp] theorem State.drive_eeRef (s : State) (p : Pin) (v : Bool) : (s.drive p v).eeRef = s.eeRef := rfl
@[simp] theorem State.drive_eeprom (s : State) (p : Pin) (v : Bool) : (s.drive p v).eeprom = s.eeprom.afterDrive (s.pins.set p v) p (s.pins.rises p v) s.ee := rfl
@[simp] theorem State.drive_chain (s : State) (p : Pin) (v : Bool) : (s.drive p v).chain = chainAfter s.chain (s.pins.set p v) p (s.pins.rises p v) := rfl
@[simp] theorem State.drive_out (s : State) (p : Pin) (v : Bool) : (s.drive p v).out = outAfter s.out s.chain p (s.pins.rises p v) := rfl
@[simp] theorem State.drive_txt (s : State) (p : Pin) (v : Bool) : (s.drive p v).txt = s.txt := rfl
@[simp] theorem State.drive_din (s : State) (p : Pin) (v : Bool) : (s.drive p v).din = s.din := rfl
@[simp] theorem State.drive_draws (s : State) (p : Pin) (v : Bool) : (s.drive p v).draws = s.draws := rfl
@[simp] theorem State.drive_host (s : State) (p : Pin) (v : Bool) : (s.drive p v).host = s.host := rfl
@[simp] theorem State.drive_look (s : State) (p : Pin) (v : Bool) : (s.drive p v).look = s.look := rfl

/-! ### `putResult` -/

@[simp] theorem State.putResult_pins (s : State) : (s.putResult).pins = s.pins := rfl
@[simp] theorem State.putResult_result (s : State) : (s.putResult).result = s.work := rfl
@[simp] theorem State.putResult_faddr (s : State) : (s.putResult).faddr = s.faddr := rfl
@[simp] theorem State.putResult_cbuf (s : State) : (s.putResult).cbuf = s.cbuf := rfl
@[simp] theorem State.putResult_txtptr (s : State) : (s.putResult).txtptr = s.txtptr := rfl
@[simp] theorem State.putResult_seq (s : State) : (s.putResult).seq = s.seq := rfl
@[simp] theorem State.putResult_fcause (s : State) : (s.putResult).fcause = s.fcause := rfl
@[simp] theorem State.putResult_finfo (s : State) : (s.putResult).finfo = s.finfo := rfl
@[simp] theorem State.putResult_todo (s : State) : (s.putResult).todo = s.todo := rfl
@[simp] theorem State.putResult_work (s : State) : (s.putResult).work = s.work := rfl
@[simp] theorem State.putResult_done (s : State) : (s.putResult).done = s.done := rfl
@[simp] theorem State.putResult_textBase (s : State) : (s.putResult).textBase = s.textBase := rfl
@[simp] theorem State.putResult_resetSeen (s : State) : (s.putResult).resetSeen = s.resetSeen := rfl
@[simp] theorem State.putResult_log (s : State) : (s.putResult).log = .result s.work :: s.log := rfl
@[simp] theorem State.putResult_ee (s : State) : (s.putResult).ee = s.ee := rfl
@[simp] theorem State.putResult_eeRef (s : State) : (s.putResult).eeRef = s.eeRef := rfl
@[simp] theorem State.putResult_eeprom (s : State) : (s.putResult).eeprom = s.eeprom := rfl
@[simp] theorem State.putResult_chain (s : State) : (s.putResult).chain = s.chain := rfl
@[simp] theorem State.putResult_out (s : State) : (s.putResult).out = s.out := rfl
@[simp] theorem State.putResult_txt (s : State) : (s.putResult).txt = s.txt := rfl
@[simp] theorem State.putResult_din (s : State) : (s.putResult).din = s.din := rfl
@[simp] theorem State.putResult_draws (s : State) : (s.putResult).draws = s.draws := rfl
@[simp] theorem State.putResult_host (s : State) : (s.putResult).host = s.host := rfl
@[simp] theorem State.putResult_look (s : State) : (s.putResult).look = s.look := rfl

/-! ### `push` -/

@[simp] theorem State.push_pins (s : State) (code : List Micro) : (s.push code).pins = s.pins := rfl
@[simp] theorem State.push_result (s : State) (code : List Micro) : (s.push code).result = s.result := rfl
@[simp] theorem State.push_faddr (s : State) (code : List Micro) : (s.push code).faddr = s.faddr := rfl
@[simp] theorem State.push_cbuf (s : State) (code : List Micro) : (s.push code).cbuf = s.cbuf := rfl
@[simp] theorem State.push_txtptr (s : State) (code : List Micro) : (s.push code).txtptr = s.txtptr := rfl
@[simp] theorem State.push_seq (s : State) (code : List Micro) : (s.push code).seq = s.seq := rfl
@[simp] theorem State.push_fcause (s : State) (code : List Micro) : (s.push code).fcause = s.fcause := rfl
@[simp] theorem State.push_finfo (s : State) (code : List Micro) : (s.push code).finfo = s.finfo := rfl
@[simp] theorem State.push_todo (s : State) (code : List Micro) : (s.push code).todo = code ++ s.todo := rfl
@[simp] theorem State.push_work (s : State) (code : List Micro) : (s.push code).work = s.work := rfl
@[simp] theorem State.push_done (s : State) (code : List Micro) : (s.push code).done = s.done := rfl
@[simp] theorem State.push_textBase (s : State) (code : List Micro) : (s.push code).textBase = s.textBase := rfl
@[simp] theorem State.push_resetSeen (s : State) (code : List Micro) : (s.push code).resetSeen = s.resetSeen := rfl
@[simp] theorem State.push_log (s : State) (code : List Micro) : (s.push code).log = s.log := rfl
@[simp] theorem State.push_ee (s : State) (code : List Micro) : (s.push code).ee = s.ee := rfl
@[simp] theorem State.push_eeRef (s : State) (code : List Micro) : (s.push code).eeRef = s.eeRef := rfl
@[simp] theorem State.push_eeprom (s : State) (code : List Micro) : (s.push code).eeprom = s.eeprom := rfl
@[simp] theorem State.push_chain (s : State) (code : List Micro) : (s.push code).chain = s.chain := rfl
@[simp] theorem State.push_out (s : State) (code : List Micro) : (s.push code).out = s.out := rfl
@[simp] theorem State.push_txt (s : State) (code : List Micro) : (s.push code).txt = s.txt := rfl
@[simp] theorem State.push_din (s : State) (code : List Micro) : (s.push code).din = s.din := rfl
@[simp] theorem State.push_draws (s : State) (code : List Micro) : (s.push code).draws = s.draws := rfl
@[simp] theorem State.push_host (s : State) (code : List Micro) : (s.push code).host = s.host := rfl
@[simp] theorem State.push_look (s : State) (code : List Micro) : (s.push code).look = s.look := rfl

/-! ### `cbufWrite` -/

@[simp] theorem State.cbufWrite_pins (s : State) (j : Nat) (v : Byte) : (s.cbufWrite j v).pins = s.pins := rfl
@[simp] theorem State.cbufWrite_result (s : State) (j : Nat) (v : Byte) : (s.cbufWrite j v).result = s.result := rfl
@[simp] theorem State.cbufWrite_faddr (s : State) (j : Nat) (v : Byte) : (s.cbufWrite j v).faddr = s.faddr := rfl
@[simp] theorem State.cbufWrite_txtptr (s : State) (j : Nat) (v : Byte) : (s.cbufWrite j v).txtptr = s.txtptr := rfl
@[simp] theorem State.cbufWrite_seq (s : State) (j : Nat) (v : Byte) : (s.cbufWrite j v).seq = s.seq := rfl
@[simp] theorem State.cbufWrite_fcause (s : State) (j : Nat) (v : Byte) : (s.cbufWrite j v).fcause = s.fcause := rfl
@[simp] theorem State.cbufWrite_finfo (s : State) (j : Nat) (v : Byte) : (s.cbufWrite j v).finfo = s.finfo := rfl
@[simp] theorem State.cbufWrite_todo (s : State) (j : Nat) (v : Byte) : (s.cbufWrite j v).todo = s.todo := rfl
@[simp] theorem State.cbufWrite_work (s : State) (j : Nat) (v : Byte) : (s.cbufWrite j v).work = s.work := rfl
@[simp] theorem State.cbufWrite_done (s : State) (j : Nat) (v : Byte) : (s.cbufWrite j v).done = s.done := rfl
@[simp] theorem State.cbufWrite_textBase (s : State) (j : Nat) (v : Byte) : (s.cbufWrite j v).textBase = s.textBase := rfl
@[simp] theorem State.cbufWrite_resetSeen (s : State) (j : Nat) (v : Byte) : (s.cbufWrite j v).resetSeen = s.resetSeen := rfl
@[simp] theorem State.cbufWrite_log (s : State) (j : Nat) (v : Byte) : (s.cbufWrite j v).log = s.log := rfl
@[simp] theorem State.cbufWrite_ee (s : State) (j : Nat) (v : Byte) : (s.cbufWrite j v).ee = s.ee := rfl
@[simp] theorem State.cbufWrite_eeRef (s : State) (j : Nat) (v : Byte) : (s.cbufWrite j v).eeRef = s.eeRef := rfl
@[simp] theorem State.cbufWrite_eeprom (s : State) (j : Nat) (v : Byte) : (s.cbufWrite j v).eeprom = s.eeprom := rfl
@[simp] theorem State.cbufWrite_chain (s : State) (j : Nat) (v : Byte) : (s.cbufWrite j v).chain = s.chain := rfl
@[simp] theorem State.cbufWrite_out (s : State) (j : Nat) (v : Byte) : (s.cbufWrite j v).out = s.out := rfl
@[simp] theorem State.cbufWrite_txt (s : State) (j : Nat) (v : Byte) : (s.cbufWrite j v).txt = s.txt := rfl
@[simp] theorem State.cbufWrite_din (s : State) (j : Nat) (v : Byte) : (s.cbufWrite j v).din = s.din := rfl
@[simp] theorem State.cbufWrite_draws (s : State) (j : Nat) (v : Byte) : (s.cbufWrite j v).draws = s.draws := rfl
@[simp] theorem State.cbufWrite_host (s : State) (j : Nat) (v : Byte) : (s.cbufWrite j v).host = s.host := rfl
@[simp] theorem State.cbufWrite_look (s : State) (j : Nat) (v : Byte) : (s.cbufWrite j v).look = s.look := rfl

/-! ### `unpack` -/

@[simp] theorem State.unpack_pins (s : State) (j : Nat) : (s.unpack j).pins = s.pins := rfl
@[simp] theorem State.unpack_result (s : State) (j : Nat) : (s.unpack j).result = s.result := rfl
@[simp] theorem State.unpack_faddr (s : State) (j : Nat) : (s.unpack j).faddr = s.faddr := rfl
@[simp] theorem State.unpack_txtptr (s : State) (j : Nat) : (s.unpack j).txtptr = s.txtptr := rfl
@[simp] theorem State.unpack_seq (s : State) (j : Nat) : (s.unpack j).seq = s.seq := rfl
@[simp] theorem State.unpack_fcause (s : State) (j : Nat) : (s.unpack j).fcause = s.fcause := rfl
@[simp] theorem State.unpack_finfo (s : State) (j : Nat) : (s.unpack j).finfo = s.finfo := rfl
@[simp] theorem State.unpack_todo (s : State) (j : Nat) : (s.unpack j).todo = s.todo := rfl
@[simp] theorem State.unpack_work (s : State) (j : Nat) : (s.unpack j).work = s.work := rfl
@[simp] theorem State.unpack_done (s : State) (j : Nat) : (s.unpack j).done = s.done := rfl
@[simp] theorem State.unpack_textBase (s : State) (j : Nat) : (s.unpack j).textBase = s.textBase := rfl
@[simp] theorem State.unpack_resetSeen (s : State) (j : Nat) : (s.unpack j).resetSeen = s.resetSeen := rfl
@[simp] theorem State.unpack_log (s : State) (j : Nat) : (s.unpack j).log = s.log := rfl
@[simp] theorem State.unpack_ee (s : State) (j : Nat) : (s.unpack j).ee = s.ee := rfl
@[simp] theorem State.unpack_eeRef (s : State) (j : Nat) : (s.unpack j).eeRef = s.eeRef := rfl
@[simp] theorem State.unpack_eeprom (s : State) (j : Nat) : (s.unpack j).eeprom = s.eeprom := rfl
@[simp] theorem State.unpack_chain (s : State) (j : Nat) : (s.unpack j).chain = s.chain := rfl
@[simp] theorem State.unpack_out (s : State) (j : Nat) : (s.unpack j).out = s.out := rfl
@[simp] theorem State.unpack_txt (s : State) (j : Nat) : (s.unpack j).txt = s.txt := rfl
@[simp] theorem State.unpack_din (s : State) (j : Nat) : (s.unpack j).din = s.din := rfl
@[simp] theorem State.unpack_draws (s : State) (j : Nat) : (s.unpack j).draws = s.draws := rfl
@[simp] theorem State.unpack_host (s : State) (j : Nat) : (s.unpack j).host = s.host := rfl
@[simp] theorem State.unpack_look (s : State) (j : Nat) : (s.unpack j).look = s.look := rfl

/-! ### `raiseFault` -/

@[simp] theorem State.raiseFault_pins (s : State) (c : Cause) (w : CmdWord) : (s.raiseFault c w).pins = s.pins := rfl
@[simp] theorem State.raiseFault_result (s : State) (c : Cause) (w : CmdWord) : (s.raiseFault c w).result = s.result := rfl
@[simp] theorem State.raiseFault_faddr (s : State) (c : Cause) (w : CmdWord) : (s.raiseFault c w).faddr = s.faddr := rfl
@[simp] theorem State.raiseFault_cbuf (s : State) (c : Cause) (w : CmdWord) : (s.raiseFault c w).cbuf = s.cbuf := rfl
@[simp] theorem State.raiseFault_txtptr (s : State) (c : Cause) (w : CmdWord) : (s.raiseFault c w).txtptr = s.txtptr := rfl
@[simp] theorem State.raiseFault_seq (s : State) (c : Cause) (w : CmdWord) : (s.raiseFault c w).seq = .halt := rfl
@[simp] theorem State.raiseFault_fcause (s : State) (c : Cause) (w : CmdWord) : (s.raiseFault c w).fcause = c.code := rfl
@[simp] theorem State.raiseFault_finfo (s : State) (c : Cause) (w : CmdWord) : (s.raiseFault c w).finfo = w := rfl
@[simp] theorem State.raiseFault_todo (s : State) (c : Cause) (w : CmdWord) : (s.raiseFault c w).todo = s.todo := rfl
@[simp] theorem State.raiseFault_work (s : State) (c : Cause) (w : CmdWord) : (s.raiseFault c w).work = s.work := rfl
@[simp] theorem State.raiseFault_done (s : State) (c : Cause) (w : CmdWord) : (s.raiseFault c w).done = s.done := rfl
@[simp] theorem State.raiseFault_textBase (s : State) (c : Cause) (w : CmdWord) : (s.raiseFault c w).textBase = s.textBase := rfl
@[simp] theorem State.raiseFault_resetSeen (s : State) (c : Cause) (w : CmdWord) : (s.raiseFault c w).resetSeen = s.resetSeen := rfl
@[simp] theorem State.raiseFault_log (s : State) (c : Cause) (w : CmdWord) : (s.raiseFault c w).log = s.log := rfl
@[simp] theorem State.raiseFault_ee (s : State) (c : Cause) (w : CmdWord) : (s.raiseFault c w).ee = s.ee := rfl
@[simp] theorem State.raiseFault_eeRef (s : State) (c : Cause) (w : CmdWord) : (s.raiseFault c w).eeRef = s.eeRef := rfl
@[simp] theorem State.raiseFault_eeprom (s : State) (c : Cause) (w : CmdWord) : (s.raiseFault c w).eeprom = s.eeprom := rfl
@[simp] theorem State.raiseFault_chain (s : State) (c : Cause) (w : CmdWord) : (s.raiseFault c w).chain = s.chain := rfl
@[simp] theorem State.raiseFault_out (s : State) (c : Cause) (w : CmdWord) : (s.raiseFault c w).out = s.out := rfl
@[simp] theorem State.raiseFault_txt (s : State) (c : Cause) (w : CmdWord) : (s.raiseFault c w).txt = s.txt := rfl
@[simp] theorem State.raiseFault_din (s : State) (c : Cause) (w : CmdWord) : (s.raiseFault c w).din = s.din := rfl
@[simp] theorem State.raiseFault_draws (s : State) (c : Cause) (w : CmdWord) : (s.raiseFault c w).draws = s.draws := rfl
@[simp] theorem State.raiseFault_host (s : State) (c : Cause) (w : CmdWord) : (s.raiseFault c w).host = s.host := rfl
@[simp] theorem State.raiseFault_look (s : State) (c : Cause) (w : CmdWord) : (s.raiseFault c w).look = s.look := rfl

/-! ### `accept` -/

@[simp] theorem State.accept_pins (s : State) (code : List Micro) : (s.accept code).pins = s.pins := rfl
@[simp] theorem State.accept_result (s : State) (code : List Micro) : (s.accept code).result = s.result := rfl
@[simp] theorem State.accept_faddr (s : State) (code : List Micro) : (s.accept code).faddr = s.faddr := rfl
@[simp] theorem State.accept_cbuf (s : State) (code : List Micro) : (s.accept code).cbuf = s.cbuf := rfl
@[simp] theorem State.accept_txtptr (s : State) (code : List Micro) : (s.accept code).txtptr = s.txtptr := rfl
@[simp] theorem State.accept_seq (s : State) (code : List Micro) : (s.accept code).seq = .busy := rfl
@[simp] theorem State.accept_fcause (s : State) (code : List Micro) : (s.accept code).fcause = s.fcause := rfl
@[simp] theorem State.accept_finfo (s : State) (code : List Micro) : (s.accept code).finfo = s.finfo := rfl
@[simp] theorem State.accept_todo (s : State) (code : List Micro) : (s.accept code).todo = code := rfl
@[simp] theorem State.accept_work (s : State) (code : List Micro) : (s.accept code).work = s.work := rfl
@[simp] theorem State.accept_done (s : State) (code : List Micro) : (s.accept code).done = false := rfl
@[simp] theorem State.accept_textBase (s : State) (code : List Micro) : (s.accept code).textBase = s.textBase := rfl
@[simp] theorem State.accept_resetSeen (s : State) (code : List Micro) : (s.accept code).resetSeen = s.resetSeen := rfl
@[simp] theorem State.accept_log (s : State) (code : List Micro) : (s.accept code).log = s.log := rfl
@[simp] theorem State.accept_ee (s : State) (code : List Micro) : (s.accept code).ee = s.ee := rfl
@[simp] theorem State.accept_eeRef (s : State) (code : List Micro) : (s.accept code).eeRef = s.eeRef := rfl
@[simp] theorem State.accept_eeprom (s : State) (code : List Micro) : (s.accept code).eeprom = s.eeprom := rfl
@[simp] theorem State.accept_chain (s : State) (code : List Micro) : (s.accept code).chain = s.chain := rfl
@[simp] theorem State.accept_out (s : State) (code : List Micro) : (s.accept code).out = s.out := rfl
@[simp] theorem State.accept_txt (s : State) (code : List Micro) : (s.accept code).txt = s.txt := rfl
@[simp] theorem State.accept_din (s : State) (code : List Micro) : (s.accept code).din = s.din := rfl
@[simp] theorem State.accept_draws (s : State) (code : List Micro) : (s.accept code).draws = s.draws := rfl
@[simp] theorem State.accept_host (s : State) (code : List Micro) : (s.accept code).host = s.host := rfl
@[simp] theorem State.accept_look (s : State) (code : List Micro) : (s.accept code).look = s.look := rfl

/-! ### `complete` -/

@[simp] theorem State.complete_pins (s : State) : (s.complete).pins = s.pins := rfl
@[simp] theorem State.complete_result (s : State) : (s.complete).result = s.result := rfl
@[simp] theorem State.complete_faddr (s : State) : (s.complete).faddr = s.faddr := rfl
@[simp] theorem State.complete_cbuf (s : State) : (s.complete).cbuf = s.cbuf := rfl
@[simp] theorem State.complete_txtptr (s : State) : (s.complete).txtptr = s.txtptr := rfl
@[simp] theorem State.complete_seq (s : State) : (s.complete).seq = .idle := rfl
@[simp] theorem State.complete_fcause (s : State) : (s.complete).fcause = s.fcause := rfl
@[simp] theorem State.complete_finfo (s : State) : (s.complete).finfo = s.finfo := rfl
@[simp] theorem State.complete_todo (s : State) : (s.complete).todo = s.todo := rfl
@[simp] theorem State.complete_work (s : State) : (s.complete).work = s.work := rfl
@[simp] theorem State.complete_done (s : State) : (s.complete).done = true := rfl
@[simp] theorem State.complete_textBase (s : State) : (s.complete).textBase = none := rfl
@[simp] theorem State.complete_resetSeen (s : State) : (s.complete).resetSeen = s.resetSeen := rfl
@[simp] theorem State.complete_log (s : State) : (s.complete).log = s.log := rfl
@[simp] theorem State.complete_ee (s : State) : (s.complete).ee = s.ee := rfl
@[simp] theorem State.complete_eeRef (s : State) : (s.complete).eeRef = s.eeRef := rfl
@[simp] theorem State.complete_eeprom (s : State) : (s.complete).eeprom = s.eeprom := rfl
@[simp] theorem State.complete_chain (s : State) : (s.complete).chain = s.chain := rfl
@[simp] theorem State.complete_out (s : State) : (s.complete).out = s.out := rfl
@[simp] theorem State.complete_txt (s : State) : (s.complete).txt = s.txt := rfl
@[simp] theorem State.complete_din (s : State) : (s.complete).din = s.din := rfl
@[simp] theorem State.complete_draws (s : State) : (s.complete).draws = s.draws := rfl
@[simp] theorem State.complete_host (s : State) : (s.complete).host = s.host := rfl
@[simp] theorem State.complete_look (s : State) : (s.complete).look = s.look := rfl

/-! ### `takeInput` -/

@[simp] theorem State.takeInput_pins (s : State) : (s.takeInput).pins = s.pins := rfl
@[simp] theorem State.takeInput_result (s : State) : (s.takeInput).result = s.result := rfl
@[simp] theorem State.takeInput_faddr (s : State) : (s.takeInput).faddr = s.faddr := rfl
@[simp] theorem State.takeInput_cbuf (s : State) : (s.takeInput).cbuf = s.cbuf := rfl
@[simp] theorem State.takeInput_txtptr (s : State) : (s.takeInput).txtptr = s.txtptr := rfl
@[simp] theorem State.takeInput_seq (s : State) : (s.takeInput).seq = s.seq := rfl
@[simp] theorem State.takeInput_fcause (s : State) : (s.takeInput).fcause = s.fcause := rfl
@[simp] theorem State.takeInput_finfo (s : State) : (s.takeInput).finfo = s.finfo := rfl
@[simp] theorem State.takeInput_todo (s : State) : (s.takeInput).todo = s.todo := rfl
@[simp] theorem State.takeInput_work (s : State) : (s.takeInput).work = s.work := rfl
@[simp] theorem State.takeInput_done (s : State) : (s.takeInput).done = false := rfl
@[simp] theorem State.takeInput_textBase (s : State) : (s.takeInput).textBase = s.textBase := rfl
@[simp] theorem State.takeInput_resetSeen (s : State) : (s.takeInput).resetSeen = s.resetSeen := rfl
@[simp] theorem State.takeInput_log (s : State) : (s.takeInput).log = s.log := rfl
@[simp] theorem State.takeInput_ee (s : State) : (s.takeInput).ee = s.ee := rfl
@[simp] theorem State.takeInput_eeRef (s : State) : (s.takeInput).eeRef = s.eeRef := rfl
@[simp] theorem State.takeInput_eeprom (s : State) : (s.takeInput).eeprom = s.eeprom := rfl
@[simp] theorem State.takeInput_chain (s : State) : (s.takeInput).chain = s.chain := rfl
@[simp] theorem State.takeInput_out (s : State) : (s.takeInput).out = s.out := rfl
@[simp] theorem State.takeInput_txt (s : State) : (s.takeInput).txt = s.txt := rfl
@[simp] theorem State.takeInput_din (s : State) : (s.takeInput).din = s.din := rfl
@[simp] theorem State.takeInput_draws (s : State) : (s.takeInput).draws = s.draws + 1 := rfl
@[simp] theorem State.takeInput_host (s : State) : (s.takeInput).host = s.host.tail := rfl
@[simp] theorem State.takeInput_look (s : State) : (s.takeInput).look = s.hostIn.look := rfl

/-! ### `hostWrites` -/

@[simp] theorem State.hostWrites_pins (s : State) (ws : List (TxtAddr × Byte)) : (s.hostWrites ws).pins = s.pins := rfl
@[simp] theorem State.hostWrites_result (s : State) (ws : List (TxtAddr × Byte)) : (s.hostWrites ws).result = s.result := rfl
@[simp] theorem State.hostWrites_faddr (s : State) (ws : List (TxtAddr × Byte)) : (s.hostWrites ws).faddr = s.faddr := rfl
@[simp] theorem State.hostWrites_cbuf (s : State) (ws : List (TxtAddr × Byte)) : (s.hostWrites ws).cbuf = s.cbuf := rfl
@[simp] theorem State.hostWrites_txtptr (s : State) (ws : List (TxtAddr × Byte)) : (s.hostWrites ws).txtptr = s.txtptr := rfl
@[simp] theorem State.hostWrites_seq (s : State) (ws : List (TxtAddr × Byte)) : (s.hostWrites ws).seq = s.seq := rfl
@[simp] theorem State.hostWrites_fcause (s : State) (ws : List (TxtAddr × Byte)) : (s.hostWrites ws).fcause = s.fcause := rfl
@[simp] theorem State.hostWrites_finfo (s : State) (ws : List (TxtAddr × Byte)) : (s.hostWrites ws).finfo = s.finfo := rfl
@[simp] theorem State.hostWrites_todo (s : State) (ws : List (TxtAddr × Byte)) : (s.hostWrites ws).todo = s.todo := rfl
@[simp] theorem State.hostWrites_work (s : State) (ws : List (TxtAddr × Byte)) : (s.hostWrites ws).work = s.work := rfl
@[simp] theorem State.hostWrites_done (s : State) (ws : List (TxtAddr × Byte)) : (s.hostWrites ws).done = s.done := rfl
@[simp] theorem State.hostWrites_textBase (s : State) (ws : List (TxtAddr × Byte)) : (s.hostWrites ws).textBase = s.textBase := rfl
@[simp] theorem State.hostWrites_resetSeen (s : State) (ws : List (TxtAddr × Byte)) : (s.hostWrites ws).resetSeen = s.resetSeen := rfl
@[simp] theorem State.hostWrites_log (s : State) (ws : List (TxtAddr × Byte)) : (s.hostWrites ws).log = s.log := rfl
@[simp] theorem State.hostWrites_ee (s : State) (ws : List (TxtAddr × Byte)) : (s.hostWrites ws).ee = s.ee := rfl
@[simp] theorem State.hostWrites_eeRef (s : State) (ws : List (TxtAddr × Byte)) : (s.hostWrites ws).eeRef = s.eeRef := rfl
@[simp] theorem State.hostWrites_eeprom (s : State) (ws : List (TxtAddr × Byte)) : (s.hostWrites ws).eeprom = s.eeprom := rfl
@[simp] theorem State.hostWrites_chain (s : State) (ws : List (TxtAddr × Byte)) : (s.hostWrites ws).chain = s.chain := rfl
@[simp] theorem State.hostWrites_out (s : State) (ws : List (TxtAddr × Byte)) : (s.hostWrites ws).out = s.out := rfl
@[simp] theorem State.hostWrites_din (s : State) (ws : List (TxtAddr × Byte)) : (s.hostWrites ws).din = s.din := rfl
@[simp] theorem State.hostWrites_draws (s : State) (ws : List (TxtAddr × Byte)) : (s.hostWrites ws).draws = s.draws := rfl
@[simp] theorem State.hostWrites_host (s : State) (ws : List (TxtAddr × Byte)) : (s.hostWrites ws).host = s.host := rfl
@[simp] theorem State.hostWrites_look (s : State) (ws : List (TxtAddr × Byte)) : (s.hostWrites ws).look = s.look := rfl

/-! ### `afterSample` and `sample` -/

@[simp] theorem State.afterSample_pins (s : State) : s.afterSample.pins = s.pins := rfl
@[simp] theorem State.afterSample_result (s : State) : s.afterSample.result = s.result := rfl
@[simp] theorem State.afterSample_faddr (s : State) : s.afterSample.faddr = s.faddr := rfl
@[simp] theorem State.afterSample_cbuf (s : State) : s.afterSample.cbuf = s.cbuf := rfl
@[simp] theorem State.afterSample_txtptr (s : State) : s.afterSample.txtptr = s.txtptr := rfl
@[simp] theorem State.afterSample_seq (s : State) : s.afterSample.seq = s.seq := rfl
@[simp] theorem State.afterSample_fcause (s : State) : s.afterSample.fcause = s.fcause := rfl
@[simp] theorem State.afterSample_finfo (s : State) : s.afterSample.finfo = s.finfo := rfl
@[simp] theorem State.afterSample_todo (s : State) : s.afterSample.todo = s.todo := rfl
@[simp] theorem State.afterSample_work (s : State) : s.afterSample.work = s.work := rfl
@[simp] theorem State.afterSample_done (s : State) : s.afterSample.done = s.done := rfl
@[simp] theorem State.afterSample_textBase (s : State) : s.afterSample.textBase = s.textBase := rfl
@[simp] theorem State.afterSample_resetSeen (s : State) : s.afterSample.resetSeen = s.resetSeen := rfl
@[simp] theorem State.afterSample_log (s : State) : s.afterSample.log = s.log := rfl
@[simp] theorem State.afterSample_ee (s : State) : s.afterSample.ee = s.ee := rfl
@[simp] theorem State.afterSample_eeRef (s : State) : s.afterSample.eeRef = s.eeRef := rfl
@[simp] theorem State.afterSample_eeprom (s : State) : s.afterSample.eeprom = s.eeprom := rfl
@[simp] theorem State.afterSample_chain (s : State) : s.afterSample.chain = s.chain := rfl
@[simp] theorem State.afterSample_out (s : State) : s.afterSample.out = s.out := rfl
@[simp] theorem State.afterSample_txt (s : State) : s.afterSample.txt = s.txt := rfl
@[simp] theorem State.afterSample_host (s : State) : s.afterSample.host = s.host := rfl
@[simp] theorem State.afterSample_look (s : State) : s.afterSample.look = s.look := rfl

@[simp] theorem State.sample_pins (s : State) (i : Nat) : (s.sample i).pins = s.pins := rfl
@[simp] theorem State.sample_result (s : State) (i : Nat) : (s.sample i).result = s.result := rfl
@[simp] theorem State.sample_faddr (s : State) (i : Nat) : (s.sample i).faddr = s.faddr := rfl
@[simp] theorem State.sample_cbuf (s : State) (i : Nat) : (s.sample i).cbuf = s.cbuf := rfl
@[simp] theorem State.sample_txtptr (s : State) (i : Nat) : (s.sample i).txtptr = s.txtptr := rfl
@[simp] theorem State.sample_seq (s : State) (i : Nat) : (s.sample i).seq = s.seq := rfl
@[simp] theorem State.sample_fcause (s : State) (i : Nat) : (s.sample i).fcause = s.fcause := rfl
@[simp] theorem State.sample_finfo (s : State) (i : Nat) : (s.sample i).finfo = s.finfo := rfl
@[simp] theorem State.sample_todo (s : State) (i : Nat) : (s.sample i).todo = s.todo := rfl
@[simp] theorem State.sample_work (s : State) (i : Nat) : (s.sample i).work = setBit s.work i s.sampleLevel := rfl
@[simp] theorem State.sample_done (s : State) (i : Nat) : (s.sample i).done = s.done := rfl
@[simp] theorem State.sample_textBase (s : State) (i : Nat) : (s.sample i).textBase = s.textBase := rfl
@[simp] theorem State.sample_resetSeen (s : State) (i : Nat) : (s.sample i).resetSeen = s.resetSeen := rfl
@[simp] theorem State.sample_log (s : State) (i : Nat) : (s.sample i).log = .sample s.sampleLevel :: s.log := rfl
@[simp] theorem State.sample_ee (s : State) (i : Nat) : (s.sample i).ee = s.ee := rfl
@[simp] theorem State.sample_eeRef (s : State) (i : Nat) : (s.sample i).eeRef = s.eeRef := rfl
@[simp] theorem State.sample_eeprom (s : State) (i : Nat) : (s.sample i).eeprom = s.eeprom := rfl
@[simp] theorem State.sample_chain (s : State) (i : Nat) : (s.sample i).chain = s.chain := rfl
@[simp] theorem State.sample_out (s : State) (i : Nat) : (s.sample i).out = s.out := rfl
@[simp] theorem State.sample_txt (s : State) (i : Nat) : (s.sample i).txt = s.txt := rfl
@[simp] theorem State.sample_din (s : State) (i : Nat) : (s.sample i).din = s.afterSample.din := rfl
@[simp] theorem State.sample_draws (s : State) (i : Nat) : (s.sample i).draws = s.afterSample.draws := rfl
@[simp] theorem State.sample_host (s : State) (i : Nat) : (s.sample i).host = s.host := rfl
@[simp] theorem State.sample_look (s : State) (i : Nat) : (s.sample i).look = s.look := rfl

/-! ### `resetEngine` -/

@[simp] theorem State.resetEngine_pins (s : State) : s.resetEngine.pins = .low := rfl
@[simp] theorem State.resetEngine_result (s : State) : s.resetEngine.result = 0 := rfl
@[simp] theorem State.resetEngine_faddr (s : State) : s.resetEngine.faddr = 0 := rfl
@[simp] theorem State.resetEngine_cbuf (s : State) : s.resetEngine.cbuf = [] := rfl
@[simp] theorem State.resetEngine_txtptr (s : State) : s.resetEngine.txtptr = 0 := rfl
@[simp] theorem State.resetEngine_seq (s : State) : s.resetEngine.seq = .idle := rfl
@[simp] theorem State.resetEngine_fcause (s : State) : s.resetEngine.fcause = 0 := rfl
@[simp] theorem State.resetEngine_finfo (s : State) : s.resetEngine.finfo = 0 := rfl
@[simp] theorem State.resetEngine_todo (s : State) : s.resetEngine.todo = [] := rfl
@[simp] theorem State.resetEngine_work (s : State) : s.resetEngine.work = 0 := rfl
@[simp] theorem State.resetEngine_done (s : State) : s.resetEngine.done = false := rfl
@[simp] theorem State.resetEngine_textBase (s : State) : s.resetEngine.textBase = none := rfl
@[simp] theorem State.resetEngine_resetSeen (s : State) : s.resetEngine.resetSeen = true := rfl
@[simp] theorem State.resetEngine_log (s : State) : s.resetEngine.log = [] := rfl
@[simp] theorem State.resetEngine_ee (s : State) : s.resetEngine.ee = s.ee := rfl
@[simp] theorem State.resetEngine_eeRef (s : State) : s.resetEngine.eeRef = s.eeRef := rfl
@[simp] theorem State.resetEngine_eeprom (s : State) : s.resetEngine.eeprom = { s.eeprom with phase := .idle } := rfl
@[simp] theorem State.resetEngine_chain (s : State) : s.resetEngine.chain = s.chain := rfl
@[simp] theorem State.resetEngine_out (s : State) : s.resetEngine.out = s.out := rfl
@[simp] theorem State.resetEngine_txt (s : State) : s.resetEngine.txt = s.txt := rfl
@[simp] theorem State.resetEngine_din (s : State) : s.resetEngine.din = s.din := rfl
@[simp] theorem State.resetEngine_draws (s : State) : s.resetEngine.draws = s.draws := rfl
@[simp] theorem State.resetEngine_host (s : State) : s.resetEngine.host = s.host := rfl
@[simp] theorem State.resetEngine_look (s : State) : s.resetEngine.look = s.look := rfl

/-! ### Pins -/

@[simp] theorem Pins.get_set_self (p : Pins) (sig : Pin) (v : Bool) : (p.set sig v).get sig = v := by
  cases sig <;> rfl

theorem Pins.get_set (p : Pins) (sig sig' : Pin) (v : Bool) :
    (p.set sig v).get sig' = if sig' = sig then v else p.get sig' := by
  cases sig <;> cases sig' <;> rfl

/-! ### The trace -/

theorem State.trace_emit (s : State) (e : Event) : (s.emit e).trace = s.trace ++ [e] := by
  simp [State.trace]

theorem State.trace_drive (s : State) (p : Pin) (v : Bool) : (s.drive p v).trace = s.trace ++ [.drive p v] := by
  simp [State.trace]

theorem State.trace_putResult (s : State) : s.putResult.trace = s.trace ++ [.result s.work] := by
  simp [State.trace]

theorem State.trace_sample (s : State) (i : Nat) : (s.sample i).trace = s.trace ++ [.sample s.sampleLevel] := by
  simp [State.trace]

end Sys2Proof.Machine
end

