-- ==== Sys2Proof/Laws/Sequencer.lean ====
section
/-! SUPPORT. The laws of the sequencer: how straight pseudocode runs, how runs compose, and when a command completes. -/

namespace Sys2Proof.Machine

/-! ### Straight micro-operations: they neither read nor change what is left to do -/

/-- A micro-operation that opens no further pseudocode. -/
def Micro.straight : Micro → Bool
  | .drive _ _ => true
  | .settle _ => true
  | .clearWord => true
  | .sample _ => true
  | .result => true
  | .unpack _ => true
  | .setTxtptr _ => true
  | .fetch => false
  | .scanTest _ _ _ => false
  | .metaTest _ => false
  | .showCol _ => false
  | .nextChar => false

/-- A list of straight micro-operations. -/
abbrev Straight (code : List Micro) : Prop := code.all Micro.straight = true

theorem perform_withTodo {m : Micro} (h : m.straight = true) (s : State) (x : List Micro) :
    perform m { s with todo := x } = { perform m s with todo := x } := by
  cases m <;> first | rfl | cases h

theorem perform_todo {m : Micro} (h : m.straight = true) (s : State) : (perform m s).todo = s.todo := by
  cases m <;> first | rfl | cases h

/-! ### `runCode` -/

@[simp] theorem runCode_nil (s : State) : runCode [] s = s := rfl

@[simp] theorem runCode_cons (m : Micro) (code : List Micro) (s : State) :
    runCode (m :: code) s = runCode code (perform m s) := rfl

@[simp] theorem runCode_append (a b : List Micro) (s : State) : runCode (a ++ b) s = runCode b (runCode a s) := by
  simp [runCode]

theorem runCode_withTodo {code : List Micro} (h : Straight code) (s : State) (x : List Micro) :
    runCode code { s with todo := x } = { runCode code s with todo := x } := by
  induction code generalizing s with
  | nil => rfl
  | cons m code ih =>
    simp only [Straight, List.all_cons, Bool.and_eq_true] at h
    rw [runCode_cons, perform_withTodo h.1, ih h.2, runCode_cons]

theorem runCode_todo {code : List Micro} (h : Straight code) (s : State) : (runCode code s).todo = s.todo := by
  induction code generalizing s with
  | nil => rfl
  | cons m code ih =>
    simp only [Straight, List.all_cons, Bool.and_eq_true] at h
    rw [runCode_cons, ih h.2, perform_todo h.1]

/-- An invariant of every micro-operation of a list is one of the list. -/
theorem runCode_keeps {P : State → Prop} {code : List Micro} (h : ∀ m ∈ code, ∀ s, P s → P (perform m s)) {s : State}
    (hs : P s) : P (runCode code s) := by
  induction code generalizing s with
  | nil => exact hs
  | cons m code ih =>
    exact ih (fun m' hm' => h m' (by simp [hm'])) (h m (by simp) s hs)

/-! ### Runs -/

@[simp] theorem runTicks_zero (s : State) : runTicks 0 s = s := rfl

theorem runTicks_done {s : State} (h : s.todo = []) (n : Nat) : runTicks n s = s := by
  cases n <;> simp [runTicks, h]

/-- `s` comes to `t` in exactly `n` micro-operations, whatever the run goes on to do. -/
def Leads (n : Nat) (s t : State) : Prop := ∀ m, runTicks (n + m) s = runTicks m t

theorem Leads.refl (s : State) : Leads 0 s s := fun m => by rw [Nat.zero_add]

theorem Leads.trans {n k : Nat} {s t u : State} (h : Leads n s t) (h' : Leads k t u) : Leads (n + k) s u := fun m => by
  rw [Nat.add_assoc, h, h']

theorem Leads.one {s : State} {m : Micro} {rest : List Micro} (h : s.todo = m :: rest) :
    Leads 1 s (perform m { s with todo := rest }) := fun k => by
  rw [Nat.add_comm, runTicks, if_neg (by simp [h]), tick, h]

theorem Leads.next (u : State) (m : Micro) (rest : List Micro) :
    Leads 1 { u with todo := m :: rest } (perform m { u with todo := rest }) :=
  Leads.one (s := { u with todo := m :: rest }) rfl

/-- Straight pseudocode runs as `runCode` says, and what stood after it is next. -/
theorem Leads.code {code rest : List Micro} (hc : Straight code) {s : State} (h : s.todo = code ++ rest) :
    Leads code.length s { runCode code s with todo := rest } := by
  induction code generalizing s with
  | nil => rw [← show s.todo = rest from h]; exact Leads.refl s
  | cons m code ih =>
    simp only [Straight, List.all_cons, Bool.and_eq_true] at hc
    have h1 := Leads.one (s := s) (m := m) (rest := code ++ rest) h
    have h2 := ih hc.2 (s := perform m { s with todo := code ++ rest }) (by rw [perform_todo hc.1])
    have := h1.trans h2
    rw [perform_withTodo hc.1, runCode_withTodo hc.2] at this
    rw [List.length_cons, Nat.add_comm]
    exact this

/-- A run that comes to the end of the pseudocode within `n` micro-operations stays there. -/
theorem Leads.run {k n : Nat} {s t : State} (h : Leads k s t) (ht : t.todo = []) (hn : k ≤ n) : runTicks n s = t := by
  obtain ⟨m, rfl⟩ := Nat.exists_eq_add_of_le hn
  rw [h, runTicks_done ht]

theorem runTicks_add (n k : Nat) (s : State) : runTicks (n + k) s = runTicks k (runTicks n s) := by
  induction n generalizing s with
  | zero => rw [Nat.zero_add]; rfl
  | succ n ih =>
    rw [Nat.succ_add, runTicks, runTicks]
    split
    · rename_i h
      rw [runTicks_done (by simpa using h)]
    · exact ih _

/-- An invariant of every `tick` is one of a run. -/
theorem runTicks_keeps {P : State → Prop} (h : ∀ s, P s → P (tick s)) (n : Nat) {s : State} (hs : P s) :
    P (runTicks n s) := by
  induction n generalizing s with
  | zero => exact hs
  | succ n ih =>
    rw [runTicks]
    split
    · exact hs
    · exact ih (h s hs)

/-! ### Commands -/

theorem State.budget_full {s : State} (h : s.look = none) : s.budget = fullRun := by simp [State.budget, h]

/-- A command that comes to the end of its pseudocode within this step's micro-operations completes (R81). -/
theorem State.runCommand_completes {s t : State} {code : List Micro} {n : Nat} (h : Leads n (s.accept code) t)
    (ht : t.todo = []) (hn : n ≤ s.budget) : s.runCommand code = t.complete := by
  have hb : (s.accept code).budget = s.budget := rfl
  rw [State.runCommand, State.resume, hb, h.run ht hn, State.settleSeq, ht]
  rfl

/-- A command of straight pseudocode completes in one step when nobody looks in before. -/
theorem State.runCommand_straight {s : State} {code : List Micro} (hc : Straight code) (hn : code.length ≤ fullRun)
    (hl : s.look = none) :
    s.runCommand code = ({ runCode code (s.accept code) with todo := [] }).complete :=
  State.runCommand_completes (Leads.code hc (by simp)) rfl (by rw [State.budget_full hl]; exact hn)

/-- The same, with the pseudocode run from `s` itself: acceptance and completion only touch SEQ, `todo`, `done` and
`textBase`. -/
theorem State.runCommand_straight_todo {s : State} {code : List Micro} (hc : Straight code) (hn : code.length ≤ fullRun)
    (hl : s.look = none) :
    s.runCommand code = (runCode code { s with seq := .busy, todo := [], done := false }).complete := by
  rw [State.runCommand_straight hc hn hl, ← runCode_withTodo hc]
  rfl

/-! ### The pseudocode of the operations is straight -/

theorem straight_append {a b : List Micro} (ha : Straight a) (hb : Straight b) : Straight (a ++ b) := by
  simp only [Straight, List.all_append, Bool.and_eq_true] at *
  exact ⟨ha, hb⟩

theorem straight_flatMap {α : Type} {l : List α} {f : α → List Micro} (h : ∀ a ∈ l, Straight (f a)) :
    Straight (l.flatMap f) := by
  simp only [Straight, List.all_flatMap, List.all_eq_true] at *
  exact h

theorem pinCode_straight (p : Pin) (level : Bool) (hold : Hold) : Straight (pinCode p level hold) := by
  cases hold <;> rfl

theorem startCode_straight : Straight startCode := rfl

theorem sendBits_straight (value : Word) (n : Nat) : Straight (sendBits value n) := by
  induction n with
  | zero => rfl
  | succ n ih => exact straight_append rfl ih

theorem writeBitsCode_straight (value : Word) (n : Nat) : Straight (writeBitsCode value n) :=
  straight_append (sendBits_straight value n) rfl

theorem readBits_straight (n : Nat) : Straight (readBits n) := by
  induction n with
  | zero => rfl
  | succ n ih => exact straight_append rfl ih

theorem readWordCode_straight : Straight readWordCode := rfl

theorem readFrameCode_straight (a : Word) : Straight (readFrameCode a) :=
  straight_append (straight_append rfl (writeBitsCode_straight _ _)) (writeBitsCode_straight a _)

theorem readWordAtCode_straight (a : Word) : Straight (readWordAtCode a) :=
  straight_append (straight_append (readFrameCode_straight a) readWordCode_straight) rfl

theorem readsFrom_straight (a n : Nat) : Straight (readsFrom a n) := by
  induction n generalizing a with
  | zero => rfl
  | succ n ih => exact straight_append (readWordAtCode_straight _) (ih _)

theorem readRangeCode_straight (first last : EeAddr) : Straight (readRangeCode first last) := by
  unfold readRangeCode
  split
  · exact readsFrom_straight _ _
  · exact readWordAtCode_straight _

theorem shiftByteCode_straight (value : Byte) (dir : Direction) : Straight (shiftByteCode value dir) :=
  straight_flatMap (fun _ _ => rfl)

theorem cascadeCode_straight (b0 b1 : Byte) : Straight (cascadeCode b0 b1) :=
  straight_append (straight_append (shiftByteCode_straight _ _) (shiftByteCode_straight _ _)) rfl

theorem loadOne_straight (addr : Word) (j : Nat) : Straight (loadOne addr j) := by
  unfold loadOne
  split
  · exact straight_append (readWordAtCode_straight _) rfl
  · rfl

theorem loadCode_straight (addr : Word) (cc : Byte) : Straight (loadCode addr cc) :=
  straight_flatMap (fun j _ => loadOne_straight addr j)

/-! ### Lengths, in micro-operations -/

@[simp] theorem pinCode_length (p : Pin) (level : Bool) (hold : Hold) : (pinCode p level hold).length ≤ 2 := by
  cases hold <;> simp [pinCode, holdDuration]

@[simp] theorem sendBits_length (value : Word) (n : Nat) : (sendBits value n).length = 5 * n := by
  induction n with
  | zero => rfl
  | succ n ih => simp [sendBits, sendBit, ih]; omega

@[simp] theorem writeBitsCode_length (value : Word) (n : Nat) : (writeBitsCode value n).length = 5 * n + 1 := by
  simp [writeBitsCode]

@[simp] theorem readWordCode_length : readWordCode.length = 82 := rfl

@[simp] theorem readWordAtCode_length (a : Word) : (readWordAtCode a).length = 153 := by
  simp [readWordAtCode, readFrameCode, releaseCode, startCode, Config.config]

@[simp] theorem readsFrom_length (a n : Nat) : (readsFrom a n).length = 153 * n := by
  induction n generalizing a with
  | zero => rfl
  | succ n ih => simp [readsFrom, ih]; omega

theorem readRangeCode_length (first last : EeAddr) : (readRangeCode first last).length ≤ 153 * 512 := by
  unfold readRangeCode
  split
  · rw [readsFrom_length]; omega
  · simp

@[simp] theorem shiftByteCode_length (value : Byte) (dir : Direction) : (shiftByteCode value dir).length = 40 := rfl

@[simp] theorem cascadeCode_length (b0 b1 : Byte) : (cascadeCode b0 b1).length = 83 := by
  simp [cascadeCode, latchCode]

theorem loadCode_length (addr : Word) (cc : Byte) : (loadCode addr cc).length ≤ 154 * (cc.toNat + 1) := by
  unfold loadCode
  generalize cc.toNat + 1 = n
  induction n with
  | zero => simp
  | succ n ih =>
    have h : (loadOne addr n).length ≤ 154 := by unfold loadOne; split <;> simp
    rw [List.range_succ, List.flatMap_append, List.length_append]
    simp only [List.flatMap_cons, List.flatMap_nil, List.append_nil]
    omega

end Sys2Proof.Machine
end

