-- ==== Sys2Proof/Laws/EepromBus.lean ====
section
/-! SUPPORT. What the EEPROM driver's pseudocode does: its frame, its pins, its trace, the word it assembles, and, with the
reference EEPROM on the wires, which word that is (spec/41_eeprom.md, spec/20_memory.md R56). -/

namespace Sys2Proof.Machine

/-! ### Frame -/

/-- A micro-operation that touches only the EEPROM's wires, RESULT and the sampling. -/
def Micro.eeBus : Micro → Bool
  | .drive .eeSel _ => true
  | .drive .eeClk _ => true
  | .drive .eeDout _ => true
  | .settle _ => true
  | .clearWord => true
  | .sample _ => true
  | .result => true
  | _ => false

/-- The control state the sequencer keeps while it runs straight pseudocode. -/
structure SameControl (s t : State) : Prop where
  seq : t.seq = s.seq
  todo : t.todo = s.todo
  done : t.done = s.done
  textBase : t.textBase = s.textBase

theorem OnlyEepromBus.refl (s : State) : OnlyEepromBus s s := by constructor <;> rfl

theorem OnlyEepromBus.trans {s t u : State} (h : OnlyEepromBus s t) (h' : OnlyEepromBus t u) : OnlyEepromBus s u := by
  constructor
  · rw [h'.srClk, h.srClk]
  · rw [h'.srData, h.srData]
  · rw [h'.srLatch, h.srLatch]
  · rw [h'.faddr, h.faddr]
  · rw [h'.cbuf, h.cbuf]
  · rw [h'.txtptr, h.txtptr]
  · rw [h'.fcause, h.fcause]
  · rw [h'.finfo, h.finfo]
  · rw [h'.resetSeen, h.resetSeen]
  · rw [h'.chain, h.chain]
  · rw [h'.out, h.out]
  · rw [h'.txt, h.txt]
  · rw [h'.ee, h.ee]
  · rw [h'.eeRef, h.eeRef]
  · rw [h'.host, h.host]
  · rw [h'.look, h.look]

theorem perform_onlyEepromBus {m : Micro} (h : m.eeBus = true) (s : State) : OnlyEepromBus s (perform m s) := by
  cases m with
  | drive p v =>
    cases p <;> first | (exact Bool.noConfusion h) | (constructor <;> rfl)
  | settle d => constructor <;> rfl
  | clearWord => constructor <;> rfl
  | sample i => constructor <;> rfl
  | result => constructor <;> rfl
  | _ => exact Bool.noConfusion h

theorem runCode_onlyEepromBus {code : List Micro} (h : code.all Micro.eeBus = true) (s : State) :
    OnlyEepromBus s (runCode code s) := by
  induction code generalizing s with
  | nil => exact OnlyEepromBus.refl s
  | cons m code ih =>
    simp only [List.all_cons, Bool.and_eq_true] at h
    exact (perform_onlyEepromBus h.1 s).trans (ih h.2 _)

theorem perform_sameControl {m : Micro} (h : m.straight = true) (s : State) : SameControl s (perform m s) := by
  cases m <;> first | (exact Bool.noConfusion h) | (constructor <;> rfl)

theorem runCode_sameControl {code : List Micro} (h : Straight code) (s : State) : SameControl s (runCode code s) := by
  induction code generalizing s with
  | nil => constructor <;> rfl
  | cons m code ih =>
    simp only [Straight, List.all_cons, Bool.and_eq_true] at h
    have h1 := perform_sameControl h.1 s
    have h2 := ih h.2 (perform m s)
    exact ⟨by rw [runCode_cons, h2.seq, h1.seq], by rw [runCode_cons, h2.todo, h1.todo],
      by rw [runCode_cons, h2.done, h1.done], by rw [runCode_cons, h2.textBase, h1.textBase]⟩

theorem all_append' {p : Micro → Bool} {a b : List Micro} (ha : a.all p = true) (hb : b.all p = true) :
    (a ++ b).all p = true := by
  rw [List.all_append, ha, hb]; rfl

theorem startCode_eeBus : startCode.all Micro.eeBus = true := rfl

theorem sendBits_eeBus (v : Word) (n : Nat) : (sendBits v n).all Micro.eeBus = true := by
  induction n with
  | zero => rfl
  | succ n ih => exact all_append' rfl ih

theorem writeBitsCode_eeBus (v : Word) (n : Nat) : (writeBitsCode v n).all Micro.eeBus = true :=
  all_append' (sendBits_eeBus v n) rfl

theorem readWordCode_eeBus : readWordCode.all Micro.eeBus = true := rfl

theorem readFrameCode_eeBus (a : Word) : (readFrameCode a).all Micro.eeBus = true :=
  all_append' (all_append' rfl (writeBitsCode_eeBus _ _)) (writeBitsCode_eeBus a _)

theorem readWordAtCode_eeBus (a : Word) : (readWordAtCode a).all Micro.eeBus = true :=
  all_append' (all_append' (readFrameCode_eeBus a) rfl) rfl

theorem readsFrom_eeBus (a n : Nat) : (readsFrom a n).all Micro.eeBus = true := by
  induction n generalizing a with
  | zero => rfl
  | succ n ih => exact all_append' (readWordAtCode_eeBus _) (ih _)

theorem readRangeCode_eeBus (first last : EeAddr) : (readRangeCode first last).all Micro.eeBus = true := by
  unfold readRangeCode
  split
  · exact readsFrom_eeBus _ _
  · exact readWordAtCode_eeBus _

/-! ### `startCondition()` -/

/-- The device after a start bit: it has taken it and waits for the opcode (R56). -/
def Eeprom.started (d : Eeprom) : Eeprom := { d with phase := .cmd, sh := [] }

theorem startCode_trace (s : State) : (runCode startCode s).trace = s.trace ++ startTrace := by
  simp [startCode, perform, State.trace, startTrace]

theorem startCode_eeSel (s : State) : (runCode startCode s).pins.eeSel = true := rfl
theorem startCode_eeClk (s : State) : (runCode startCode s).pins.eeClk = false := rfl
theorem startCode_eeDout (s : State) : (runCode startCode s).pins.eeDout = true := rfl
theorem startCode_result (s : State) : (runCode startCode s).result = s.result := rfl
theorem startCode_work (s : State) : (runCode startCode s).work = s.work := rfl
theorem startCode_din (s : State) : (runCode startCode s).din = s.din := rfl
theorem startCode_draws (s : State) : (runCode startCode s).draws = s.draws := rfl
theorem startCode_eeprom (s : State) : (runCode startCode s).eeprom = s.eeprom.started := rfl

/-! ### `writeBits` -/

theorem msbBits_length (v : Word) (n : Nat) : (msbBits v n).length = n := by
  induction n with
  | zero => rfl
  | succ n ih => simp [msbBits, ih]

theorem sendBits_log (v : Word) (n : Nat) (s : State) : (runCode (sendBits v n) s).log.reverse
    = s.log.reverse ++ (msbBits v n).flatMap (fun b =>
        [.drive .eeDout b, .settle .short, .drive .eeClk true, .settle .short, .drive .eeClk false]) := by
  induction n generalizing s with
  | zero => simp [sendBits, msbBits]
  | succ n ih => simp [sendBits, sendBit, msbBits, ih, perform]

theorem writeBitsCode_trace (v : Word) (n : Nat) (s : State) :
    (runCode (writeBitsCode v n) s).trace = s.trace ++ sendTrace (msbBits v n) := by
  simp only [writeBitsCode, runCode_append, runCode_cons, runCode_nil, perform, State.trace_drive, sendTrace]
  rw [State.trace, sendBits_log, State.trace, List.append_assoc]

/-- What the device makes of bits clocked in while it is selected (R56). -/
def Eeprom.clockBits (d : Eeprom) (bits : List Bool) (ee : List (Nat × Word)) : Eeprom :=
  bits.foldl (fun d b => d.clock b ee) d

/-- The state of the bus in the middle of a transaction: selected, clock low. -/
structure Selected (s : State) : Prop where
  sel : s.pins.eeSel = true
  clk : s.pins.eeClk = false

theorem sendBit_selected {s : State} (h : Selected s) (b : Bool) : Selected (runCode (sendBit b) s) := ⟨h.sel, rfl⟩

theorem sendBit_eeprom {s : State} (h : Selected s) (b : Bool) :
    (runCode (sendBit b) s).eeprom = s.eeprom.clock b s.ee := by
  simp [sendBit, perform, Eeprom.afterDrive, Eeprom.see, Pins.set, Pins.rises, Pins.get, h.sel, h.clk]

theorem sendBits_selected {s : State} (h : Selected s) (v : Word) (n : Nat) : Selected (runCode (sendBits v n) s) := by
  induction n generalizing s with
  | zero => exact h
  | succ n ih => rw [sendBits, runCode_append]; exact ih (sendBit_selected h _)

theorem sendBits_eeprom {s : State} (h : Selected s) (v : Word) (n : Nat) :
    (runCode (sendBits v n) s).eeprom = s.eeprom.clockBits (msbBits v n) s.ee := by
  induction n generalizing s with
  | zero => rfl
  | succ n ih =>
    rw [sendBits, runCode_append, ih (sendBit_selected h _), sendBit_eeprom h,
      (runCode_onlyEepromBus (code := sendBit _) rfl s).ee]
    rfl

theorem writeBitsCode_selected {s : State} (h : Selected s) (v : Word) (n : Nat) :
    Selected (runCode (writeBitsCode v n) s) := by
  rw [writeBitsCode, runCode_append]
  exact ⟨(sendBits_selected h v n).sel, (sendBits_selected h v n).clk⟩

theorem writeBitsCode_eeprom {s : State} (h : Selected s) (v : Word) (n : Nat) :
    (runCode (writeBitsCode v n) s).eeprom = s.eeprom.clockBits (msbBits v n) s.ee := by
  rw [writeBitsCode, runCode_append, ← sendBits_eeprom h v n]
  simp [perform, Eeprom.afterDrive, Eeprom.see, Pins.set, (sendBits_selected h v n).sel]

theorem sendBits_keeps (v : Word) (n : Nat) (s : State) :
    (runCode (sendBits v n) s).result = s.result ∧ (runCode (sendBits v n) s).work = s.work ∧
    (runCode (sendBits v n) s).din = s.din ∧ (runCode (sendBits v n) s).draws = s.draws ∧
    (runCode (sendBits v n) s).pins.eeSel = s.pins.eeSel := by
  induction n generalizing s with
  | zero => exact ⟨rfl, rfl, rfl, rfl, rfl⟩
  | succ n ih => rw [sendBits, runCode_append]; exact ih _

/-- At the end of `writeBits` the clock and the data line are low and the select line is untouched (R101). -/
theorem writeBitsCode_pins (v : Word) (n : Nat) (s : State) (hn : 0 < n) :
    (runCode (writeBitsCode v n) s).pins.eeSel = s.pins.eeSel ∧ (runCode (writeBitsCode v n) s).pins.eeClk = false ∧
    (runCode (writeBitsCode v n) s).pins.eeDout = false := by
  rw [writeBitsCode, runCode_append]
  refine ⟨(sendBits_keeps v n s).2.2.2.2, ?_, rfl⟩
  show (runCode (sendBits v n) s).pins.eeClk = false
  obtain ⟨n, rfl⟩ := Nat.exists_eq_succ_of_ne_zero (Nat.pos_iff_ne_zero.1 hn)
  clear hn
  induction n generalizing s with
  | zero => rfl
  | succ n ih => rw [sendBits, runCode_append]; exact ih _

theorem writeBitsCode_keeps (v : Word) (n : Nat) (s : State) :
    (runCode (writeBitsCode v n) s).result = s.result ∧ (runCode (writeBitsCode v n) s).work = s.work ∧
    (runCode (writeBitsCode v n) s).din = s.din ∧ (runCode (writeBitsCode v n) s).draws = s.draws := by
  rw [writeBitsCode, runCode_append]
  have h := sendBits_keeps v n s
  exact ⟨h.1, h.2.1, h.2.2.1, h.2.2.2.1⟩

/-! ### The READ frame -/

theorem bitsToNat_append (a b : List Bool) : bitsToNat (a ++ b) = bitsToNat a * 2 ^ b.length + bitsToNat b := by
  have aux : ∀ (l : List Bool) (n : Nat), l.foldl (fun n b => 2 * n + b.toNat) n = n * 2 ^ l.length + bitsToNat l := by
    intro l
    induction l with
    | nil => intro n; simp [bitsToNat]
    | cons b l ih =>
      intro n
      have hb : bitsToNat (b :: l) = b.toNat * 2 ^ l.length + bitsToNat l := by
        rw [bitsToNat, List.foldl_cons, ih]
        simp
      rw [List.foldl_cons, ih, hb, List.length_cons, Nat.pow_succ]
      ring
  rw [bitsToNat, List.foldl_append, aux]
  rfl

theorem bitsToNat_cons (b : Bool) (l : List Bool) : bitsToNat (b :: l) = b.toNat * 2 ^ l.length + bitsToNat l := by
  rw [← List.singleton_append, bitsToNat_append]
  simp [bitsToNat]

/-- The low bits of a word, read as a number, are its value modulo a power of two. -/
theorem bitsToNat_msbBits (v : Word) (n : Nat) : bitsToNat (msbBits v n) = v.toNat % 2 ^ n := by
  induction n with
  | zero => simp [msbBits, bitsToNat, Nat.mod_one]
  | succ n ih =>
    rw [msbBits, bitsToNat_cons, msbBits_length, ih, BitVec.getLsbD, Nat.mod_pow_succ, Nat.testBit_eq_decide_div_mod_eq]
    rcases Nat.mod_two_eq_zero_or_one (v.toNat / 2 ^ n) with h | h <;> simp [h]
    omega

/-- The device in its data phase: the word of the address, its first bit on the line (R56). -/
def Eeprom.serving (d : Eeprom) (w : Word) : Eeprom :=
  { d with phase := .data, word := w, q := 0 }

theorem msbBits_nine (v : Word) : msbBits v 9 = [v.getLsbD 8, v.getLsbD 7, v.getLsbD 6, v.getLsbD 5, v.getLsbD 4,
    v.getLsbD 3, v.getLsbD 2, v.getLsbD 1, v.getLsbD 0] := rfl

theorem ofNat_mod_512 (v : Word) : BitVec.ofNat 9 (v.toNat % 2 ^ 9) = wireAddr v := by
  apply BitVec.eq_of_toNat_eq
  simp [wireAddr]

/-- The whole frame, seen by the reference device (R56, R77): it presents the word of the nine address bits. -/
theorem clockBits_frame (d : Eeprom) (v : Word) (ee : List (Nat × Word)) :
    ∃ sh, ((d.started.clockBits (msbBits (Config.config.readOpcode.setWidth 16) Config.config.opcW) ee).clockBits
      (msbBits v Config.config.addrW) ee) = { d with phase := .data, sh := sh, word := eeRead ee (wireAddr v), q := 0 } := by
  have h := bitsToNat_msbBits v 9
  rw [msbBits_nine] at h
  have ho : msbBits (Config.config.readOpcode.setWidth 16) Config.config.opcW = [true, false] := by decide
  have ha : msbBits v Config.config.addrW = msbBits v 9 := rfl
  refine ⟨[true, false] ++ msbBits v 9, ?_⟩
  rw [ho, ha, msbBits_nine, ← ofNat_mod_512, ← h]
  simp only [Eeprom.clockBits, List.foldl_cons, List.foldl_nil, Eeprom.clock, Eeprom.started, Eeprom.decideFrame, frameBits,
    Config.config, List.nil_append, List.cons_append, List.length_cons, List.length_nil, Nat.zero_add, Nat.reduceAdd,
    Nat.reduceEqDiff, if_false, if_true, List.take_succ_cons, List.take_zero, List.drop_succ_cons, List.drop_zero]
  rfl

/-! ### `readWord()` -/

/-- The levels the next `n` samples of `readWord` take, first sample first. -/
def takenBits : Nat → State → List Bool
  | 0, _ => []
  | n + 1, s => (runCode [.drive .eeClk false, .settle .short] s).sampleLevel :: takenBits n (runCode (readBit n) s)

theorem takenBits_length (n : Nat) (s : State) : (takenBits n s).length = n := by
  induction n generalizing s with
  | zero => rfl
  | succ n ih => simp [takenBits, ih]

theorem readBits_trace (n : Nat) (s : State) :
    (runCode (readBits n) s).trace = s.trace ++ sampleTrace (takenBits n s) := by
  induction n generalizing s with
  | zero => simp [readBits, takenBits, sampleTrace]
  | succ n ih =>
    rw [readBits, runCode_append, ih]
    simp [readBit, perform, takenBits, sampleTrace, State.trace]

theorem setBit_getLsbD (w : Word) (i : Nat) (b : Bool) (j : Nat) (hi : i < 16) :
    (setBit w i b).getLsbD j = if j = i then b else w.getLsbD j := by
  unfold setBit
  by_cases hj : j < 16
  · by_cases h : j = i
    · subst h; cases b <;> simp [hj]
    · cases b <;> simp [h, hj]
  · have h : j ≠ i := by omega
    rw [if_neg h, BitVec.getLsbD_of_ge _ _ (by omega), BitVec.getLsbD_of_ge _ _ (by omega)]

/-- The assembled word: the bits above are as before, below they are the samples, most significant first (R102). -/
theorem readBits_work (n : Nat) (hn : n ≤ 16) (s : State) (j : Nat) :
    (runCode (readBits n) s).work.getLsbD j =
      if j < n then (takenBits n s).getD (n - 1 - j) false else s.work.getLsbD j := by
  induction n generalizing s with
  | zero => simp [readBits]
  | succ n ih =>
    have hw : (runCode (readBit n) s).work =
        setBit s.work n (runCode [.drive .eeClk false, .settle .short] s).sampleLevel := rfl
    rw [readBits, runCode_append, ih (by omega), hw, setBit_getLsbD _ _ _ _ (by omega), takenBits]
    by_cases h1 : j < n
    · rw [if_pos h1, if_pos (by omega), show n + 1 - 1 - j = (n - 1 - j) + 1 by omega, List.getD_cons_succ]
    · rw [if_neg h1]
      by_cases h2 : j = n
      · subst h2; simp
      · rw [if_neg h2, if_neg (by omega)]

theorem msbBits_getD (v : Word) (n k : Nat) (h : k < n) : (msbBits v n).getD k false = v.getLsbD (n - 1 - k) := by
  induction n generalizing k with
  | zero => omega
  | succ n ih =>
    cases k with
    | zero => simp [msbBits]
    | succ k => rw [msbBits, List.getD_cons_succ, ih k (by omega)]; congr 1; omega

/-- Sixteen bits and the word they make determine each other. -/
theorem msbBits_of_getLsbD (v : Word) (l : List Bool) (hl : l.length = 16)
    (h : ∀ j, j < 16 → v.getLsbD j = l.getD (15 - j) false) : msbBits v 16 = l := by
  apply List.ext_getElem
  · rw [msbBits_length, hl]
  · intro k h1 h2
    have hk : k < 16 := by rw [msbBits_length] at h1; exact h1
    have e1 := msbBits_getD v 16 k hk
    have e2 := h (15 - k) (by omega)
    rw [show 15 - (15 - k) = k by omega] at e2
    rw [show 16 - 1 - k = 15 - k by omega] at e1
    have := e1.trans e2
    simpa [List.getD_eq_getElem?_getD, List.getElem?_eq_getElem h1, List.getElem?_eq_getElem h2] using this

/-- The word `readWord()` assembles in `s`. -/
def readValue (s : State) : Word := (runCode readWordCode s).result

theorem readWordCode_eq (s : State) :
    runCode readWordCode s = (runCode (readBits 16) { s with work := 0 }).putResult := rfl

/-- The samples of `readWord` are the bits of the word it assembles, most significant first (R78, R102). -/
theorem readValue_bits (s : State) : msbBits (readValue s) 16 = takenBits 16 { s with work := 0 } := by
  apply msbBits_of_getLsbD _ _ (takenBits_length 16 _)
  intro j hj
  show (runCode (readBits 16) { s with work := 0 }).work.getLsbD j = _
  rw [readBits_work 16 (Nat.le_refl _), if_pos hj]

theorem readWordCode_trace (s : State) : (runCode readWordCode s).trace = s.trace ++ readTrace (readValue s) := by
  rw [readTrace, readValue_bits, readWordCode_eq, State.trace_putResult, readBits_trace, List.append_assoc]
  rfl

theorem readWordCode_result (s : State) : (runCode readWordCode s).result = readValue s := rfl

theorem readWordCode_work (s : State) : (runCode readWordCode s).work = readValue s := rfl

theorem readBits_pins (n : Nat) (s : State) (hn : 0 < n) : (runCode (readBits n) s).pins.eeClk = true ∧
    (runCode (readBits n) s).pins.eeSel = s.pins.eeSel ∧ (runCode (readBits n) s).pins.eeDout = s.pins.eeDout := by
  induction n generalizing s with
  | zero => omega
  | succ n ih =>
    rw [readBits, runCode_append]
    rcases Nat.eq_zero_or_pos n with h | h
    · subst h; exact ⟨rfl, rfl, rfl⟩
    · exact ih _ h

/-- The clock is left high, the other EEPROM lines untouched (R102). -/
theorem readWordCode_pins (s : State) : (runCode readWordCode s).pins.eeClk = true ∧
    (runCode readWordCode s).pins.eeSel = s.pins.eeSel ∧ (runCode readWordCode s).pins.eeDout = s.pins.eeDout := by
  have h := readBits_pins 16 { s with work := 0 } (by omega)
  rwa [← State.putResult_pins, ← readWordCode_eq] at h

/-! #### Where the samples come from -/

/-- A state whose samples no device answers. -/
theorem sampleLevel_free {s : State} (h : s.eeRef = false) : s.sampleLevel = s.din.headD (Config.freeSample s.draws) := by
  simp [State.sampleLevel, State.deviceLevel, h]

theorem readBit_din {s : State} (h : s.eeRef = false) (n : Nat) : (runCode (readBit n) s).din = s.din.tail := by
  simp [readBit, perform, State.afterSample, State.deviceLevel, h]

/-- With no device on the line the samples are the next inputs (R8, log entry 7). -/
theorem takenBits_din (n : Nat) {s : State} (h : s.eeRef = false) (bits rest : List Bool) (hl : bits.length = n)
    (hd : s.din = bits ++ rest) : takenBits n s = bits ∧ (runCode (readBits n) s).din = rest := by
  induction n generalizing s bits with
  | zero =>
    cases bits with
    | nil => exact ⟨rfl, hd⟩
    | cons b bits => simp at hl
  | succ n ih =>
    cases bits with
    | nil => simp at hl
    | cons b bits =>
      have hr : (runCode (readBit n) s).eeRef = false := h
      have hd' : (runCode (readBit n) s).din = bits ++ rest := by rw [readBit_din h, hd]; rfl
      obtain ⟨h1, h2⟩ := ih hr bits (by simpa using hl) hd'
      refine ⟨?_, by rw [readBits, runCode_append]; exact h2⟩
      rw [takenBits, h1]
      congr 1
      have h0 : (runCode [.drive .eeClk false, .settle .short] s).eeRef = false := h
      rw [sampleLevel_free h0]
      show s.din.headD _ = b
      rw [hd]; rfl

theorem readWordCode_din {s : State} (h : s.eeRef = false) (w : Word) (rest : List Bool)
    (hd : s.din = msbBits w 16 ++ rest) : readValue s = w ∧ (runCode readWordCode s).din = rest := by
  obtain ⟨h1, h2⟩ := takenBits_din 16 (s := { s with work := 0 }) h (msbBits w 16) rest (msbBits_length w 16) hd
  refine ⟨?_, by rw [readWordCode_eq, State.putResult_din, h2]⟩
  have hb := readValue_bits s
  rw [h1] at hb
  apply BitVec.eq_of_getLsbD_eq
  intro i hi
  have e1 := msbBits_getD (readValue s) 16 (15 - i) (by omega)
  have e2 := msbBits_getD w 16 (15 - i) (by omega)
  rw [hb, e2] at e1
  rw [show 16 - 1 - (15 - i) = i by omega] at e1
  exact e1.symm

/-- The bus with the reference device answering bit `n - 1` of its word next. -/
structure Serving (w : Word) (n : Nat) (s : State) : Prop where
  attached : s.eeRef = true
  sel : s.pins.eeSel = true
  phase : s.eeprom.phase = .data
  word : s.eeprom.word = w
  q : s.eeprom.q = 16 - n

theorem readBit_serving {w : Word} {n : Nat} {s : State} (h : Serving w (n + 1) s) (hn : n + 1 ≤ 16) :
    Serving w n (runCode (readBit n) s) ∧
    (runCode [.drive .eeClk false, .settle .short] s).sampleLevel = w.getLsbD n ∧
    (runCode (readBit n) s).din = s.din ∧ (runCode (readBit n) s).draws = s.draws := by
  have he : (s.drive .eeClk false).eeprom = s.eeprom := by
    simp [Eeprom.afterDrive, Eeprom.see, Pins.set, Pins.rises, h.sel]
  have hlev : (s.drive .eeClk false).deviceLevel = some (w.getLsbD n) := by
    rw [State.deviceLevel, he]
    simp only [State.drive_eeRef, h.attached, if_true, Eeprom.answer, h.phase, h.q, h.word, Config.config]
    rw [if_pos ⟨trivial, by omega⟩]
    congr 2; omega
  refine ⟨⟨h.attached, h.sel, ?_, ?_, ?_⟩, ?_, ?_, ?_⟩
  · simp [readBit, perform, Eeprom.afterDrive, Eeprom.see, Pins.set, Pins.rises, Pins.get, h.sel, Eeprom.clock, h.phase]
  · simp [readBit, perform, Eeprom.afterDrive, Eeprom.see, Pins.set, Pins.rises, Pins.get, h.sel, Eeprom.clock, h.phase,
      h.word]
  · simp [readBit, perform, Eeprom.afterDrive, Eeprom.see, Pins.set, Pins.rises, Pins.get, h.sel, Eeprom.clock, h.phase,
      h.q, Config.config]
    omega
  · show (s.drive .eeClk false).deviceLevel.getD _ = _
    rw [hlev]; rfl
  · show (if (s.drive .eeClk false).deviceLevel.isSome then s.din else s.din.tail) = s.din
    rw [hlev]; rfl
  · show (if (s.drive .eeClk false).deviceLevel.isSome || !s.din.isEmpty then s.draws else s.draws + 1) = s.draws
    rw [hlev]; rfl

theorem takenBits_serving (n : Nat) {w : Word} {s : State} (h : Serving w n s) (hn : n ≤ 16) :
    takenBits n s = msbBits w n ∧ (runCode (readBits n) s).din = s.din ∧ (runCode (readBits n) s).draws = s.draws := by
  induction n generalizing s with
  | zero => exact ⟨rfl, rfl, rfl⟩
  | succ n ih =>
    obtain ⟨h1, h2, h3, h4⟩ := readBit_serving h hn
    obtain ⟨h5, h6, h7⟩ := ih h1 (by omega)
    exact ⟨by rw [takenBits, msbBits, h5, h2], by rw [readBits, runCode_append, h6, h3],
      by rw [readBits, runCode_append, h7, h4]⟩

theorem readWordCode_serving {w : Word} {s : State} (h : Serving w 16 s) :
    readValue s = w ∧ (runCode readWordCode s).din = s.din ∧ (runCode readWordCode s).draws = s.draws := by
  obtain ⟨h1, h2, h3⟩ := takenBits_serving 16 (w := w) (s := { s with work := 0 })
    ⟨h.attached, h.sel, h.phase, h.word, h.q⟩ (Nat.le_refl _)
  refine ⟨?_, by rw [readWordCode_eq, State.putResult_din, h2], by rw [readWordCode_eq, State.putResult_draws, h3]⟩
  have hb := readValue_bits s
  rw [h1] at hb
  apply BitVec.eq_of_getLsbD_eq
  intro i hi
  have e1 := msbBits_getD (readValue s) 16 (15 - i) (by omega)
  have e2 := msbBits_getD w 16 (15 - i) (by omega)
  rw [hb, e2] at e1
  rw [show 16 - 1 - (15 - i) = i by omega] at e1
  exact e1.symm

/-! ### `readWordAt` -/

/-- The word `readWordAt(a)` returns in `s`. -/
def readAtValue (a : Word) (s : State) : Word := (runCode (readWordAtCode a) s).result

theorem readWordAtCode_result (a : Word) (s : State) : (runCode (readWordAtCode a) s).result = readAtValue a s := rfl

theorem readWordAtCode_eq (a : Word) (s : State) : runCode (readWordAtCode a) s =
    runCode releaseCode (runCode readWordCode (runCode (readFrameCode a) s)) := by
  rw [readWordAtCode, runCode_append, runCode_append]

theorem releaseCode_eq (s : State) :
    runCode releaseCode s = ((s.emit (.settle .postread)).drive .eeSel false).drive .eeDout false := rfl

theorem releaseCode_pins (s : State) : (runCode releaseCode s).pins.eeSel = false ∧
    (runCode releaseCode s).pins.eeClk = s.pins.eeClk ∧ (runCode releaseCode s).pins.eeDout = false := ⟨rfl, rfl, rfl⟩

theorem releaseCode_phase (s : State) : (runCode releaseCode s).eeprom.phase = .idle := rfl

theorem readAtValue_eq (a : Word) (s : State) : readAtValue a s = readValue (runCode (readFrameCode a) s) := by
  simp only [readAtValue, readWordAtCode_eq, releaseCode_eq, State.drive_result, State.emit_result, readWordCode_result]

theorem readWordAtCode_work (a : Word) (s : State) : (runCode (readWordAtCode a) s).work = readAtValue a s := by
  simp only [readAtValue_eq, readWordAtCode_eq, releaseCode_eq, State.drive_work, State.emit_work, readWordCode_work]

theorem readFrameCode_selected (a : Word) (s : State) : Selected (runCode (readFrameCode a) s) := by
  rw [readFrameCode, runCode_append, runCode_append]
  exact writeBitsCode_selected (writeBitsCode_selected ⟨rfl, rfl⟩ _ _) _ _

/-- Only the nine low bits of the address reach the wire (R57). -/
theorem readFrameCode_trace (a : Word) (s : State) :
    (runCode (readFrameCode a) s).trace = s.trace ++ frameTrace (wireAddr a) := by
  have h9 : msbBits (zext16 (wireAddr a)) 9 = msbBits a 9 := by
    simp only [msbBits_nine, zext16, wireAddr, BitVec.getLsbD_setWidth]
    simp
  rw [readFrameCode, runCode_append, runCode_append, writeBitsCode_trace, writeBitsCode_trace, startCode_trace]
  simp only [frameTrace, h9, List.append_assoc]
  rfl

theorem readFrameCode_keeps (a : Word) (s : State) :
    (runCode (readFrameCode a) s).result = s.result ∧ (runCode (readFrameCode a) s).work = s.work ∧
    (runCode (readFrameCode a) s).din = s.din ∧ (runCode (readFrameCode a) s).draws = s.draws := by
  rw [readFrameCode, runCode_append, runCode_append]
  have h1 := writeBitsCode_keeps a Config.config.addrW
    (runCode (writeBitsCode (Config.config.readOpcode.setWidth 16) Config.config.opcW) (runCode startCode s))
  have h2 := writeBitsCode_keeps (Config.config.readOpcode.setWidth 16) Config.config.opcW (runCode startCode s)
  exact ⟨h1.1.trans h2.1, h1.2.1.trans h2.2.1, h1.2.2.1.trans h2.2.2.1, h1.2.2.2.trans h2.2.2.2⟩

/-- The reference device after the READ frame: it serves the addressed word (R56). -/
theorem readFrameCode_eeprom (a : Word) (s : State) : ∃ sh, (runCode (readFrameCode a) s).eeprom
    = { s.eeprom with phase := .data, sh := sh, word := eeRead s.ee (wireAddr a), q := 0 } := by
  have h1 : Selected (runCode startCode s) := ⟨rfl, rfl⟩
  have h2 := writeBitsCode_selected h1 (Config.config.readOpcode.setWidth 16) Config.config.opcW
  rw [readFrameCode, runCode_append, runCode_append, writeBitsCode_eeprom h2, writeBitsCode_eeprom h1]
  rw [(runCode_onlyEepromBus (writeBitsCode_eeBus _ _) (runCode startCode s)).ee]
  exact clockBits_frame s.eeprom a s.ee

theorem readFrameCode_dout (a : Word) (s : State) : (runCode (readFrameCode a) s).pins.eeDout = false := by
  rw [readFrameCode, runCode_append]
  exact (writeBitsCode_pins a Config.config.addrW _ (by decide)).2.2

/-- The trace of one read transaction: the frame of the nine address bits, the sixteen samples, the release (R103). -/
theorem readWordAtCode_trace (a : Word) (s : State) :
    (runCode (readWordAtCode a) s).trace = s.trace ++ readAtTrace (wireAddr a) (readAtValue a s) := by
  rw [readAtValue_eq, readWordAtCode_eq]
  have h : ∀ t : State, (runCode releaseCode t).trace
      = t.trace ++ [.settle .postread, .drive .eeSel false, .drive .eeDout false] := fun t => by
    simp [releaseCode, perform, State.trace]
  rw [h, readWordCode_trace, readFrameCode_trace, readAtTrace]
  simp only [List.append_assoc]

/-- The bus after a transaction: released, the clock high (R103, R105). -/
theorem readWordAtCode_pins (a : Word) (s : State) : (runCode (readWordAtCode a) s).pins.eeSel = false ∧
    (runCode (readWordAtCode a) s).pins.eeClk = true ∧ (runCode (readWordAtCode a) s).pins.eeDout = false := by
  rw [readWordAtCode_eq, (releaseCode_pins _).2.1]
  exact ⟨(releaseCode_pins _).1, (readWordCode_pins _).1, (releaseCode_pins _).2.2⟩

/-- The device after a transaction: deselected (R56). -/
theorem readWordAtCode_phase (a : Word) (s : State) : (runCode (readWordAtCode a) s).eeprom.phase = .idle := by
  rw [readWordAtCode_eq, releaseCode_phase]

/-- THE CONTRACT OF THE REFERENCE EEPROM (R56, R57, R103): the word read is the one stored at the low nine bits of the
address, and no input is used up. -/
theorem readWordAtCode_ref (a : Word) {s : State} (h : s.eeRef = true) :
    readAtValue a s = eeRead s.ee (wireAddr a) ∧ (runCode (readWordAtCode a) s).din = s.din ∧
    (runCode (readWordAtCode a) s).draws = s.draws := by
  obtain ⟨sh, he⟩ := readFrameCode_eeprom a s
  have hs : Serving (eeRead s.ee (wireAddr a)) 16 (runCode (readFrameCode a) s) :=
    ⟨by rw [(runCode_onlyEepromBus (readFrameCode_eeBus a) s).eeRef, h], (readFrameCode_selected a s).sel,
      by rw [he], by rw [he], by rw [he]⟩
  obtain ⟨h1, h2, h3⟩ := readWordCode_serving hs
  have hk := readFrameCode_keeps a s
  refine ⟨by rw [readAtValue_eq, h1], ?_, ?_⟩
  · rw [readWordAtCode_eq, releaseCode_eq, State.drive_din, State.drive_din, State.emit_din, h2, hk.2.2.1]
  · rw [readWordAtCode_eq, releaseCode_eq, State.drive_draws, State.drive_draws, State.emit_draws, h3, hk.2.2.2]

/-- With no device on the line the word read is the next sixteen inputs (R8, R103). -/
theorem readWordAtCode_din (a : Word) {s : State} (h : s.eeRef = false) (w : Word) (rest : List Bool)
    (hd : s.din = msbBits w 16 ++ rest) : readAtValue a s = w ∧ (runCode (readWordAtCode a) s).din = rest := by
  have hr : (runCode (readFrameCode a) s).eeRef = false := by
    rw [(runCode_onlyEepromBus (readFrameCode_eeBus a) s).eeRef, h]
  obtain ⟨h1, h2⟩ := readWordCode_din hr w rest (by rw [(readFrameCode_keeps a s).2.2.1, hd])
  exact ⟨by rw [readAtValue_eq, h1],
    by rw [readWordAtCode_eq, releaseCode_eq, State.drive_din, State.drive_din, State.emit_din, h2]⟩

/-! ### `readRange` -/

/-- Reads at `n` ascending addresses from `a`: their traces in order, the last word in RESULT, the bus released; with the
reference EEPROM the words are the stored ones (R104). -/
theorem readsFrom_reads (n : Nat) : ∀ (a : Nat) (s : State), ∃ ws : List Word, ws.length = n ∧
    (runCode (readsFrom a n) s).trace = s.trace
      ++ (List.range n).flatMap (fun k => readAtTrace (BitVec.ofNat 9 (a + k)) (ws.getD k 0)) ∧
    (0 < n → (runCode (readsFrom a n) s).result = ws.getD (n - 1) 0 ∧ Released (runCode (readsFrom a n) s)) ∧
    (s.eeRef = true → ∀ k < n, ws.getD k 0 = eeRead s.ee (BitVec.ofNat 9 (a + k))) := by
  have hw : ∀ k : Nat, wireAddr (BitVec.ofNat 16 k) = BitVec.ofNat 9 k := fun k => by
    apply BitVec.eq_of_toNat_eq; simp [wireAddr]
  induction n with
  | zero => intro a s; exact ⟨[], rfl, by simp [readsFrom], fun h => by omega, fun _ k h => by omega⟩
  | succ n ih =>
    intro a s
    have ht := readWordAtCode_trace (BitVec.ofNat 16 a) s
    have hp := readWordAtCode_pins (BitVec.ofNat 16 a) s
    have hf := runCode_onlyEepromBus (readWordAtCode_eeBus (BitVec.ofNat 16 a)) s
    have hv := readWordAtCode_ref (BitVec.ofNat 16 a) (s := s)
    have hr := readWordAtCode_result (BitVec.ofNat 16 a) s
    have he : runCode (readsFrom a (n + 1)) s =
        runCode (readsFrom (a + 1) n) (runCode (readWordAtCode (BitVec.ofNat 16 a)) s) := by
      rw [readsFrom, runCode_append]
    rw [hw] at ht hv
    generalize runCode (readWordAtCode (BitVec.ofNat 16 a)) s = u at ht hp hf hv hr he
    generalize readAtValue (BitVec.ofNat 16 a) s = w at ht hv hr
    obtain ⟨ws, h1, h2, h3, h4⟩ := ih (a + 1) u
    refine ⟨w :: ws, by simp [h1], ?_, ?_, ?_⟩
    · rw [he, h2, ht, List.range_succ_eq_map, List.flatMap_cons, List.flatMap_map, List.append_assoc]
      simp [Nat.add_assoc, Nat.add_comm 1]
    · intro _
      rw [he]
      rcases Nat.eq_zero_or_pos n with h0 | h0
      · subst h0; exact ⟨hr, hp.1, hp.2.1, hp.2.2⟩
      · obtain ⟨r1, r2⟩ := h3 h0
        obtain ⟨m, rfl⟩ := Nat.exists_eq_succ_of_ne_zero (by omega : n ≠ 0)
        exact ⟨by rw [r1]; simp, r2⟩
    · intro href k hk
      cases k with
      | zero => simpa using (hv href).1
      | succ k =>
        rw [List.getD_cons_succ, h4 (by rw [hf.eeRef, href]) k (by omega), hf.ee]
        congr 2; omega

/-- `readRange` reads one address or all of the range (R104). -/
theorem readRangeCode_eq (first last : EeAddr) : readRangeCode first last =
    readsFrom first.toNat (if first.toNat < last.toNat then last.toNat - first.toNat + 1 else 1) := by
  unfold readRangeCode
  split
  · rfl
  · have : zext16 first = BitVec.ofNat 16 first.toNat := by
      apply BitVec.eq_of_toNat_eq
      have := first.isLt
      simp [zext16]
    rw [this]
    simp [readsFrom]

end Sys2Proof.Machine
end

