-- ==== Sys2Proof/Laws/CascadeBus.lean ====
section
/-! SUPPORT. What the shift-register driver's pseudocode does: its frame, its pins, its trace, and what the reference cascade
holds after it (spec/42_shiftreg.md, spec/20_memory.md R60). -/

namespace Sys2Proof.Machine

/-! ### Frame -/

/-- A micro-operation that touches only the cascade's wires. -/
def Micro.srBus : Micro → Bool
  | .drive .srClk _ => true
  | .drive .srData _ => true
  | .drive .srLatch _ => true
  | .settle _ => true
  | _ => false

theorem OnlyCascadeBus.refl (s : State) : OnlyCascadeBus s s := by constructor <;> rfl

theorem OnlyCascadeBus.trans {s t u : State} (h : OnlyCascadeBus s t) (h' : OnlyCascadeBus t u) : OnlyCascadeBus s u := by
  constructor
  · rw [h'.eeSel, h.eeSel]
  · rw [h'.eeClk, h.eeClk]
  · rw [h'.eeDout, h.eeDout]
  · rw [h'.result, h.result]
  · rw [h'.faddr, h.faddr]
  · rw [h'.cbuf, h.cbuf]
  · rw [h'.txtptr, h.txtptr]
  · rw [h'.fcause, h.fcause]
  · rw [h'.finfo, h.finfo]
  · rw [h'.work, h.work]
  · rw [h'.resetSeen, h.resetSeen]
  · rw [h'.eeprom, h.eeprom]
  · rw [h'.txt, h.txt]
  · rw [h'.ee, h.ee]
  · rw [h'.eeRef, h.eeRef]
  · rw [h'.din, h.din]
  · rw [h'.draws, h.draws]
  · rw [h'.host, h.host]
  · rw [h'.look, h.look]

theorem perform_onlyCascadeBus {m : Micro} (h : m.srBus = true) (s : State) : OnlyCascadeBus s (perform m s) := by
  cases m with
  | drive p v => cases p <;> first | (exact Bool.noConfusion h) | (constructor <;> rfl)
  | settle d => constructor <;> rfl
  | _ => exact Bool.noConfusion h

theorem runCode_onlyCascadeBus {code : List Micro} (h : code.all Micro.srBus = true) (s : State) :
    OnlyCascadeBus s (runCode code s) := by
  induction code generalizing s with
  | nil => exact OnlyCascadeBus.refl s
  | cons m code ih =>
    simp only [List.all_cons, Bool.and_eq_true] at h
    exact (perform_onlyCascadeBus h.1 s).trans (ih h.2 _)

/-- `shiftByte` as a list of bits (R120). -/
def shiftsCode (bits : List Bool) : List Micro := bits.flatMap shiftOne

theorem shiftByteCode_msb (v : Byte) : shiftByteCode v .msb = shiftsCode (msbFirst v) := rfl

theorem shiftByteCode_lsb (v : Byte) : shiftByteCode v .lsb = shiftsCode (lsbFirst v) := rfl

/-- The bits a direction sends (R120). -/
def dirBits (v : Byte) : Direction → List Bool
  | .msb => msbFirst v
  | .lsb => lsbFirst v

theorem shiftByteCode_dir (v : Byte) (dir : Direction) : shiftByteCode v dir = shiftsCode (dirBits v dir) := by
  cases dir <;> rfl

theorem shiftsCode_srBus (bits : List Bool) : (shiftsCode bits).all Micro.srBus = true := by
  induction bits with
  | nil => rfl
  | cons b bits ih => exact all_append' rfl ih

theorem shiftByteCode_srBus (v : Byte) (dir : Direction) : (shiftByteCode v dir).all Micro.srBus = true := by
  rw [shiftByteCode_dir]; exact shiftsCode_srBus _

theorem latchCode_srBus : latchCode.all Micro.srBus = true := rfl

theorem cascadeCode_srBus (b0 b1 : Byte) : (cascadeCode b0 b1).all Micro.srBus = true :=
  all_append' (all_append' (shiftByteCode_srBus _ _) (shiftByteCode_srBus _ _)) rfl

theorem cascadeCode_eq (b0 b1 : Byte) (s : State) : runCode (cascadeCode b0 b1) s =
    runCode latchCode (runCode (shiftsCode (lsbFirst b0)) (runCode (shiftsCode (lsbFirst b1)) s)) := by
  rw [cascadeCode, runCode_append, runCode_append, shiftByteCode_lsb, shiftByteCode_lsb]

/-! ### Traces -/

theorem shiftsCode_trace (bits : List Bool) (s : State) :
    (runCode (shiftsCode bits) s).trace = s.trace ++ shiftTrace bits := by
  induction bits generalizing s with
  | nil => simp [shiftsCode, shiftTrace]
  | cons b bits ih =>
    show (runCode (shiftOne b ++ shiftsCode bits) s).trace = _
    rw [runCode_append, ih]
    simp [shiftOne, perform, State.trace, shiftTrace]

theorem latchCode_trace (s : State) : (runCode latchCode s).trace = s.trace ++ latchTrace := by
  simp [latchCode, perform, State.trace, latchTrace]

theorem cascadeCode_trace (b0 b1 : Byte) (s : State) :
    (runCode (cascadeCode b0 b1) s).trace = s.trace ++ cascadeTrace b0 b1 := by
  rw [cascadeCode_eq, latchCode_trace, shiftsCode_trace, shiftsCode_trace]
  simp only [cascadeTrace, List.append_assoc]

/-! ### Pins and the cascade -/

theorem shiftOne_pins (b : Bool) (s : State) : (runCode (shiftOne b) s).pins.srClk = false ∧
    (runCode (shiftOne b) s).pins.srData = b ∧ (runCode (shiftOne b) s).pins.srLatch = s.pins.srLatch := ⟨rfl, rfl, rfl⟩

/-- With the clock low on entry a round clocks its bit into the chain and leaves the outputs (R60, R120). -/
theorem shiftOne_chain (b : Bool) {s : State} (h : s.pins.srClk = false) :
    (runCode (shiftOne b) s).chain = shiftIn s.chain b ∧ (runCode (shiftOne b) s).out = s.out := by
  constructor
  · simp [shiftOne, perform, chainAfter, Pins.set, Pins.rises, Pins.get, h]
  · simp [shiftOne, perform, outAfter]

theorem shiftsCode_pins (bits : List Bool) (s : State) (hb : bits ≠ []) :
    (runCode (shiftsCode bits) s).pins.srClk = false ∧
    (runCode (shiftsCode bits) s).pins.srData = bits.getLast hb ∧
    (runCode (shiftsCode bits) s).pins.srLatch = s.pins.srLatch := by
  induction bits generalizing s with
  | nil => exact absurd rfl hb
  | cons b bits ih =>
    have hr : runCode (shiftsCode (b :: bits)) s = runCode (shiftsCode bits) (runCode (shiftOne b) s) :=
      runCode_append _ _ _
    rw [hr]
    rcases bits with _ | ⟨b', bits⟩
    · exact shiftOne_pins b s
    · have := ih (runCode (shiftOne b) s) (by simp)
      rw [List.getLast_cons (by simp)]
      exact this

theorem shiftsCode_chain (bits : List Bool) {s : State} (h : s.pins.srClk = false) :
    (runCode (shiftsCode bits) s).chain = bits.foldl shiftIn s.chain ∧ (runCode (shiftsCode bits) s).out = s.out ∧
    (runCode (shiftsCode bits) s).pins.srClk = false := by
  induction bits generalizing s with
  | nil => exact ⟨rfl, rfl, h⟩
  | cons b bits ih =>
    have hr : runCode (shiftsCode (b :: bits)) s = runCode (shiftsCode bits) (runCode (shiftOne b) s) :=
      runCode_append _ _ _
    obtain ⟨h1, h2, h3⟩ := ih (s := runCode (shiftOne b) s) (shiftOne_pins b s).1
    rw [hr, h1, h2, (shiftOne_chain b h).1, (shiftOne_chain b h).2]
    exact ⟨rfl, rfl, h3⟩

/-- The outputs never change while bits are shifted, whatever the clock was (R61, R124). -/
theorem shiftsCode_out (bits : List Bool) (s : State) : (runCode (shiftsCode bits) s).out = s.out := by
  induction bits generalizing s with
  | nil => rfl
  | cons b bits ih =>
    have hr : runCode (shiftsCode (b :: bits)) s = runCode (shiftsCode bits) (runCode (shiftOne b) s) :=
      runCode_append _ _ _
    rw [hr, ih]
    simp [shiftOne, perform, outAfter]

theorem shiftIn_getLsbD (ch : BitVec 16) (b : Bool) (p : Nat) :
    (shiftIn ch b).getLsbD p = if p = 0 then b else decide (p < 16) && ch.getLsbD (p - 1) := by
  unfold shiftIn
  cases p with
  | zero => simp
  | succ p =>
    simp only [BitVec.getLsbD_or, BitVec.getLsbD_shiftLeft, BitVec.getLsbD_setWidth, BitVec.getLsbD_ofBool]
    simp

/-- A bit shifted in `p` shifts before the last stands at `CH[p]`; beyond the bits sent, the old chain (R60). -/
theorem foldl_shiftIn (bits : List Bool) (ch : BitVec 16) (p : Nat) (hp : p < 16) :
    (bits.foldl shiftIn ch).getLsbD p =
      if p < bits.length then bits.reverse.getD p false else ch.getLsbD (p - bits.length) := by
  induction bits generalizing ch with
  | nil => simp
  | cons b bits ih =>
    rw [List.foldl_cons, ih, List.length_cons, List.reverse_cons]
    by_cases h1 : p < bits.length
    · rw [if_pos h1, if_pos (by omega)]
      simp [List.getD_eq_getElem?_getD, List.getElem?_append_left, h1]
    · rw [if_neg h1, shiftIn_getLsbD]
      by_cases h2 : p = bits.length
      · subst h2
        simp [List.getD_eq_getElem?_getD]
      · rw [if_neg (by omega), if_neg (by omega)]
        have : p - bits.length < 16 := by omega
        simp only [this, decide_true, Bool.true_and]
        congr 1

/-- The chain after sixteen shifts holds the bits sent and nothing older (R123). -/
theorem cascade_chain (b0 b1 : Byte) (ch : BitVec 16) :
    (lsbFirst b0).foldl shiftIn ((lsbFirst b1).foldl shiftIn ch) = b1.reverse ++ b0.reverse := by
  rw [← List.foldl_append]
  apply BitVec.eq_of_getLsbD_eq
  intro p hp
  rw [foldl_shiftIn _ _ _ hp, if_pos (by simpa [lsbFirst] using hp)]
  simp only [BitVec.getLsbD_append, BitVec.getLsbD_reverse, BitVec.getMsbD, lsbFirst]
  interval_cases p <;> simp

theorem latchCode_pins (s : State) : (runCode latchCode s).pins.srClk = s.pins.srClk ∧
    (runCode latchCode s).pins.srData = s.pins.srData ∧ (runCode latchCode s).pins.srLatch = false := ⟨rfl, rfl, rfl⟩

/-- A latch pulse copies the chain to the outputs when the latch line was low, and changes neither when it was high
(R121). -/
theorem latchCode_out (s : State) :
    (runCode latchCode s).out = (if s.pins.srLatch = false then s.chain else s.out) ∧
    (runCode latchCode s).chain = s.chain := by
  constructor
  · by_cases h : s.pins.srLatch = false <;>
      simp [latchCode, perform, outAfter, Pins.set, Pins.rises, Pins.get, h]
  · simp [latchCode, perform, chainAfter]

/-- `writeCascade` at the pins (R122): the data line keeps the last bit, both clocks end low. -/
theorem cascadeCode_pins (b0 b1 : Byte) (s : State) : (runCode (cascadeCode b0 b1) s).pins.srClk = false ∧
    (runCode (cascadeCode b0 b1) s).pins.srData = b0.getLsbD 7 ∧
    (runCode (cascadeCode b0 b1) s).pins.srLatch = false := by
  rw [cascadeCode_eq]
  have h := shiftsCode_pins (lsbFirst b0) (runCode (shiftsCode (lsbFirst b1)) s) (by simp [lsbFirst])
  rw [(latchCode_pins _).1, (latchCode_pins _).2.1, (latchCode_pins _).2.2]
  exact ⟨h.1, h.2.1, rfl⟩

/-- `writeCascade` at the cascade (R123): with both clocks low on entry the chain and the outputs hold the two bytes, byte0
near and byte1 far, each with its bit 7 next to the input. -/
theorem cascadeCode_chain (b0 b1 : Byte) {s : State} (hc : s.pins.srClk = false) (hl : s.pins.srLatch = false) :
    (runCode (cascadeCode b0 b1) s).chain = b1.reverse ++ b0.reverse ∧
    (runCode (cascadeCode b0 b1) s).out = b1.reverse ++ b0.reverse := by
  rw [cascadeCode_eq]
  obtain ⟨h1, -, h3⟩ := shiftsCode_chain (lsbFirst b1) hc
  obtain ⟨h4, -, -⟩ := shiftsCode_chain (lsbFirst b0) h3
  have hl1 := (shiftsCode_pins (lsbFirst b1) s (by simp [lsbFirst])).2.2
  have hl2 := (shiftsCode_pins (lsbFirst b0) (runCode (shiftsCode (lsbFirst b1)) s) (by simp [lsbFirst])).2.2
  rw [(latchCode_out _).1, (latchCode_out _).2, h4, h1, hl2, hl1, if_pos hl, cascade_chain]
  exact ⟨rfl, rfl⟩

end Sys2Proof.Machine
end

