-- ==== Sys2Proof/Laws/Encoding.lean ====
section
/-! SUPPORT. The bits of an encoded word: its row's must-be-zero bits and opcode, and its operand fields (spec/30_encoding.md
R71). -/

namespace Sys2Proof

/-- Two words are equal when their bits are. -/
theorem bits_ext {n : Nat} {a b : BitVec n} (h : ∀ i, i < n → a.getLsbD i = b.getLsbD i) : a = b :=
  BitVec.eq_of_getLsbD_eq h

/-- A word whose row's test holds has the row's opcode nibble (R85 step 1 before step 2). -/
theorem nibble_of_row {w mtch mask : CmdWord} (h : w &&& mask = mtch) (hm : mask.extractLsb' 28 4 = 15#4) :
    w.extractLsb' 28 4 = mtch.extractLsb' 28 4 := by
  rw [← h]
  apply bits_ext
  intro i hi
  have hb : mask.getLsbD (28 + i) = true := by
    have := congrArg (fun v => BitVec.getLsbD v i) hm
    simp only [BitVec.getLsbD_extractLsb', hi, decide_true, Bool.true_and] at this
    rw [this]
    interval_cases i <;> rfl
  simp [BitVec.getLsbD_extractLsb', BitVec.getLsbD_and, hb]

/-- A bit under a row's mask is the row's. -/
theorem bit_of_row {w mtch mask : CmdWord} (h : w &&& mask = mtch) {i : Nat} (hm : mask.getLsbD i = true) :
    w.getLsbD i = mtch.getLsbD i := by
  rw [← h, BitVec.getLsbD_and, hm, Bool.and_true]

/-! ### The word of an instruction, bit by bit -/

theorem encode_wbits_bit (v : Word) (n : BitVec 5) (i : Nat) :
    (encode (.wbits v n)).getLsbD i =
      if i < 16 then v.getLsbD i
      else if i - 16 < 5 then n.getLsbD (i - 16)
      else if i - 16 - 5 < 7 then (0#7).getLsbD (i - 16 - 5)
      else (0x3#4).getLsbD (i - 16 - 5 - 7) := by
  show (0x3#4 ++ 0#7 ++ n ++ v : BitVec (4 + 7 + 5 + 16)).getLsbD i = _
  rw [BitVec.getLsbD_append, BitVec.getLsbD_append, BitVec.getLsbD_append]

theorem encode_rdat_bit (a : EeAddr) (i : Nat) :
    (encode (.rdat a)).getLsbD i =
      if i < 9 then a.getLsbD i
      else if i - 9 < 19 then (0#19).getLsbD (i - 9)
      else (0x5#4).getLsbD (i - 9 - 19) := by
  show (0x5#4 ++ 0#19 ++ a : BitVec (4 + 19 + 9)).getLsbD i = _
  rw [BitVec.getLsbD_append, BitVec.getLsbD_append]

theorem encode_rdrng_bit (a b : EeAddr) (i : Nat) :
    (encode (.rdrng a b)).getLsbD i =
      if i < 9 then a.getLsbD i
      else if i - 9 < 7 then (0#7).getLsbD (i - 9)
      else if i - 9 - 7 < 9 then b.getLsbD (i - 9 - 7)
      else if i - 9 - 7 - 9 < 3 then (0#3).getLsbD (i - 9 - 7 - 9)
      else (0x6#4).getLsbD (i - 9 - 7 - 9 - 3) := by
  show (0x6#4 ++ 0#3 ++ b ++ 0#7 ++ a : BitVec (4 + 3 + 9 + 7 + 9)).getLsbD i = _
  rw [BitVec.getLsbD_append, BitVec.getLsbD_append, BitVec.getLsbD_append, BitVec.getLsbD_append]

theorem encode_shift_bit (v : Byte) (d : Direction) (i : Nat) :
    (encode (.shift v d)).getLsbD i =
      if i < 8 then v.getLsbD i
      else if i - 8 < 1 then (BitVec.ofBool d.bit).getLsbD (i - 8)
      else if i - 8 - 1 < 19 then (0#19).getLsbD (i - 8 - 1)
      else (0x7#4).getLsbD (i - 8 - 1 - 19) := by
  show (0x7#4 ++ 0#19 ++ BitVec.ofBool d.bit ++ v : BitVec (4 + 19 + 1 + 8)).getLsbD i = _
  rw [BitVec.getLsbD_append, BitVec.getLsbD_append, BitVec.getLsbD_append]

theorem encode_casc_bit (b0 b1 : Byte) (i : Nat) :
    (encode (.casc b0 b1)).getLsbD i =
      if i < 8 then b0.getLsbD i
      else if i - 8 < 8 then b1.getLsbD (i - 8)
      else if i - 8 - 8 < 12 then (0#12).getLsbD (i - 8 - 8)
      else (0x9#4).getLsbD (i - 8 - 8 - 12) := by
  show (0x9#4 ++ 0#12 ++ b1 ++ b0 : BitVec (4 + 12 + 8 + 8)).getLsbD i = _
  rw [BitVec.getLsbD_append, BitVec.getLsbD_append, BitVec.getLsbD_append]

theorem encode_find_bit (c : Byte) (i : Nat) :
    (encode (.find c)).getLsbD i =
      if i < 8 then c.getLsbD i
      else if i - 8 < 20 then (0#20).getLsbD (i - 8)
      else (0xA#4).getLsbD (i - 8 - 20) := by
  show (0xA#4 ++ 0#20 ++ c : BitVec (4 + 20 + 8)).getLsbD i = _
  rw [BitVec.getLsbD_append, BitVec.getLsbD_append]

theorem encode_render_bit (p : TxtAddr) (i : Nat) :
    (encode (.render p)).getLsbD i =
      if i < 16 then p.getLsbD i
      else if i - 16 < 12 then (0#12).getLsbD (i - 16)
      else (0xB#4).getLsbD (i - 16 - 12) := by
  show (0xB#4 ++ 0#12 ++ p : BitVec (4 + 12 + 16)).getLsbD i = _
  rw [BitVec.getLsbD_append, BitVec.getLsbD_append]

theorem encode_eeReadFrame_bit (a : EeAddr) (i : Nat) :
    (encode (.eeReadFrame a)).getLsbD i =
      if i < 9 then a.getLsbD i
      else if i - 9 < 2 then Config.config.readOpcode.getLsbD (i - 9)
      else if i - 9 - 2 < 1 then (1#1).getLsbD (i - 9 - 2)
      else (0#20).getLsbD (i - 9 - 2 - 1) := by
  show (0#20 ++ 1#1 ++ Config.config.readOpcode ++ a : BitVec (20 + 1 + 2 + 9)).getLsbD i = _
  rw [BitVec.getLsbD_append, BitVec.getLsbD_append, BitVec.getLsbD_append]

theorem encode_srCascadeFrame_bit (b0 b1 : Byte) (i : Nat) :
    (encode (.srCascadeFrame b0 b1)).getLsbD i =
      if i < 8 then b0.reverse.getLsbD i
      else if i - 8 < 8 then b1.reverse.getLsbD (i - 8)
      else (0#16).getLsbD (i - 8 - 8) := by
  show (0#16 ++ b1.reverse ++ b0.reverse : BitVec (16 + 8 + 8)).getLsbD i = _
  rw [BitVec.getLsbD_append, BitVec.getLsbD_append]

/-! ### Rows -/

theorem encode_wbits_row (v : Word) (n : BitVec 5) : encode (.wbits v n) &&& 0xFFE00000 = 0x30000000 := by
  apply bits_ext; intro i hi; interval_cases i <;> simp [encode_wbits_bit, -BitVec.getLsbD_eq_getElem]

theorem encode_rdat_row (a : EeAddr) : encode (.rdat a) &&& 0xFFFFFE00 = 0x50000000 := by
  apply bits_ext; intro i hi; interval_cases i <;> simp [encode_rdat_bit, -BitVec.getLsbD_eq_getElem]

theorem encode_rdrng_row (a b : EeAddr) : encode (.rdrng a b) &&& 0xFE00FE00 = 0x60000000 := by
  apply bits_ext; intro i hi; interval_cases i <;> simp [encode_rdrng_bit, -BitVec.getLsbD_eq_getElem]

theorem encode_shift_row (v : Byte) (d : Direction) : encode (.shift v d) &&& 0xFFFFFE00 = 0x70000000 := by
  apply bits_ext; intro i hi; interval_cases i <;> simp [encode_shift_bit, -BitVec.getLsbD_eq_getElem]

theorem encode_casc_row (b0 b1 : Byte) : encode (.casc b0 b1) &&& 0xFFFF0000 = 0x90000000 := by
  apply bits_ext; intro i hi; interval_cases i <;> simp [encode_casc_bit, -BitVec.getLsbD_eq_getElem]

theorem encode_find_row (c : Byte) : encode (.find c) &&& 0xFFFFFF00 = 0xA0000000 := by
  apply bits_ext; intro i hi; interval_cases i <;> simp [encode_find_bit, -BitVec.getLsbD_eq_getElem]

theorem encode_render_row (p : TxtAddr) : encode (.render p) &&& 0xFFFF0000 = 0xB0000000 := by
  apply bits_ext; intro i hi; interval_cases i <;> simp [encode_render_bit, -BitVec.getLsbD_eq_getElem]

theorem encode_pin_row (sig : Signal) (level : Bool) (hold : Hold) :
    encode (.pin sig level hold) &&& 0xFFFFFFC0 = 0x10000000 := by
  rcases sig with p | _
  · cases p <;> cases level <;> cases hold <;> rfl
  · cases level <;> cases hold <;> rfl

/-! ### Fields -/

theorem encode_wbits_value (v : Word) (n : BitVec 5) : (encode (.wbits v n)).extractLsb' 0 16 = v := by
  apply bits_ext; intro i hi; interval_cases i <;> simp [encode_wbits_bit, -BitVec.getLsbD_eq_getElem]

theorem encode_wbits_count (v : Word) (n : BitVec 5) : (encode (.wbits v n)).extractLsb' 16 5 = n := by
  apply bits_ext; intro i hi; interval_cases i <;> simp [encode_wbits_bit, -BitVec.getLsbD_eq_getElem]

theorem encode_rdat_address (a : EeAddr) : (encode (.rdat a)).extractLsb' 0 9 = a := by
  apply bits_ext; intro i hi; interval_cases i <;> simp [encode_rdat_bit, -BitVec.getLsbD_eq_getElem]

theorem encode_rdrng_start (a b : EeAddr) : (encode (.rdrng a b)).extractLsb' 0 9 = a := by
  apply bits_ext; intro i hi; interval_cases i <;> simp [encode_rdrng_bit, -BitVec.getLsbD_eq_getElem]

theorem encode_rdrng_end (a b : EeAddr) : (encode (.rdrng a b)).extractLsb' 16 9 = b := by
  apply bits_ext; intro i hi; interval_cases i <;> simp [encode_rdrng_bit, -BitVec.getLsbD_eq_getElem]

theorem encode_shift_value (v : Byte) (d : Direction) : (encode (.shift v d)).extractLsb' 0 8 = v := by
  apply bits_ext; intro i hi; interval_cases i <;> simp [encode_shift_bit, -BitVec.getLsbD_eq_getElem]

theorem encode_shift_dir (v : Byte) (d : Direction) : (encode (.shift v d)).getLsbD 8 = d.bit := by
  simp [encode_shift_bit, -BitVec.getLsbD_eq_getElem]

theorem encode_casc_byte0 (b0 b1 : Byte) : (encode (.casc b0 b1)).extractLsb' 0 8 = b0 := by
  apply bits_ext; intro i hi; interval_cases i <;> simp [encode_casc_bit, -BitVec.getLsbD_eq_getElem]

theorem encode_casc_byte1 (b0 b1 : Byte) : (encode (.casc b0 b1)).extractLsb' 8 8 = b1 := by
  apply bits_ext; intro i hi; interval_cases i <;> simp [encode_casc_bit, -BitVec.getLsbD_eq_getElem]

theorem encode_find_character (c : Byte) : (encode (.find c)).extractLsb' 0 8 = c := by
  apply bits_ext; intro i hi; interval_cases i <;> simp [encode_find_bit, -BitVec.getLsbD_eq_getElem]

theorem encode_render_ptr (p : TxtAddr) : (encode (.render p)).extractLsb' 0 16 = p := by
  apply bits_ext; intro i hi; interval_cases i <;> simp [encode_render_bit, -BitVec.getLsbD_eq_getElem]

/-! ### Frames -/

theorem ofNat_encode (i : Instr) (n : Nat) : BitVec.ofNat n (encode i).toNat = (encode i).setWidth n := by
  apply BitVec.eq_of_toNat_eq; simp

theorem encode_eeReadFrame_head (a : EeAddr) :
    ((encode (.eeReadFrame a)).setWidth 12).extractLsb' 9 3 = 1#1 ++ Config.config.readOpcode := by
  apply bits_ext; intro i hi
  interval_cases i <;> simp [encode_eeReadFrame_bit, -BitVec.getLsbD_eq_getElem, Config.config]

theorem encode_eeReadFrame_address (a : EeAddr) : ((encode (.eeReadFrame a)).setWidth 12).extractLsb' 0 9 = a := by
  apply bits_ext; intro i hi; interval_cases i <;> simp [encode_eeReadFrame_bit, -BitVec.getLsbD_eq_getElem]

theorem encode_srCascadeFrame_byte0 (b0 b1 : Byte) :
    ((encode (.srCascadeFrame b0 b1)).setWidth 16).extractLsb' 0 8 = b0.reverse := by
  apply bits_ext; intro i hi; interval_cases i <;> simp [encode_srCascadeFrame_bit, -BitVec.getLsbD_eq_getElem]

theorem encode_srCascadeFrame_byte1 (b0 b1 : Byte) :
    ((encode (.srCascadeFrame b0 b1)).setWidth 16).extractLsb' 8 8 = b1.reverse := by
  apply bits_ext; intro i hi; interval_cases i <;> simp [encode_srCascadeFrame_bit, -BitVec.getLsbD_eq_getElem]

end Sys2Proof
end

