-- ==== Sys2Proof/Laws/Lookup.lean ====
section
/-! SUPPORT. What the lookup does (spec/43_renderer.md R130, R131): the slots it reads, the register it writes, and, with the
reference EEPROM on the wires, which slot it finds. -/

namespace Sys2Proof.Machine

theorem ofNat_wireAddr (n : Nat) : wireAddr (BitVec.ofNat 16 n) = BitVec.ofNat 9 n := by
  apply BitVec.eq_of_toNat_eq
  simp [wireAddr]

theorem slotAddr_eq (idx : Nat) : slotAddr idx = BitVec.ofNat 16 (10 * idx) := rfl

/-- No slot address is the sentinel (R130: "all valid addresses are multiples of 10"). -/
theorem slotAddr_ne_sentinel (idx : Nat) : slotAddr idx ≠ Config.config.sentinel := by
  intro he
  have := congrArg BitVec.toNat he
  simp [slotAddr, Config.config] at this
  omega

theorem lookupValue_slot {idx : Nat} (h : idx < 37) : lookupValue (slotAddr idx) = true := by
  simp only [lookupValue, Bool.or_eq_true, List.any_eq_true]
  exact Or.inr ⟨idx, List.mem_range.2 h, by simp [slotAddr_eq]⟩

/-- How one lookup, begun at slot `idx` with `k` slots left, comes out of the state `s` in the state `t` after the words `ws`
were read. -/
structure Scanned (c : Byte) (inRender : Bool) (idx k : Nat) (rest : List Micro) (s : State) (ws : List Word) (t : State) :
    Prop where
  pos : ws ≠ []
  le : ws.length ≤ k
  misses : ∀ w ∈ ws.dropLast, lowByte w ≠ c
  trace : t.trace = s.trace ++ scanTrace idx ws
  result : t.result = ws.getLast pos
  frame : OnlyEepromBus { s with faddr := t.faddr } t
  seq : t.seq = s.seq
  done : t.done = s.done
  textBase : t.textBase = s.textBase
  sel : t.pins.eeSel = false
  clk : t.pins.eeClk = true
  dout : t.pins.eeDout = false
  phase : t.eeprom.phase = .idle
  outcome : (lowByte (ws.getLast pos) = c ∧ t.faddr = slotAddr (idx + ws.length - 1) ∧
      t.todo = (if inRender then metaCode t.faddr else []) ++ rest) ∨
    (lowByte (ws.getLast pos) ≠ c ∧ ws.length = k ∧ t.faddr = Config.config.sentinel ∧
      t.todo = (if inRender then [.nextChar] else []) ++ rest)
  stored : s.eeRef = true → ws = (List.range ws.length).map (fun i => slotWord s.ee (idx + i))
  inputs : s.eeRef = true → t.din = s.din ∧ t.draws = s.draws

/-- One slot's read, then the test (R137 `R_SCAN`). -/
theorem scan_one (c : Byte) (idx : Nat) (r : Bool) (rest : List Micro) {s : State}
    (h : s.todo = scanCode c idx r ++ rest) :
    Leads 154 s (({ runCode (readWordAtCode (slotAddr idx)) s with todo := rest }).scanTest c idx r) := by
  have h1 := Leads.code (readWordAtCode_straight (slotAddr idx)) (s := s) (rest := .scanTest c idx r :: rest)
    (by rw [h, scanCode, List.append_assoc]; rfl)
  rw [readWordAtCode_length] at h1
  exact h1.trans (Leads.next (runCode (readWordAtCode (slotAddr idx)) s) (.scanTest c idx r) rest)

theorem scan_leads (c : Byte) (r : Bool) (rest : List Micro) (k : Nat) :
    ∀ (idx : Nat) (s : State), 0 < k → idx + k = 37 → s.todo = scanCode c idx r ++ rest →
    ∃ n t ws, Leads n s t ∧ n ≤ 154 * k ∧ Scanned c r idx k rest s ws t := by
  induction k with
  | zero => intro idx s hk; omega
  | succ k ih =>
    intro idx s _ hsum htodo
    have hone := scan_one c idx r rest htodo
    have hf := runCode_onlyEepromBus (readWordAtCode_eeBus (slotAddr idx)) s
    have hctl := runCode_sameControl (readWordAtCode_straight (slotAddr idx)) s
    have htr := readWordAtCode_trace (slotAddr idx) s
    have hres := readWordAtCode_result (slotAddr idx) s
    have hwork := readWordAtCode_work (slotAddr idx) s
    have hpins := readWordAtCode_pins (slotAddr idx) s
    have hphase := readWordAtCode_phase (slotAddr idx) s
    have href := readWordAtCode_ref (slotAddr idx) (s := s)
    rw [slotAddr_eq, ofNat_wireAddr, ← slotAddr_eq] at htr
    have hslot : s.eeRef = true → readAtValue (slotAddr idx) s = slotWord s.ee idx := fun h => by
      rw [(href h).1, slotAddr_eq, ofNat_wireAddr]; rfl
    generalize readAtValue (slotAddr idx) s = w at htr hres hwork hslot
    have hin : s.eeRef = true → (runCode (readWordAtCode (slotAddr idx)) s).din = s.din ∧
      (runCode (readWordAtCode (slotAddr idx)) s).draws = s.draws := fun h => (href h).2
    clear href
    generalize runCode (readWordAtCode (slotAddr idx)) s = u at hone hf hctl htr hres hwork hpins hphase hin
    by_cases hm : lowByte w = c
    · -- the slot matches
      refine ⟨154, _, [w], hone, by omega, ?_⟩
      have hst : ({ u with todo := rest }).scanTest c idx r =
          { u with todo := (if r then metaCode (slotAddr idx) else []) ++ rest, faddr := slotAddr idx } := by
        rw [State.scanTest, if_pos (by rw [← hm]; exact congrArg lowByte hwork)]
        rfl
      rw [hst]
      exact {
        pos := by simp
        le := by simp
        misses := by simp
        trace := by
          show u.trace = _
          rw [htr]; simp [scanTrace]
        result := hres
        frame := ⟨hf.srClk, hf.srData, hf.srLatch, rfl, hf.cbuf, hf.txtptr, hf.fcause, hf.finfo, hf.resetSeen, hf.chain,
          hf.out, hf.txt, hf.ee, hf.eeRef, hf.host, hf.look⟩
        seq := hctl.seq
        done := hctl.done
        textBase := hctl.textBase
        sel := hpins.1
        clk := hpins.2.1
        dout := hpins.2.2
        phase := hphase
        outcome := Or.inl ⟨hm, by simp, rfl⟩
        stored := fun h => by simp [hslot h]
        inputs := hin }
    · have hmu : lowByte u.work ≠ c := by rw [hwork]; exact hm
      by_cases hlast : k = 0
      · -- the last slot does not match
        subst hlast
        refine ⟨154, _, [w], hone, by omega, ?_⟩
        have hst : ({ u with todo := rest }).scanTest c idx r =
            { u with todo := (if r then [.nextChar] else []) ++ rest, faddr := Config.config.sentinel } := by
          rw [State.scanTest, if_neg hmu, if_neg (by show ¬ idx + 1 < 37; omega)]
          rfl
        rw [hst]
        exact {
          pos := by simp
          le := by simp
          misses := by simp
          trace := by
            show u.trace = _
            rw [htr]; simp [scanTrace]
          result := hres
          frame := ⟨hf.srClk, hf.srData, hf.srLatch, rfl, hf.cbuf, hf.txtptr, hf.fcause, hf.finfo, hf.resetSeen, hf.chain,
            hf.out, hf.txt, hf.ee, hf.eeRef, hf.host, hf.look⟩
          seq := hctl.seq
          done := hctl.done
          textBase := hctl.textBase
          sel := hpins.1
          clk := hpins.2.1
          dout := hpins.2.2
          phase := hphase
          outcome := Or.inr ⟨hm, rfl, rfl, rfl⟩
          stored := fun h => by simp [hslot h]
          inputs := hin }
      · -- on to the next slot
        have hst : ({ u with todo := rest }).scanTest c idx r = { u with todo := scanCode c (idx + 1) r ++ rest } := by
          rw [State.scanTest, if_neg hmu, if_pos (by show idx + 1 < 37; omega)]
          rfl
        rw [hst] at hone
        obtain ⟨n, t, ws, hl, hn, hs⟩ := ih (idx + 1) { u with todo := scanCode c (idx + 1) r ++ rest } (by omega)
          (by omega) rfl
        refine ⟨154 + n, t, w :: ws, hone.trans hl, by omega, ?_⟩
        have hp := hs.pos
        exact {
          pos := by simp
          le := by simp; exact hs.le
          misses := by
            intro x hx
            rw [List.dropLast_cons_of_ne_nil hp] at hx
            rcases List.mem_cons.1 hx with rfl | hx
            · exact hm
            · exact hs.misses x hx
          trace := by
            rw [hs.trace]
            show u.trace ++ _ = _
            rw [htr, List.append_assoc]; rfl
          result := by rw [List.getLast_cons hp]; exact hs.result
          frame := ⟨hs.frame.srClk.trans hf.srClk, hs.frame.srData.trans hf.srData, hs.frame.srLatch.trans hf.srLatch, rfl,
            hs.frame.cbuf.trans hf.cbuf, hs.frame.txtptr.trans hf.txtptr, hs.frame.fcause.trans hf.fcause,
            hs.frame.finfo.trans hf.finfo, hs.frame.resetSeen.trans hf.resetSeen, hs.frame.chain.trans hf.chain,
            hs.frame.out.trans hf.out, hs.frame.txt.trans hf.txt, hs.frame.ee.trans hf.ee, hs.frame.eeRef.trans hf.eeRef,
            hs.frame.host.trans hf.host, hs.frame.look.trans hf.look⟩
          seq := hs.seq.trans hctl.seq
          done := hs.done.trans hctl.done
          textBase := hs.textBase.trans hctl.textBase
          sel := hs.sel
          clk := hs.clk
          dout := hs.dout
          phase := hs.phase
          outcome := by
            rw [List.getLast_cons hp]
            have hpos : 0 < ws.length := List.length_pos_iff.2 hp
            rcases hs.outcome with ⟨h1, h2, h3⟩ | ⟨h1, h2, h3, h4⟩
            · refine Or.inl ⟨h1, ?_, h3⟩
              rw [h2, List.length_cons]
              congr 1; omega
            · exact Or.inr ⟨h1, by rw [List.length_cons, h2], h3, h4⟩
          stored := fun h => by
            have he : u.ee = s.ee := hf.ee
            have h' : u.eeRef = true := hf.eeRef.trans h
            have hw := hs.stored h'
            rw [List.length_cons, List.range_succ_eq_map, List.map_cons, List.map_map, hslot h]
            congr 1
            refine hw.trans ?_
            apply List.map_congr_left
            intro i _
            show slotWord u.ee (idx + 1 + i) = slotWord s.ee (idx + (i + 1))
            rw [he]; congr 1; omega
          inputs := fun h => by
            have h' : u.eeRef = true := hf.eeRef.trans h
            obtain ⟨h1, h2⟩ := hs.inputs h'
            exact ⟨h1.trans (hin h).1, h2.trans (hin h).2⟩ }

/-! ### Which slot is found -/

theorem firstSlot_some {ee : List (Nat × Word)} {c : Byte} {i : Nat} :
    firstSlot ee c = some i ↔ i < 37 ∧ lowByte (slotWord ee i) = c ∧ ∀ j, j < i → lowByte (slotWord ee j) ≠ c := by
  rw [firstSlot, List.find?_range_eq_some]
  simp only [beq_iff_eq, List.mem_range, Bool.not_eq_true', beq_eq_false_iff_ne]
  constructor
  · rintro ⟨h1, h2, h3⟩; exact ⟨h2, h1, h3⟩
  · rintro ⟨h1, h2, h3⟩; exact ⟨h2, h1, h3⟩

theorem firstSlot_none {ee : List (Nat × Word)} {c : Byte} :
    firstSlot ee c = none ↔ ∀ j, j < 37 → lowByte (slotWord ee j) ≠ c := by
  rw [firstSlot, List.find?_range_eq_none]
  simp

/-- With the reference EEPROM a whole lookup reads `slotsRead` slots and leaves what `firstSlot` says. -/
theorem Scanned.ref {c : Byte} {r : Bool} {rest : List Micro} {s t : State} {ws : List Word}
    (h : Scanned c r 0 37 rest s ws t) (he : s.eeRef = true) :
    ws = (List.range (slotsRead s.ee c)).map (slotWord s.ee) ∧
    ((∃ i, firstSlot s.ee c = some i ∧ t.faddr = slotAddr i ∧ t.result = slotWord s.ee i ∧
        t.todo = (if r then metaCode (slotAddr i) else []) ++ rest) ∨
      (firstSlot s.ee c = none ∧ t.faddr = Config.config.sentinel ∧ t.result = slotWord s.ee 36 ∧
        t.todo = (if r then [.nextChar] else []) ++ rest)) := by
  have hw := h.stored he
  simp only [Nat.zero_add] at hw
  have hpos : 0 < ws.length := List.length_pos_iff.2 h.pos
  have hget : ∀ i (hi : i < ws.length), ws[i] = slotWord s.ee i := fun i hi => by
    have := congrArg (fun l => l[i]?) hw
    simp only [List.getElem?_map, List.getElem?_range hi, List.getElem?_eq_getElem hi, Option.map_some, Option.some.injEq]
      at this
    exact this
  have hlast : ws.getLast h.pos = slotWord s.ee (ws.length - 1) := by
    rw [List.getLast_eq_getElem]; exact hget _ (by omega)
  have hmiss : ∀ j, j < ws.length - 1 → lowByte (slotWord s.ee j) ≠ c := fun j hj => by
    have hj' : j < ws.dropLast.length := by rw [List.length_dropLast]; exact hj
    have := h.misses _ (List.getElem_mem hj')
    rwa [List.getElem_dropLast, hget _ (by omega)] at this
  rcases h.outcome with ⟨h1, h2, h3⟩ | ⟨h1, h2, h3, h4⟩
  · have hi : firstSlot s.ee c = some (ws.length - 1) :=
      firstSlot_some.2 ⟨by have := h.le; omega, by rw [← hlast]; exact h1, hmiss⟩
    have hn : slotsRead s.ee c = ws.length := by rw [slotsRead, hi]; show ws.length - 1 + 1 = _; omega
    refine ⟨by rw [hn]; exact hw, Or.inl ⟨ws.length - 1, hi, ?_, by rw [h.result, hlast], ?_⟩⟩
    · rw [h2]; congr 1; omega
    · rw [h3, h2]; simp
  · have hi : firstSlot s.ee c = none := firstSlot_none.2 fun j hj => by
      by_cases hj' : j < ws.length - 1
      · exact hmiss j hj'
      · have : j = ws.length - 1 := by omega
        rw [this, ← hlast]; exact h1
    have hn : slotsRead s.ee c = ws.length := by rw [slotsRead, hi, h2]
    refine ⟨by rw [hn]; exact hw, Or.inr ⟨hi, h3, ?_, h4⟩⟩
    rw [h.result, hlast, h2]

end Sys2Proof.Machine
end

