-- ==== Sys2Proof/Laws/Memory.lean ====
section
/-! SUPPORT. The laws of the byte memories: read after write, and the canonical form every memory operation keeps. -/

namespace Sys2Proof.Machine

@[simp] theorem Memory.read_nil (a : Nat) : Memory.read [] a = Memory.unlisted := rfl

theorem Memory.read_cell (k : Nat) (v : Byte) (m : Memory) (a : Nat) :
    Memory.read ((k, v) :: m) a = if k = a then v else Memory.read m a := rfl

/-- Every cell of `m` lies above `k`. -/
def Memory.above (k : Nat) (m : Memory) : Prop := ∀ c ∈ m, k < c.1

theorem Memory.wf_cell {size k : Nat} {v : Byte} {m : Memory} :
    Memory.wf size ((k, v) :: m) = true ↔
      k < size ∧ v ≠ Memory.unlisted ∧ Memory.above k m ∧ Memory.wf size m = true := by
  simp only [Memory.wf, Memory.above, Bool.and_eq_true, decide_eq_true_eq, List.all_eq_true, and_assoc]

theorem Memory.read_above {k : Nat} {m : Memory} (h : Memory.above k m) {a : Nat} (ha : a ≤ k) :
    Memory.read m a = Memory.unlisted := by
  induction m with
  | nil => rfl
  | cons c m ih =>
    have hc := h c (by simp)
    rw [Memory.read_cell, if_neg (by omega)]
    exact ih (fun c' hc' => h c' (by simp [hc']))

theorem Memory.read_consCell {m : Memory} {a : Nat} {v : Byte} (h : Memory.above a m) (b : Nat) :
    Memory.read (Memory.cons a v m) b = if a = b then v else Memory.read m b := by
  unfold Memory.cons
  split
  · rename_i hv
    by_cases hab : a = b
    · subst hab; simp [hv, Memory.read_above h (Nat.le_refl a)]
    · simp [hab]
  · rw [Memory.read_cell]

theorem Memory.above_consCell {k a : Nat} {v : Byte} {m : Memory} (hk : k < a) (h : Memory.above k m) :
    Memory.above k (Memory.cons a v m) := by
  unfold Memory.cons
  split
  · exact h
  · intro c hc
    rcases List.mem_cons.1 hc with rfl | hc
    · exact hk
    · exact h c hc

theorem Memory.above_write {k a : Nat} {v : Byte} {m : Memory} (hk : k < a) (h : Memory.above k m) :
    Memory.above k (Memory.write m a v) := by
  induction m with
  | nil => exact Memory.above_consCell hk (by simp [Memory.above])
  | cons c m ih =>
    obtain ⟨b, w⟩ := c
    have hm : Memory.above k m := fun c' hc' => h c' (by simp [hc'])
    simp only [Memory.write]
    split
    · exact Memory.above_consCell hk h
    · split
      · exact Memory.above_consCell hk hm
      · intro c hc
        rcases List.mem_cons.1 hc with rfl | hc
        · exact h _ (by simp)
        · exact ih hm c hc

/-- Read after write: the byte written at its address, every other byte as it was. -/
theorem Memory.read_write {size : Nat} {m : Memory} (h : Memory.wf size m = true) (a : Nat) (v : Byte) (b : Nat) :
    Memory.read (Memory.write m a v) b = if a = b then v else Memory.read m b := by
  induction m with
  | nil => exact Memory.read_consCell (by simp [Memory.above]) b
  | cons c m ih =>
    obtain ⟨k, w⟩ := c
    obtain ⟨-, -, habove, hm⟩ := Memory.wf_cell.1 h
    simp only [Memory.write]
    split
    · rename_i hak
      refine Memory.read_consCell (fun c hc => ?_) b
      rcases List.mem_cons.1 hc with rfl | hc
      · exact hak
      · exact Nat.lt_trans hak (habove c hc)
    · split
      · rename_i hak
        subst hak
        rw [Memory.read_consCell habove, Memory.read_cell]
        split <;> rfl
      · rw [Memory.read_cell, ih hm, Memory.read_cell]
        split
        · rename_i hkb hak hk
          rw [if_neg (by omega)]
        · rfl

theorem Memory.wf_consCell {size a : Nat} {v : Byte} {m : Memory} (ha : a < size) (habove : Memory.above a m)
    (h : Memory.wf size m = true) : Memory.wf size (Memory.cons a v m) = true := by
  unfold Memory.cons
  split
  · exact h
  · rename_i hv
    exact Memory.wf_cell.2 ⟨ha, hv, habove, h⟩

/-- A write keeps the canonical form. -/
theorem Memory.wf_write {size : Nat} {m : Memory} (h : Memory.wf size m = true) {a : Nat} (ha : a < size) (v : Byte) :
    Memory.wf size (Memory.write m a v) = true := by
  induction m with
  | nil => exact Memory.wf_consCell ha (by simp [Memory.above]) rfl
  | cons c m ih =>
    obtain ⟨k, w⟩ := c
    obtain ⟨hk, hw, habove, hm⟩ := Memory.wf_cell.1 h
    simp only [Memory.write]
    split
    · rename_i hak
      refine Memory.wf_consCell ha (fun c hc => ?_) h
      rcases List.mem_cons.1 hc with rfl | hc
      · exact hak
      · exact Nat.lt_trans hak (habove c hc)
    · split
      · rename_i hak
        subst hak
        exact Memory.wf_consCell ha habove hm
      · exact Memory.wf_cell.2 ⟨hk, hw, Memory.above_write (by omega) habove, ih hm⟩

/-- The canonical form is one: two canonical memories that read alike are equal. -/
theorem Memory.ext_of_wf {size : Nat} {m m' : Memory} (h : Memory.wf size m = true) (h' : Memory.wf size m' = true)
    (hr : ∀ a, Memory.read m a = Memory.read m' a) : m = m' := by
  induction m generalizing m' with
  | nil =>
    cases m' with
    | nil => rfl
    | cons c m' =>
      obtain ⟨k, v⟩ := c
      have := hr k
      rw [Memory.read_nil, Memory.read_cell, if_pos rfl] at this
      exact absurd this.symm (Memory.wf_cell.1 h').2.1
  | cons c m ih =>
    obtain ⟨k, v⟩ := c
    obtain ⟨-, hv, hab, hm⟩ := Memory.wf_cell.1 h
    cases m' with
    | nil =>
      have := hr k
      rw [Memory.read_nil, Memory.read_cell, if_pos rfl] at this
      exact absurd this hv
    | cons c' m' =>
      obtain ⟨k', v'⟩ := c'
      obtain ⟨-, hv', hab', hm'⟩ := Memory.wf_cell.1 h'
      have hkk : k = k' := by
        rcases Nat.lt_trichotomy k k' with hlt | heq | hgt
        · have := hr k
          rw [Memory.read_cell, if_pos rfl, Memory.read_cell, if_neg (by omega),
            Memory.read_above hab' (by omega)] at this
          exact absurd this hv
        · exact heq
        · have := hr k'
          rw [Memory.read_cell, if_neg (by omega), Memory.read_above hab (by omega), Memory.read_cell, if_pos rfl] at this
          exact absurd this.symm hv'
      subst hkk
      have hvv : v = v' := by
        have := hr k
        rwa [Memory.read_cell, if_pos rfl, Memory.read_cell, if_pos rfl] at this
      subst hvv
      rw [ih hm hm' (fun a => ?_)]
      by_cases hka : k = a
      · subst hka
        rw [Memory.read_above hab (Nat.le_refl k), Memory.read_above hab' (Nat.le_refl k)]
      · have := hr a
        rwa [Memory.read_cell, if_neg hka, Memory.read_cell, if_neg hka] at this

/-- The host's writes keep the canonical form of TXT. -/
theorem State.hostWrites_wf {s : State} (h : Memory.wf 65536 s.txt = true) (ws : List (TxtAddr × Byte)) :
    Memory.wf 65536 (s.hostWrites ws).txt = true := by
  show Memory.wf 65536 (ws.foldl (fun m w => Memory.write m w.1.toNat w.2) s.txt) = true
  generalize s.txt = m at h
  induction ws generalizing m with
  | nil => exact h
  | cons w ws ih => exact ih _ (Memory.wf_write h w.1.isLt w.2)

/-- A write to CBUF keeps its canonical form. -/
theorem State.cbufWrite_wf {s : State} (h : Memory.wf 256 s.cbuf = true) (j : Nat) (v : Byte) :
    Memory.wf 256 (s.cbufWrite j v).cbuf = true := by
  show Memory.wf 256 (if j < Config.config.bufSlots then _ else _) = true
  split
  · rename_i hj
    exact Memory.wf_write h hj v
  · exact h

/-- A read of CBUF after a write to it. -/
theorem State.cbufRead_cbufWrite {s : State} (h : Memory.wf 256 s.cbuf = true) {j : Nat} (hj : j < 256) (v : Byte) (b : Nat) :
    (s.cbufWrite j v).cbufRead b = if j = b then v else s.cbufRead b := by
  have : (s.cbufWrite j v).cbuf = Memory.write s.cbuf j v := if_pos hj
  simp only [State.cbufRead, this]
  exact Memory.read_write h j v b

end Sys2Proof.Machine
end

