-- ==== Sys2Proof/Laws/Invariant.lean ====
section
/-! SUPPORT. What every micro-operation keeps of the invariant of Safety.lean. -/

namespace Sys2Proof.Machine

/-- The part of the invariant a running command has to keep itself. -/
structure RunInv (s : State) : Prop where
  txt : Memory.wf 65536 s.txt = true
  cbuf : Memory.wf 256 s.cbuf = true
  faddr : lookupValue s.faddr = true
  legal : s.todo.all Micro.legal = true
  deselected : s.pins.eeSel = false → s.eeprom.phase = .idle
  device : (s.eeprom.phase = .cmd → s.eeprom.sh.length < 11) ∧ s.eeprom.q ≤ 16

/-- What a micro-operation never touches: SEQ, the fault registers, the pulse, the text held, the host's inputs, EE. -/
structure TickFrame (s t : State) : Prop where
  seq : t.seq = s.seq
  fcause : t.fcause = s.fcause
  finfo : t.finfo = s.finfo
  done : t.done = s.done
  textBase : t.textBase = s.textBase
  resetSeen : t.resetSeen = s.resetSeen
  txt : t.txt = s.txt
  ee : t.ee = s.ee
  eeRef : t.eeRef = s.eeRef
  host : t.host = s.host
  look : t.look = s.look

theorem TickFrame.refl (s : State) : TickFrame s s := by constructor <;> rfl

theorem TickFrame.trans {s t u : State} (h : TickFrame s t) (h' : TickFrame t u) : TickFrame s u :=
  ⟨h'.seq.trans h.seq, h'.fcause.trans h.fcause, h'.finfo.trans h.finfo, h'.done.trans h.done, h'.textBase.trans h.textBase,
    h'.resetSeen.trans h.resetSeen, h'.txt.trans h.txt, h'.ee.trans h.ee, h'.eeRef.trans h.eeRef, h'.host.trans h.host,
    h'.look.trans h.look⟩

theorem perform_frame (m : Micro) (s : State) : TickFrame s (perform m s) := by
  cases m with
  | scanTest c idx r =>
    simp only [perform, State.scanTest]
    split
    · constructor <;> rfl
    · split <;> constructor <;> rfl
  | _ => constructor <;> rfl

theorem runCode_frame (code : List Micro) (s : State) : TickFrame s (runCode code s) := by
  induction code generalizing s with
  | nil => exact TickFrame.refl s
  | cons m code ih => exact (perform_frame m s).trans (ih _)

theorem tick_frame (s : State) : TickFrame s (tick s) := by
  rw [tick]
  split
  · exact TickFrame.refl s
  · rename_i m rest _
    have h := perform_frame m { s with todo := rest }
    exact ⟨h.seq, h.fcause, h.finfo, h.done, h.textBase, h.resetSeen, h.txt, h.ee, h.eeRef, h.host, h.look⟩

theorem runTicks_frame (n : Nat) (s : State) : TickFrame s (runTicks n s) := by
  induction n generalizing s with
  | zero => exact TickFrame.refl s
  | succ n ih =>
    rw [runTicks]
    split
    · exact TickFrame.refl s
    · exact (tick_frame s).trans (ih _)

/-! ### The pseudocode of the operations is legal -/

/-- The EEPROM and cascade pseudocode holds no index but those of the sixteen samples. -/
theorem legal_of_srBus {code : List Micro} (h : code.all Micro.srBus = true) : code.all Micro.legal = true := by
  rw [List.all_eq_true] at *
  intro m hm
  have := h m hm
  cases m <;> first | rfl | exact absurd this (by simp [Micro.srBus])

theorem sendBits_legal (v : Word) (n : Nat) : (sendBits v n).all Micro.legal = true := by
  induction n with
  | zero => rfl
  | succ n ih => exact all_append' rfl ih

theorem writeBitsCode_legal (v : Word) (n : Nat) : (writeBitsCode v n).all Micro.legal = true :=
  all_append' (sendBits_legal v n) rfl

theorem readWordAtCode_legal (a : Word) : (readWordAtCode a).all Micro.legal = true :=
  all_append' (all_append' (all_append' (all_append' rfl (writeBitsCode_legal _ _)) (writeBitsCode_legal a _)) (by decide)) rfl

theorem readsFrom_legal (a n : Nat) : (readsFrom a n).all Micro.legal = true := by
  induction n generalizing a with
  | zero => rfl
  | succ n ih => exact all_append' (readWordAtCode_legal _) (ih _)

theorem readRangeCode_legal (first last : EeAddr) : (readRangeCode first last).all Micro.legal = true := by
  unfold readRangeCode
  split
  · exact readsFrom_legal _ _
  · exact readWordAtCode_legal _

theorem cascadeCode_legal (b0 b1 : Byte) : (cascadeCode b0 b1).all Micro.legal = true :=
  legal_of_srBus (cascadeCode_srBus b0 b1)

theorem pinCode_legal (p : Pin) (v : Bool) (hold : Hold) : (pinCode p v hold).all Micro.legal = true := by
  cases hold <;> rfl

theorem scanCode_legal (c : Byte) {idx : Nat} (h : idx < 37) (r : Bool) : (scanCode c idx r).all Micro.legal = true :=
  all_append' (readWordAtCode_legal _) (by simp [Micro.legal, h])

theorem metaCode_legal {idx : Nat} (h : idx < 37) : (metaCode (slotAddr idx)).all Micro.legal = true := by
  refine all_append' (readWordAtCode_legal _) ?_
  have h5 : slotAddr idx ≠ 5#16 := slotAddr_ne_sentinel idx
  simp [Micro.legal, lookupValue_slot h, h5]

theorem flatMap_legal {α : Type} {l : List α} {f : α → List Micro} (h : ∀ a ∈ l, (f a).all Micro.legal = true) :
    (l.flatMap f).all Micro.legal = true := by
  rw [List.all_flatMap, List.all_eq_true]
  exact h

theorem loadCode_legal (addr : Word) (cc : Byte) : (loadCode addr cc).all Micro.legal = true := by
  refine flatMap_legal (fun j hj => ?_)
  have hj' := List.mem_range.1 hj
  have hcc : cc.toNat < 256 := cc.isLt
  unfold loadOne
  split
  · refine all_append' (readWordAtCode_legal _) ?_
    have : j + 1 < 256 := by omega
    simp [Micro.legal, this]
  · rfl

theorem refreshCode_legal : refreshCode.all Micro.legal = true := by
  refine flatMap_legal (fun _ _ => flatMap_legal (fun slot hs => ?_))
  have : slot < 8 := List.mem_range.1 hs
  show ([Micro.showCol slot] ++ ([Micro.settle .short] ++ cascadeCode 0 0)).all Micro.legal = true
  refine all_append' ?_ (all_append' rfl (cascadeCode_legal 0 0))
  simp [Micro.legal, this]

theorem glyphCode_legal (addr : Word) (cc : Byte) : (glyphCode addr cc).all Micro.legal = true :=
  all_append' (all_append' (loadCode_legal addr cc) refreshCode_legal) rfl

/-! ### The reference EEPROM -/

theorem Eeprom.clock_device {d : Eeprom} (b : Bool) (ee : List (Nat × Word))
    (h : (d.phase = .cmd → d.sh.length < 11) ∧ d.q ≤ 16) :
    ((d.clock b ee).phase = .cmd → (d.clock b ee).sh.length < 11) ∧ (d.clock b ee).q ≤ 16 := by
  obtain ⟨h1, h2⟩ := h
  unfold Eeprom.clock
  split
  · split
    · exact ⟨fun _ => by simp, h2⟩
    · exact ⟨h1, h2⟩
  · rename_i hp
    have hl := h1 hp
    simp only
    split
    · simp only [Eeprom.decideFrame]
      split
      · exact ⟨fun h => by simp at h, by simp⟩
      · exact ⟨fun h => by simp at h, h2⟩
    · rename_i hne
      have hne' : (d.sh ++ [b]).length ≠ 11 := hne
      refine ⟨fun _ => ?_, h2⟩
      have : (d.sh ++ [b]).length = d.sh.length + 1 := by simp
      show (d.sh ++ [b]).length < 11
      omega
  · rename_i hp
    refine ⟨fun h => ?_, by show min (d.q + 1) 16 ≤ 16; omega⟩
    have : d.phase = .cmd := h
    rw [hp] at this; exact absurd this (by simp)
  · exact ⟨h1, h2⟩

theorem Eeprom.see_device {d : Eeprom} (pins : Pins) (r : Bool) (ee : List (Nat × Word))
    (h : (d.phase = .cmd → d.sh.length < 11) ∧ d.q ≤ 16) :
    (((d.see pins r ee).phase = .cmd → (d.see pins r ee).sh.length < 11) ∧ (d.see pins r ee).q ≤ 16) ∧
    (pins.eeSel = false → (d.see pins r ee).phase = .idle) := by
  unfold Eeprom.see
  split
  · exact ⟨⟨fun h => by simp at h, h.2⟩, fun _ => rfl⟩
  · rename_i hs
    refine ⟨?_, fun h => absurd h hs⟩
    split
    · exact Eeprom.clock_device _ ee h
    · exact h

theorem State.drive_device {s : State} (p : Pin) (v : Bool) (h1 : s.pins.eeSel = false → s.eeprom.phase = .idle)
    (h2 : (s.eeprom.phase = .cmd → s.eeprom.sh.length < 11) ∧ s.eeprom.q ≤ 16) :
    ((s.drive p v).pins.eeSel = false → (s.drive p v).eeprom.phase = .idle) ∧
    (((s.drive p v).eeprom.phase = .cmd → (s.drive p v).eeprom.sh.length < 11) ∧ (s.drive p v).eeprom.q ≤ 16) := by
  have hsee := fun r => Eeprom.see_device (s.pins.set p v) r s.ee h2
  cases p with
  | eeSel => exact ⟨(hsee false).2, (hsee false).1⟩
  | eeClk => exact ⟨(hsee _).2, (hsee _).1⟩
  | eeDout => exact ⟨(hsee false).2, (hsee false).1⟩
  | srClk => exact ⟨h1, h2⟩
  | srData => exact ⟨h1, h2⟩
  | srLatch => exact ⟨h1, h2⟩

/-! ### Every micro-operation keeps it -/

theorem RunInv.push {s : State} (h : RunInv s) {code : List Micro} (hc : code.all Micro.legal = true) :
    RunInv (s.push code) :=
  ⟨h.txt, h.cbuf, h.faddr, all_append' hc h.legal, h.deselected, h.device⟩

theorem RunInv.setFaddr {s : State} (h : RunInv s) {a : Word} (ha : lookupValue a = true) :
    RunInv { s with faddr := a } := ⟨h.txt, h.cbuf, ha, h.legal, h.deselected, h.device⟩

theorem perform_runInv {m : Micro} (hm : m.legal = true) {s : State} (h : RunInv s) : RunInv (perform m s) := by
  cases m with
  | drive p v =>
    obtain ⟨h1, h2⟩ := State.drive_device p v h.deselected h.device
    exact ⟨h.txt, h.cbuf, h.faddr, h.legal, h1, h2⟩
  | settle d => exact ⟨h.txt, h.cbuf, h.faddr, h.legal, h.deselected, h.device⟩
  | clearWord => exact ⟨h.txt, h.cbuf, h.faddr, h.legal, h.deselected, h.device⟩
  | sample i => exact ⟨h.txt, h.cbuf, h.faddr, h.legal, h.deselected, h.device⟩
  | result => exact ⟨h.txt, h.cbuf, h.faddr, h.legal, h.deselected, h.device⟩
  | unpack j =>
    exact ⟨h.txt, State.cbufWrite_wf (State.cbufWrite_wf h.cbuf _ _) _ _, h.faddr, h.legal, h.deselected, h.device⟩
  | setTxtptr ptr => exact ⟨h.txt, h.cbuf, h.faddr, h.legal, h.deselected, h.device⟩
  | fetch =>
    have he : RunInv (s.emit (.txtRead s.txtptr (s.txtRead s.txtptr))) :=
      ⟨h.txt, h.cbuf, h.faddr, h.legal, h.deselected, h.device⟩
    refine he.push ?_
    split
    · rfl
    · exact scanCode_legal _ (by omega) true
  | scanTest c idx r =>
    have hi : idx < 37 := by simpa [Micro.legal] using hm
    simp only [perform, State.scanTest]
    split
    · refine (h.setFaddr (lookupValue_slot hi)).push ?_
      cases r
      · rfl
      · exact metaCode_legal hi
    · split
      · rename_i hn
        exact h.push (scanCode_legal _ hn r)
      · refine (h.setFaddr (by decide)).push ?_
        cases r <;> rfl
  | metaTest addr => exact h.push (glyphCode_legal _ _)
  | showCol slot => exact h.push (cascadeCode_legal _ _)
  | nextChar =>
    have he : RunInv { s with txtptr := s.txtptr + 1 } := ⟨h.txt, h.cbuf, h.faddr, h.legal, h.deselected, h.device⟩
    exact he.push rfl

theorem tick_runInv {s : State} (h : RunInv s) : RunInv (tick s) := by
  rw [tick]
  split
  · exact h
  · rename_i m rest hs
    have hl := h.legal
    rw [hs, List.all_cons, Bool.and_eq_true] at hl
    exact perform_runInv hl.1 ⟨h.txt, h.cbuf, h.faddr, hl.2, h.deselected, h.device⟩

theorem runTicks_runInv (n : Nat) {s : State} (h : RunInv s) : RunInv (runTicks n s) :=
  runTicks_keeps (fun _ h => tick_runInv h) n h

end Sys2Proof.Machine
end

