-- ==== Sys2Proof/Laws/PerInstr.lean ====
section
/-! SUPPORT. One lemma for each instruction: the word of a command lies in its own row of the table of R71, and no instruction
has more bits than its row. -/

namespace Sys2Proof.Laws.InItsRow

open Sys2Proof Sys2Proof.Machine

/-- The instruction's bits fit its row's length, and a command's word passes the test of the row of its mnemonic (R71). -/
def Statement (i : Instr) : Prop :=
  (encode i).toNat < 2 ^ i.bits ∧
    (i.isCommand = true → ∃ r ∈ commandRows, r.mnemonic = i.mnemonic ∧ r.holds (encode i))

theorem pin (sig : Signal) (level : Bool) (hold : Hold) : Statement (.pin sig level hold) :=
  ⟨(encode (.pin sig level hold)).isLt, fun _ => ⟨⟨"PIN", 0x10000000, 0xFFFFFFC0⟩, by decide, rfl, encode_pin_row sig level hold⟩⟩

theorem start : Statement .start :=
  ⟨by decide, fun _ => ⟨⟨"START", 0x20000000, 0xFFFFFFFF⟩, by decide, rfl, rfl⟩⟩

theorem wbits (value : Word) (bitCount : BitVec 5) : Statement (.wbits value bitCount) :=
  ⟨(encode (.wbits value bitCount)).isLt,
    fun _ => ⟨⟨"WBITS", 0x30000000, 0xFFE00000⟩, by decide, rfl, encode_wbits_row value bitCount⟩⟩

theorem rword : Statement .rword :=
  ⟨by decide, fun _ => ⟨⟨"RWORD", 0x40000000, 0xFFFFFFFF⟩, by decide, rfl, rfl⟩⟩

theorem rdat (address : EeAddr) : Statement (.rdat address) :=
  ⟨(encode (.rdat address)).isLt, fun _ => ⟨⟨"RDAT", 0x50000000, 0xFFFFFE00⟩, by decide, rfl, encode_rdat_row address⟩⟩

theorem rdrng (first last : EeAddr) : Statement (.rdrng first last) :=
  ⟨(encode (.rdrng first last)).isLt,
    fun _ => ⟨⟨"RDRNG", 0x60000000, 0xFE00FE00⟩, by decide, rfl, encode_rdrng_row first last⟩⟩

theorem shift (value : Byte) (dir : Direction) : Statement (.shift value dir) :=
  ⟨(encode (.shift value dir)).isLt,
    fun _ => ⟨⟨"SHIFT", 0x70000000, 0xFFFFFE00⟩, by decide, rfl, encode_shift_row value dir⟩⟩

theorem latch : Statement .latch :=
  ⟨by decide, fun _ => ⟨⟨"LATCH", 0x80000000, 0xFFFFFFFF⟩, by decide, rfl, rfl⟩⟩

theorem casc (byte0 byte1 : Byte) : Statement (.casc byte0 byte1) :=
  ⟨(encode (.casc byte0 byte1)).isLt,
    fun _ => ⟨⟨"CASC", 0x90000000, 0xFFFF0000⟩, by decide, rfl, encode_casc_row byte0 byte1⟩⟩

theorem find (character : Byte) : Statement (.find character) :=
  ⟨(encode (.find character)).isLt,
    fun _ => ⟨⟨"FIND", 0xA0000000, 0xFFFFFF00⟩, by decide, rfl, encode_find_row character⟩⟩

theorem render (ptr : TxtAddr) : Statement (.render ptr) :=
  ⟨(encode (.render ptr)).isLt,
    fun _ => ⟨⟨"RENDER", 0xB0000000, 0xFFFF0000⟩, by decide, rfl, encode_render_row ptr⟩⟩

theorem eeReadFrame (address : EeAddr) : Statement (.eeReadFrame address) := by
  refine ⟨?_, fun h => by cases h⟩
  show (0#20 ++ 1#1 ++ Config.config.readOpcode ++ address : BitVec (20 + 1 + 2 + 9)).toNat < 2 ^ 12
  have := address.isLt
  simp only [BitVec.toNat_append, Config.config, BitVec.toNat_ofNat]
  rw [Nat.shiftLeft_eq, ← Nat.mul_comm, ← Nat.two_pow_add_eq_or_of_lt this]
  simp only [Nat.reduceMod, Nat.zero_shiftLeft, Nat.reduceShiftLeft, Nat.reduceOr, Nat.zero_or, Nat.reducePow, Nat.reduceMul]
  omega

theorem srCascadeFrame (byte0 byte1 : Byte) : Statement (.srCascadeFrame byte0 byte1) := by
  refine ⟨?_, fun h => by cases h⟩
  show (0#16 ++ byte1.reverse ++ byte0.reverse : BitVec (16 + 8 + 8)).toNat < 2 ^ 16
  have h0 := byte0.reverse.isLt
  have h1 := byte1.reverse.isLt
  simp only [BitVec.toNat_append, BitVec.toNat_ofNat]
  rw [Nat.shiftLeft_eq, ← Nat.mul_comm, ← Nat.two_pow_add_eq_or_of_lt h0]
  simp only [Nat.zero_shiftLeft, Nat.zero_or, Nat.zero_mod, Nat.reducePow]
  omega

end Sys2Proof.Laws.InItsRow
end

