-- ==== Sys2Proof/Laws/Renderer.lean ====
section
/-! SUPPORT. What the renderer does (spec/43_renderer.md R132 to R136): the column load, the refresh, one character, a whole
text, and how many micro-operations each takes at most. -/

namespace Sys2Proof.Machine

theorem OnlyEepromBus.withCbuf {s t u : State} (h : OnlyEepromBus { s with cbuf := t.cbuf } t)
    (h' : OnlyEepromBus { t with cbuf := u.cbuf } u) : OnlyEepromBus { s with cbuf := u.cbuf } u :=
  ⟨h'.srClk.trans h.srClk, h'.srData.trans h.srData, h'.srLatch.trans h.srLatch, h'.faddr.trans h.faddr, rfl,
    h'.txtptr.trans h.txtptr, h'.fcause.trans h.fcause, h'.finfo.trans h.finfo, h'.resetSeen.trans h.resetSeen,
    h'.chain.trans h.chain, h'.out.trans h.out, h'.txt.trans h.txt, h'.ee.trans h.ee, h'.eeRef.trans h.eeRef,
    h'.host.trans h.host, h'.look.trans h.look⟩

theorem OnlyEepromBus.keepsCbuf {s t : State} (h : OnlyEepromBus s t) : OnlyEepromBus { s with cbuf := t.cbuf } t :=
  ⟨h.srClk, h.srData, h.srLatch, h.faddr, rfl, h.txtptr, h.fcause, h.finfo, h.resetSeen, h.chain, h.out, h.txt, h.ee, h.eeRef,
    h.host, h.look⟩

/-! ### The column load (R135) -/

/-- The load of the column offsets below `n`. -/
def loadUpTo (addr : Word) (n : Nat) : List Micro := (List.range n).flatMap (loadOne addr)

theorem loadUpTo_succ (addr : Word) (n : Nat) : loadUpTo addr (n + 1) = loadUpTo addr n ++ loadOne addr n := by
  simp [loadUpTo, List.range_succ]

theorem loadCode_eq (addr : Word) (cc : Byte) : loadCode addr cc = loadUpTo addr (cc.toNat + 1) := rfl

/-- The load of one bitmap word into the buffer, low byte first. -/
def loadWord (ee : List (Nat × Word)) (addr : Word) (m : Memory) (k : Nat) : Memory :=
  Memory.write (Memory.write m (2 * k) (lowByte (bitmapWord ee addr k))) (2 * k + 1) (highByte (bitmapWord ee addr k))

theorem loadColumns_eq (ee : List (Nat × Word)) (addr : Word) (cc : Byte) (m : Memory) :
    loadColumns ee addr cc m = (List.range (cc.toNat / 2 + 1)).foldl (loadWord ee addr) m := rfl

theorem bitmapAddr_even (addr : Word) (k : Nat) : bitmapAddr addr (2 * k) = addr + BitVec.ofNat 16 (2 * k + 2) := rfl

theorem unpack_eq (s : State) (j : Nat) (hj : j + 1 < 256) : s.unpack j =
    { s with cbuf := Memory.write (Memory.write s.cbuf j (lowByte s.work)) (j + 1) (highByte s.work) } := by
  have h1 : j < Config.config.bufSlots := by show j < 256; omega
  have h2 : j + 1 < Config.config.bufSlots := hj
  simp only [State.unpack, State.cbufWrite, if_pos h1, if_pos h2]

/-- What one even column offset does (R132 step 3), whatever the samples are. -/
theorem loadOne_even (addr : Word) {j : Nat} (hj : j % 2 = 0) (s : State) :
    runCode (loadOne addr j) s = (runCode (readWordAtCode (bitmapAddr addr j)) s).unpack j := by
  rw [loadOne, if_pos hj, runCode_append]; rfl

theorem loadOne_odd (addr : Word) {j : Nat} (hj : ¬ j % 2 = 0) (s : State) : runCode (loadOne addr j) s = s := by
  rw [loadOne, if_neg hj]; rfl

theorem unpack_frame (s : State) (j : Nat) : OnlyEepromBus { s with cbuf := (s.unpack j).cbuf } (s.unpack j) := by
  constructor <;> rfl

theorem loadOne_frame (addr : Word) (j : Nat) (s : State) :
    OnlyEepromBus { s with cbuf := (runCode (loadOne addr j) s).cbuf } (runCode (loadOne addr j) s) := by
  by_cases hj : j % 2 = 0
  · rw [loadOne_even addr hj]
    exact (runCode_onlyEepromBus (readWordAtCode_eeBus _) s).keepsCbuf.withCbuf (unpack_frame _ j)
  · rw [loadOne_odd addr hj]
    exact OnlyEepromBus.refl s

theorem loadUpTo_frame (addr : Word) (n : Nat) (s : State) :
    OnlyEepromBus { s with cbuf := (runCode (loadUpTo addr n) s).cbuf } (runCode (loadUpTo addr n) s) := by
  induction n with
  | zero => exact OnlyEepromBus.refl s
  | succ n ih =>
    rw [loadUpTo_succ, runCode_append]
    exact ih.withCbuf (loadOne_frame addr n _)

theorem loadOne_released (addr : Word) (j : Nat) {s : State} (h : Released s) : Released (runCode (loadOne addr j) s) := by
  by_cases hj : j % 2 = 0
  · rw [loadOne_even addr hj]
    have hp := readWordAtCode_pins (bitmapAddr addr j) s
    exact ⟨hp.1, hp.2.1, hp.2.2⟩
  · rw [loadOne_odd addr hj]; exact h

theorem loadUpTo_released (addr : Word) (n : Nat) {s : State} (h : Released s) :
    Released (runCode (loadUpTo addr n) s) := by
  induction n with
  | zero => exact h
  | succ n ih => rw [loadUpTo_succ, runCode_append]; exact loadOne_released addr n ih

/-- The load with the reference EEPROM on the wires (R135). -/
theorem loadUpTo_ref (addr : Word) (n : Nat) (hn : n ≤ 256) {s : State} (h : s.eeRef = true) :
    (runCode (loadUpTo addr n) s).cbuf = (List.range ((n + 1) / 2)).foldl (loadWord s.ee addr) s.cbuf ∧
    (runCode (loadUpTo addr n) s).trace = s.trace ++ (List.range ((n + 1) / 2)).flatMap
      (fun k => readAtTrace ((addr + BitVec.ofNat 16 (2 * k + 2)).setWidth 9) (bitmapWord s.ee addr k)) ∧
    (0 < n → (runCode (loadUpTo addr n) s).result = bitmapWord s.ee addr ((n + 1) / 2 - 1)) ∧
    (runCode (loadUpTo addr n) s).din = s.din ∧ (runCode (loadUpTo addr n) s).draws = s.draws := by
  induction n with
  | zero => simp [loadUpTo]
  | succ n ih =>
    obtain ⟨h1, h2, h3, h4, h5⟩ := ih (by omega)
    have hee := (loadUpTo_frame addr n s).ee
    have href := (loadUpTo_frame addr n s).eeRef
    simp only at hee href
    rw [loadUpTo_succ, runCode_append]
    generalize runCode (loadUpTo addr n) s = u at h1 h2 h3 h4 h5 hee href
    by_cases hj : n % 2 = 0
    · obtain ⟨k, rfl⟩ : ∃ k, n = 2 * k := ⟨n / 2, by omega⟩
      have hk : (2 * k + 1 + 1) / 2 = k + 1 := by omega
      have hk' : (2 * k + 1) / 2 = k := by omega
      rw [hk'] at h1 h2
      have hv := readWordAtCode_ref (bitmapAddr addr (2 * k)) (s := u) (by rw [href, h])
      have hw := readWordAtCode_work (bitmapAddr addr (2 * k)) u
      have ht := readWordAtCode_trace (bitmapAddr addr (2 * k)) u
      have hr := readWordAtCode_result (bitmapAddr addr (2 * k)) u
      have hc := (runCode_onlyEepromBus (readWordAtCode_eeBus (bitmapAddr addr (2 * k))) u).cbuf
      have hval : readAtValue (bitmapAddr addr (2 * k)) u = bitmapWord s.ee addr k := by rw [hv.1, hee]; rfl
      rw [hval] at hw ht hr
      rw [loadOne_even addr hj, unpack_eq _ _ (by omega), hk, List.range_succ, List.foldl_append, List.flatMap_append]
      have hv2 := hv.2
      generalize runCode (readWordAtCode (bitmapAddr addr (2 * k))) u = v at hw ht hr hc hv2
      refine ⟨?_, ?_, ?_, hv2.1.trans h4, hv2.2.trans h5⟩
      · simp only [hw, hc, h1, List.foldl_cons, List.foldl_nil]; rfl
      · show v.trace = _
        rw [ht, h2, List.append_assoc]
        simp only [List.flatMap_cons, List.flatMap_nil, List.append_nil]; rfl
      · intro _; exact hr
    · rw [loadOne_odd addr hj]
      have hk : (n + 1 + 1) / 2 = (n + 1) / 2 := by omega
      rw [hk]
      exact ⟨h1, h2, fun _ => h3 (by omega), h4, h5⟩

/-! ### The refresh (R136) -/

/-- The slots the refresh shows, in order: 32 times 0 to 7. -/
def refreshSlots : List Nat := (List.replicate 32 (List.range 8)).flatten

theorem flatMap_replicate {α β : Type} (f : α → List β) (n : Nat) (l : List α) :
    ((List.replicate n l).flatten).flatMap f = (List.replicate n (l.flatMap f)).flatten := by
  induction n with
  | zero => rfl
  | succ n ih => simp only [List.replicate_succ, List.flatten_cons, List.flatMap_append, ih]

theorem refreshCode_eq : refreshCode = refreshSlots.flatMap refreshOne := by
  rw [refreshSlots, flatMap_replicate, refreshCode, List.flatMap_def, List.map_const', List.length_range]
  rfl

theorem refreshTrace_eq (cbuf : Memory) : refreshTrace cbuf = refreshSlots.flatMap (columnTrace cbuf) := by
  rw [refreshSlots, flatMap_replicate, refreshTrace]

theorem refreshSlots_lt : ∀ i ∈ refreshSlots, i < 8 := by
  intro i hi
  rw [refreshSlots, List.mem_flatten] at hi
  obtain ⟨l, hl, hi⟩ := hi
  rw [(List.mem_replicate.1 hl).2] at hi
  exact List.mem_range.1 hi

theorem refreshSlots_length : refreshSlots.length = 256 := by
  simp [refreshSlots]

theorem maskOf_eq {slot : Nat} (h : slot < 8) : maskOf slot = BitVec.twoPow 8 slot := by
  interval_cases slot <;> decide

/-- The column, the settle and the blank of one slot (R132 step 4). -/
def columnCode (b0 b1 : Byte) : List Micro := cascadeCode b0 b1 ++ .settle .short :: cascadeCode 0 0

theorem columnCode_straight (b0 b1 : Byte) : Straight (columnCode b0 b1) :=
  straight_append (cascadeCode_straight _ _) (cascadeCode_straight 0 0)

theorem columnCode_srBus (b0 b1 : Byte) : (columnCode b0 b1).all Micro.srBus = true :=
  all_append' (cascadeCode_srBus _ _) (cascadeCode_srBus 0 0)

/-- How the slots shown come out. -/
structure Shown (slots : List Nat) (rest : List Micro) (s t : State) : Prop where
  frame : OnlyCascadeBus s t
  seq : t.seq = s.seq
  done : t.done = s.done
  textBase : t.textBase = s.textBase
  todo : t.todo = rest
  trace : t.trace = s.trace ++ slots.flatMap (columnTrace s.cbuf)
  blank : slots ≠ [] → BlankDisplay t

theorem columnCode_shown (slot : Nat) (hs : slot < 8) (rest : List Micro) (s : State) :
    Shown [slot] rest s
      { runCode (columnCode (~~~(s.cbufRead slot)) (maskOf slot)) s with todo := rest } := by
  have hf := runCode_onlyCascadeBus (columnCode_srBus (~~~(s.cbufRead slot)) (maskOf slot)) s
  have hc := runCode_sameControl (columnCode_straight (~~~(s.cbufRead slot)) (maskOf slot)) s
  have heq : runCode (columnCode (~~~(s.cbufRead slot)) (maskOf slot)) s =
      runCode (cascadeCode 0 0) ((runCode (cascadeCode (~~~(s.cbufRead slot)) (maskOf slot)) s).emit (.settle .short)) := by
    rw [columnCode, runCode_append, runCode_cons]; rfl
  have ht : (runCode (columnCode (~~~(s.cbufRead slot)) (maskOf slot)) s).trace = s.trace ++ columnTrace s.cbuf slot := by
    rw [heq, cascadeCode_trace, State.trace_emit, cascadeCode_trace, maskOf_eq hs, columnTrace]
    simp only [List.append_assoc]
    rfl
  have hb : BlankDisplay (runCode (columnCode (~~~(s.cbufRead slot)) (maskOf slot)) s) := by
    rw [heq]
    have hp1 := cascadeCode_pins (~~~(s.cbufRead slot)) (maskOf slot) s
    have hp := cascadeCode_pins 0 0
      ((runCode (cascadeCode (~~~(s.cbufRead slot)) (maskOf slot)) s).emit (.settle .short))
    have hch := cascadeCode_chain 0 0
      (s := (runCode (cascadeCode (~~~(s.cbufRead slot)) (maskOf slot)) s).emit (.settle .short)) hp1.1 hp1.2.2
    exact ⟨hp.1, hp.2.1, hp.2.2, hch.1.trans (by decide), hch.2.trans (by decide)⟩
  generalize runCode (columnCode (~~~(s.cbufRead slot)) (maskOf slot)) s = u at hf hc ht hb
  exact {
    frame := ⟨hf.eeSel, hf.eeClk, hf.eeDout, hf.result, hf.faddr, hf.cbuf, hf.txtptr, hf.fcause, hf.finfo, hf.work,
      hf.resetSeen, hf.eeprom, hf.txt, hf.ee, hf.eeRef, hf.din, hf.draws, hf.host, hf.look⟩
    seq := hc.seq
    done := hc.done
    textBase := hc.textBase
    todo := rfl
    trace := by
      rw [List.flatMap_cons, List.flatMap_nil, List.append_nil]; exact ht
    blank := fun _ => ⟨hb.srClk, hb.srData, hb.srLatch, hb.chain, hb.out⟩ }

theorem column_leads (slot : Nat) (rest : List Micro) {s : State} (h : s.todo = refreshOne slot ++ rest) :
    Leads 168 s { runCode (columnCode (~~~(s.cbufRead slot)) (maskOf slot)) { s with todo := [] } with todo := rest } := by
  have h1 : Leads 1 s { s with todo := columnCode (~~~(s.cbufRead slot)) (maskOf slot) ++ rest } := by
    have := Leads.one (s := s) (m := .showCol slot) (rest := .settle .short :: cascadeCode 0 0 ++ rest) h
    have he : perform (.showCol slot) { s with todo := .settle .short :: cascadeCode 0 0 ++ rest } =
        { s with todo := columnCode (~~~(s.cbufRead slot)) (maskOf slot) ++ rest } := by
      simp only [perform, State.push, columnCode, List.append_assoc]
      rfl
    rwa [he] at this
  have h2 := Leads.code (columnCode_straight (~~~(s.cbufRead slot)) (maskOf slot))
    (s := { s with todo := columnCode (~~~(s.cbufRead slot)) (maskOf slot) ++ rest }) (rest := rest) rfl
  have hlen : (columnCode (~~~(s.cbufRead slot)) (maskOf slot)).length = 167 := by
    simp [columnCode]
  rw [hlen, runCode_withTodo (columnCode_straight _ _)] at h2
  rw [runCode_withTodo (columnCode_straight _ _)]
  exact h1.trans h2

theorem refresh_leads (slots : List Nat) (rest : List Micro) :
    ∀ s : State, (∀ i ∈ slots, i < 8) → s.todo = slots.flatMap refreshOne ++ rest →
    ∃ t, Leads (168 * slots.length) s t ∧ Shown slots rest s t := by
  induction slots with
  | nil =>
    intro s _ h
    exact ⟨s, Leads.refl s, ⟨OnlyCascadeBus.refl s, rfl, rfl, rfl, h, by simp, fun h => absurd rfl h⟩⟩
  | cons slot slots ih =>
    intro s hlt h
    have hc := column_leads slot (slots.flatMap refreshOne ++ rest) (s := s)
      (by rw [h, List.flatMap_cons, List.append_assoc])
    have hs := columnCode_shown slot (hlt slot (by simp)) (slots.flatMap refreshOne ++ rest) { s with todo := [] }
    rw [show State.cbufRead { s with todo := [] } slot = s.cbufRead slot from rfl] at hs
    generalize ({ runCode (columnCode (~~~(s.cbufRead slot)) (maskOf slot)) { s with todo := [] } with
      todo := slots.flatMap refreshOne ++ rest } : State) = u at hc hs
    obtain ⟨t, h1, h2⟩ := ih u (fun i hi => hlt i (by simp [hi])) hs.todo
    refine ⟨t, by rw [List.length_cons, Nat.mul_succ, Nat.add_comm]; exact hc.trans h1, ?_⟩
    have hf := hs.frame.trans h2.frame
    refine {
      frame := ⟨hf.eeSel, hf.eeClk, hf.eeDout, hf.result, hf.faddr, hf.cbuf, hf.txtptr, hf.fcause, hf.finfo, hf.work,
        hf.resetSeen, hf.eeprom, hf.txt, hf.ee, hf.eeRef, hf.din, hf.draws, hf.host, hf.look⟩
      seq := h2.seq.trans hs.seq
      done := h2.done.trans hs.done
      textBase := h2.textBase.trans hs.textBase
      todo := h2.todo
      trace := ?_
      blank := fun _ => ?_ }
    · rw [h2.trace, hs.trace, hs.frame.cbuf]
      simp only [List.flatMap_cons, List.flatMap_nil, List.append_nil, List.append_assoc]
      rfl
    · rcases slots with _ | ⟨i, slots⟩
      · have hb := hs.blank (by simp)
        -- nothing more is shown, so `t` is as the one column left it
        have ht : t = u := by
          have := h1 0
          simpa using this.symm
        rw [ht]; exact hb
      · exact h2.blank (by simp)

/-! ### One character (R132, R134) -/

/-- How RENDER comes from fetching the character `c` in `s` to fetching the next one in `t`. -/
structure CharDone (c : Byte) (s t : State) : Prop where
  todo : t.todo = [.fetch]
  txtptr : t.txtptr = s.txtptr + 1
  frame : RenderFrame s t
  seq : t.seq = s.seq
  done : t.done = s.done
  textBase : t.textBase = s.textBase
  released : Released t
  lookup : lookupValue t.faddr = true
  stored : s.eeRef = true →
    t.rendered = renderChar s.ee { s.rendered with events := s.trace ++ [.txtRead s.txtptr c] } c ∧
    t.din = s.din ∧ t.draws = s.draws
  missed : s.eeRef = true → firstSlot s.ee c = none → SameDisplay s t
  shown : s.eeRef = true → firstSlot s.ee c ≠ none → BlankDisplay t

theorem Leads.cast {n m : Nat} {s t : State} (h : Leads n s t) (e : n = m) : Leads m s t := e ▸ h

/-- The metadata read, the load, the refresh and the step to the next character, from a hit on. -/
theorem glyph_leads (addr : Word) {s : State} (h : s.todo = metaCode addr) :
    ∃ n t, Leads n s t ∧ n ≤ 82600 ∧ t.todo = [.fetch] ∧ t.txtptr = s.txtptr + 1 ∧ RenderFrame s t ∧ t.faddr = s.faddr ∧
      t.seq = s.seq ∧ t.done = s.done ∧ t.textBase = s.textBase ∧ Released t ∧ BlankDisplay t ∧
      (s.eeRef = true →
        t.cbuf = loadColumns s.ee addr (highByte (eeRead s.ee (wireAddr addr))) s.cbuf ∧
        t.result = bitmapWord s.ee addr ((highByte (eeRead s.ee (wireAddr addr))).toNat / 2) ∧
        t.trace = s.trace ++ readAtTrace (wireAddr addr) (eeRead s.ee (wireAddr addr))
          ++ loadTrace s.ee addr (highByte (eeRead s.ee (wireAddr addr)))
          ++ refreshTrace (loadColumns s.ee addr (highByte (eeRead s.ee (wireAddr addr))) s.cbuf) ∧
        t.din = s.din ∧ t.draws = s.draws) := by
  -- the metadata read
  have h1 := Leads.code (readWordAtCode_straight addr) (s := s) (rest := [.metaTest addr]) h
  rw [readWordAtCode_length] at h1
  have hf1 := runCode_onlyEepromBus (readWordAtCode_eeBus addr) s
  have hc1 := runCode_sameControl (readWordAtCode_straight addr) s
  have hr1 : Released (runCode (readWordAtCode addr) s) :=
    ⟨(readWordAtCode_pins addr s).1, (readWordAtCode_pins addr s).2.1, (readWordAtCode_pins addr s).2.2⟩
  have ht1 := readWordAtCode_trace addr s
  have hw1 := readWordAtCode_work addr s
  have hv1 := readWordAtCode_ref addr (s := s)
  generalize readAtValue addr s = w at ht1 hw1 hv1
  generalize runCode (readWordAtCode addr) s = u1 at h1 hf1 hc1 hr1 ht1 hw1 hv1
  -- its column count opens the load and the refresh
  have h2 := Leads.next u1 (.metaTest addr) []
  have he2 : perform (.metaTest addr) { u1 with todo := [] } =
      { u1 with todo := loadUpTo addr ((highByte w).toNat + 1) ++ (refreshSlots.flatMap refreshOne ++ [.nextChar]) } := by
    show ({ u1 with todo := glyphCode addr (highByte u1.work) ++ [] } : State) = _
    rw [hw1, glyphCode, loadCode_eq, refreshCode_eq, List.append_nil, List.append_assoc]
  rw [he2] at h2
  -- the load
  have hst : Straight (loadUpTo addr ((highByte w).toNat + 1)) := loadCode_straight addr (highByte w)
  have h3 := Leads.code hst (s := { u1 with
    todo := loadUpTo addr ((highByte w).toNat + 1) ++ (refreshSlots.flatMap refreshOne ++ [.nextChar]) }) rfl
  rw [runCode_withTodo hst] at h3
  have hn3 : (loadUpTo addr ((highByte w).toNat + 1)).length ≤ 154 * ((highByte w).toNat + 1) :=
    loadCode_length addr (highByte w)
  have hlt : (highByte w).toNat < 256 := (highByte w).isLt
  have hf3 := loadUpTo_frame addr ((highByte w).toNat + 1) u1
  have hc3 := runCode_sameControl hst u1
  have hr3 := loadUpTo_released addr ((highByte w).toNat + 1) hr1
  have hv3 := loadUpTo_ref addr ((highByte w).toNat + 1) (by omega) (s := u1)
  generalize runCode (loadUpTo addr ((highByte w).toNat + 1)) u1 = u3 at h3 hf3 hc3 hr3 hv3
  -- the refresh
  obtain ⟨u4, h4, hs4⟩ := refresh_leads refreshSlots [.nextChar]
    { u3 with todo := refreshSlots.flatMap refreshOne ++ [.nextChar] } refreshSlots_lt rfl
  rw [refreshSlots_length] at h4
  -- on to the next character
  have h5 := Leads.one (s := u4) (m := .nextChar) (rest := []) hs4.todo
  have he5 : perform .nextChar { u4 with todo := [] } = { u4 with todo := [.fetch], txtptr := u4.txtptr + 1 } := rfl
  rw [he5] at h5
  refine ⟨_, _, (((h1.trans h2).trans h3).trans h4).trans h5, by omega, rfl, ?_, ?_, ?_, ?_, ?_, ?_, ?_, ?_, ?_⟩
  · show u4.txtptr + 1 = _
    rw [hs4.frame.txtptr]
    show u3.txtptr + 1 = _
    rw [hf3.txtptr]
    show u1.txtptr + 1 = _
    rw [hf1.txtptr]
  · exact ⟨(hs4.frame.fcause.trans hf3.fcause).trans hf1.fcause, (hs4.frame.finfo.trans hf3.finfo).trans hf1.finfo,
      (hs4.frame.resetSeen.trans hf3.resetSeen).trans hf1.resetSeen, (hs4.frame.txt.trans hf3.txt).trans hf1.txt,
      (hs4.frame.ee.trans hf3.ee).trans hf1.ee, (hs4.frame.eeRef.trans hf3.eeRef).trans hf1.eeRef,
      (hs4.frame.host.trans hf3.host).trans hf1.host, (hs4.frame.look.trans hf3.look).trans hf1.look⟩
  · exact (hs4.frame.faddr.trans hf3.faddr).trans hf1.faddr
  · exact (hs4.seq.trans hc3.seq).trans hc1.seq
  · exact (hs4.done.trans hc3.done).trans hc1.done
  · exact (hs4.textBase.trans hc3.textBase).trans hc1.textBase
  · exact ⟨hs4.frame.eeSel.trans hr3.sel, hs4.frame.eeClk.trans hr3.clk, hs4.frame.eeDout.trans hr3.dout⟩
  · have hb := hs4.blank (by decide)
    exact ⟨hb.srClk, hb.srData, hb.srLatch, hb.chain, hb.out⟩
  · intro he
    have hv := hv1 he
    have he1 : u1.eeRef = true := hf1.eeRef.trans he
    have hee : u1.ee = s.ee := hf1.ee
    obtain ⟨hb, htr, hres, hdin, hdr⟩ := hv3 he1
    have hk : ((highByte w).toNat + 1 + 1) / 2 = (highByte w).toNat / 2 + 1 := by omega
    rw [hee, hk] at hb htr hres
    rw [← hv.1]
    have hcb : u1.cbuf = s.cbuf := hf1.cbuf
    rw [hcb] at hb
    refine ⟨hs4.frame.cbuf.trans hb, ?_, ?_, (hs4.frame.din.trans hdin).trans hv.2.1,
      (hs4.frame.draws.trans hdr).trans hv.2.2⟩
    · exact hs4.frame.result.trans (hres (by omega))
    · show u4.trace = _
      rw [hs4.trace, ← refreshTrace_eq]
      show u3.trace ++ refreshTrace u3.cbuf = _
      rw [htr, ht1, hb]
      rfl

theorem char_leads {s : State} (h : s.todo = [.fetch]) (hc : s.txtRead s.txtptr ≠ Config.config.term) :
    ∃ n t, Leads n s t ∧ n ≤ 88300 ∧ CharDone (s.txtRead s.txtptr) s t := by
  generalize hcc : s.txtRead s.txtptr = c at hc
  have h1 := Leads.one (s := s) (m := .fetch) (rest := []) h
  have he1 : perform .fetch { s with todo := [] } =
      { s with todo := scanCode c 0 true ++ [], log := .txtRead s.txtptr c :: s.log } := by
    show (State.push _ (if s.txtRead s.txtptr = _ then _ else scanCode (s.txtRead s.txtptr) 0 true) : State) = _
    rw [hcc, if_neg hc]
    show ({ s with todo := _, log := .txtRead s.txtptr (s.txtRead s.txtptr) :: s.log } : State) = _
    rw [hcc]
    rfl
  rw [he1] at h1
  obtain ⟨n2, t2, ws, h2, hn2, hs⟩ := scan_leads c true [] 37 0 _ (by omega) rfl
    (show State.todo { s with todo := scanCode c 0 true ++ [], log := .txtRead s.txtptr c :: s.log }
      = scanCode c 0 true ++ [] from rfl)
  have hf := hs.frame
  have htr : t2.trace = s.trace ++ [.txtRead s.txtptr c] ++ scanTrace 0 ws := by
    rw [hs.trace]; simp [State.trace]
  have href := fun he : s.eeRef = true => hs.ref (show State.eeRef { s with
    todo := scanCode c 0 true ++ [], log := .txtRead s.txtptr c :: s.log } = true from he)
  rcases hs.outcome with ⟨hm, hfa, htodo⟩ | ⟨hm, hlen, hfa, htodo⟩
  · -- the character is in the table
    rw [if_pos rfl, List.append_nil] at htodo
    have hidx : 0 + ws.length - 1 < 37 := by have := hs.le; omega
    obtain ⟨n3, t, h3, hn3, k1, k2, k3, k4, k5, k6, k7, k8, k9, k10⟩ := glyph_leads t2.faddr htodo
    refine ⟨1 + n2 + n3, t, (h1.trans h2).trans h3, by omega, ?_⟩
    have hwhich : s.eeRef = true → ∃ i, firstSlot s.ee c = some i ∧ t2.faddr = slotAddr i ∧
        ws = (List.range (slotsRead s.ee c)).map (slotWord s.ee) := fun he => by
      obtain ⟨hw, ⟨i, e1, e2, -, -⟩ | ⟨-, e2, -, -⟩⟩ := href he
      · exact ⟨i, e1, e2, hw⟩
      · rw [hfa] at e2; exact absurd e2 (slotAddr_ne_sentinel _)
    exact {
      todo := k1
      txtptr := k2.trans (congrArg (· + 1) hf.txtptr)
      frame := ⟨k3.fcause.trans hf.fcause, k3.finfo.trans hf.finfo, k3.resetSeen.trans hf.resetSeen, k3.txt.trans hf.txt,
        k3.ee.trans hf.ee, k3.eeRef.trans hf.eeRef, k3.host.trans hf.host, k3.look.trans hf.look⟩
      seq := k5.trans hs.seq
      done := k6.trans hs.done
      textBase := k7.trans hs.textBase
      released := k8
      lookup := by rw [k4, hfa]; exact lookupValue_slot hidx
      stored := fun he => by
        obtain ⟨i, e1, e2, e3⟩ := hwhich he
        have he2 : t2.eeRef = true := hf.eeRef.trans he
        obtain ⟨b1, b2, b3, b4, b5⟩ := k10 he2
        have hee : t2.ee = s.ee := hf.ee
        have hcb : t2.cbuf = s.cbuf := hf.cbuf
        have hin := hs.inputs he
        have hwire : wireAddr (slotAddr i) = BitVec.ofNat 9 (10 * i) := by rw [slotAddr_eq, ofNat_wireAddr]
        have hword : eeRead s.ee (BitVec.ofNat 9 (10 * i)) = slotWord s.ee i := rfl
        rw [hee, e2, hwire, hword] at b1 b2 b3
        rw [hcb] at b1 b3
        refine ⟨?_, b4.trans hin.1, b5.trans hin.2⟩
        rw [htr, e3] at b3
        simp only [renderChar, e1, State.rendered]
        rw [b1, b2, b3, k4, e2, slotAddr_eq]
        rfl
      missed := fun he hnone => by
        obtain ⟨i, e1, -, -⟩ := hwhich he
        rw [hnone] at e1; exact absurd e1 (by simp)
      shown := fun _ _ => k9 }
  · -- it is not
    rw [if_pos rfl] at htodo
    have h3 := Leads.one (s := t2) (m := .nextChar) (rest := []) htodo
    have he3 : perform .nextChar { t2 with todo := [] } = { t2 with todo := [.fetch], txtptr := t2.txtptr + 1 } := rfl
    rw [he3] at h3
    refine ⟨1 + n2 + 1, _, (h1.trans h2).trans h3, by omega, ?_⟩
    exact {
      todo := rfl
      txtptr := congrArg (· + 1) hf.txtptr
      frame := ⟨hf.fcause, hf.finfo, hf.resetSeen, hf.txt, hf.ee, hf.eeRef, hf.host, hf.look⟩
      seq := hs.seq
      done := hs.done
      textBase := hs.textBase
      released := ⟨hs.sel, hs.clk, hs.dout⟩
      lookup := by show lookupValue t2.faddr = true; rw [hfa]; rfl
      stored := fun he => by
        obtain ⟨hw, ⟨i, -, e2, -, -⟩ | ⟨e1, e2, e3, -⟩⟩ := href he
        · rw [hfa] at e2; exact absurd e2.symm (slotAddr_ne_sentinel _)
        · have hin := hs.inputs he
          refine ⟨?_, hin.1, hin.2⟩
          have e1' : firstSlot s.ee c = none := e1
          simp only [renderChar, e1', State.rendered]
          show (⟨t2.cbuf, t2.faddr, t2.result, t2.trace⟩ : Rendered) = _
          have hcb : t2.cbuf = s.cbuf := hf.cbuf
          rw [hcb, e2, e3, htr, hw]
          rfl
      missed := fun _ _ => ⟨hf.srClk, hf.srData, hf.srLatch, hf.chain, hf.out⟩
      shown := fun he hsome => by
        obtain ⟨-, ⟨i, -, e2, -, -⟩ | ⟨e1, -, -, -⟩⟩ := href he
        · rw [hfa] at e2; exact absurd e2.symm (slotAddr_ne_sentinel _)
        · exact absurd e1 hsome }

end Sys2Proof.Machine
end

