-- ==== Sys2Proof/Laws/Step.lean ====
section
/-! SUPPORT. What a step can do, said once: the cases of `step`, the cases of `exec`, and what neither touches. -/

namespace Sys2Proof.Machine

/-! ### The engine's part of a step -/

/-- The state the engine works on: the inputs taken, the host's writes landed. -/
abbrev State.ready (s : State) : State := s.takeInput.hostWrites s.hostIn.txt

theorem stepEngine_halt {s : State} (h : s.seq = .halt) (c : Option CmdWord) : stepEngine c s = .next s := by
  unfold stepEngine; split <;> simp_all

theorem stepEngine_busy {s : State} (h : s.seq = .busy) (c : Option CmdWord) : stepEngine c s = .next s.resume := by
  unfold stepEngine; split <;> simp_all

theorem stepEngine_idle {s : State} (h : s.seq = .idle) : stepEngine none s = .next s := by
  unfold stepEngine; split <;> simp_all

theorem stepEngine_issue {s : State} (h : s.seq = .idle) (w : CmdWord) : stepEngine (some w) s = issue w s := by
  unfold stepEngine; split <;> simp_all

theorem issue_command {w : CmdWord} {i : Instr} (h : decode w = .command i) (s : State) : issue w s = exec i s := by
  simp only [issue, h]

theorem issue_illegal {w : CmdWord} (h : decode w = .illegalCmd) (s : State) :
    issue w s = .next (s.raiseFault .illegalCmd w) := by
  simp only [issue, h]

theorem issue_badBitCount {w : CmdWord} (h : decode w = .badBitCount) (s : State) :
    issue w s = .next (s.raiseFault .badBitCount w) := by
  simp only [issue, h]

theorem step_reset {s : State} (h : s.hostIn.rst = true) : step s = .next s.ready.resetEngine := by
  rw [step, if_pos h]

theorem step_running {s : State} (h1 : s.resetSeen = true) (h2 : s.hostIn.rst = false)
    (h3 : s.breaksText s.hostIn.txt = false) : step s = stepEngine s.hostIn.cmd s.ready := by
  simp [step, h1, h2, h3]

/-! ### What `exec` can do -/

/-- The ways an instruction comes out: a fault before its first primitive, a command run from its pseudocode (RENDER holds
its text from then on), or a wire frame. -/
theorem exec_cases {i : Instr} {s t : State} (h : exec i s = .next t) :
    (∃ cause, t = s.raiseFault cause (encode i) ∧ i.wf = false) ∨
    (∃ code, code.all Micro.legal = true ∧ Straight code ∧ code.length ≤ fullRun ∧ t = s.runCommand code) ∨
    (∃ c, i = .find c ∧ t = s.runCommand (scanCode c 0 false)) ∨
    (∃ ptr, i = .render ptr ∧ t = ({ s with textBase := some ptr }).runCommand (renderCode ptr)) ∨
    (∃ code, code.all Micro.legal = true ∧ Straight code ∧ t = runCode code s) := by
  have hle : ∀ n : Nat, n ≤ 153 * 512 → n ≤ fullRun := fun n hn => Nat.le_trans hn (by decide)
  cases i with
  | pin sig level hold =>
    cases sig with
    | out p =>
      injection h with h
      exact Or.inr (Or.inl ⟨_, pinCode_legal _ _ _, pinCode_straight _ _ _,
        hle _ (Nat.le_trans (pinCode_length _ _ _) (by decide)), h.symm⟩)
    | eeDin =>
      injection h with h
      exact Or.inl ⟨_, h.symm, rfl⟩
  | start =>
    injection h with h
    exact Or.inr (Or.inl ⟨_, rfl, startCode_straight, hle _ (by decide), h.symm⟩)
  | wbits v n =>
    simp only [exec, execWbits] at h
    split at h
    · injection h with h
      refine Or.inr (Or.inl ⟨_, writeBitsCode_legal _ _, writeBitsCode_straight _ _, hle _ ?_, h.symm⟩)
      have := n.isLt
      rw [writeBitsCode_length]; omega
    · rename_i hn
      injection h with h
      exact Or.inl ⟨_, h.symm, by simpa [Instr.wf] using hn⟩
  | rword =>
    injection h with h
    exact Or.inr (Or.inl ⟨_, by decide, readWordCode_straight, hle _ (by decide), h.symm⟩)
  | rdat a =>
    injection h with h
    exact Or.inr (Or.inl ⟨_, readWordAtCode_legal _, readWordAtCode_straight _, hle _ (by rw [readWordAtCode_length]; decide),
      h.symm⟩)
  | rdrng a b =>
    injection h with h
    exact Or.inr (Or.inl ⟨_, readRangeCode_legal _ _, readRangeCode_straight _ _, hle _ (readRangeCode_length _ _), h.symm⟩)
  | shift v d =>
    injection h with h
    refine Or.inr (Or.inl ⟨_, ?_, shiftByteCode_straight _ _, hle _ (by rw [shiftByteCode_length]; decide), h.symm⟩)
    exact legal_of_srBus (shiftByteCode_srBus _ _)
  | latch =>
    injection h with h
    exact Or.inr (Or.inl ⟨_, rfl, rfl, hle _ (by decide), h.symm⟩)
  | casc b0 b1 =>
    injection h with h
    exact Or.inr (Or.inl ⟨_, cascadeCode_legal _ _, cascadeCode_straight _ _,
      hle _ (by rw [cascadeCode_length]; decide), h.symm⟩)
  | find c =>
    injection h with h
    exact Or.inr (Or.inr (Or.inl ⟨c, rfl, h.symm⟩))
  | render p =>
    injection h with h
    exact Or.inr (Or.inr (Or.inr (Or.inl ⟨p, rfl, h.symm⟩)))
  | eeReadFrame a =>
    injection h with h
    refine Or.inr (Or.inr (Or.inr (Or.inr ⟨_, ?_, readFrameCode_straight _, h.symm⟩)))
    exact all_append' (all_append' rfl (writeBitsCode_legal _ _)) (writeBitsCode_legal _ _)
  | srCascadeFrame b0 b1 =>
    injection h with h
    exact Or.inr (Or.inr (Or.inr (Or.inr ⟨_, cascadeCode_legal _ _, cascadeCode_straight _ _, h.symm⟩)))

/-- What no instruction touches: EE, TXT, the host's inputs, the reset flag (R38). -/
structure Outside (s t : State) : Prop where
  ee : t.ee = s.ee
  eeRef : t.eeRef = s.eeRef
  txt : t.txt = s.txt
  host : t.host = s.host
  look : t.look = s.look
  resetSeen : t.resetSeen = s.resetSeen

theorem State.resume_outside (s : State) : Outside s s.resume := by
  have h := runTicks_frame s.budget s
  rw [State.resume, State.settleSeq]
  split <;> exact ⟨h.ee, h.eeRef, h.txt, h.host, h.look, h.resetSeen⟩

theorem exec_outside {i : Instr} {s t : State} (h : exec i s = .next t) : Outside s t := by
  rcases exec_cases h with ⟨c, rfl, -⟩ | ⟨code, -, -, -, rfl⟩ | ⟨c, -, rfl⟩ | ⟨p, -, rfl⟩ | ⟨code, -, -, rfl⟩
  · exact ⟨rfl, rfl, rfl, rfl, rfl, rfl⟩
  · have := (s.accept code).resume_outside
    exact ⟨this.ee, this.eeRef, this.txt, this.host, this.look, this.resetSeen⟩
  · have := (s.accept (scanCode c 0 false)).resume_outside
    exact ⟨this.ee, this.eeRef, this.txt, this.host, this.look, this.resetSeen⟩
  · have := (({ s with textBase := some p }).accept (renderCode p)).resume_outside
    exact ⟨this.ee, this.eeRef, this.txt, this.host, this.look, this.resetSeen⟩
  · have := runCode_frame code s
    exact ⟨this.ee, this.eeRef, this.txt, this.host, this.look, this.resetSeen⟩

/-- Every instruction has a meaning: `exec` never stops. -/
theorem exec_next (i : Instr) (s : State) : ∃ t, exec i s = .next t := by
  cases i with
  | pin sig level hold => cases sig <;> exact ⟨_, rfl⟩
  | wbits v n => simp only [exec, execWbits]; split <;> exact ⟨_, rfl⟩
  | _ => exact ⟨_, rfl⟩

theorem stepEngine_next (c : Option CmdWord) (s : State) : ∃ t, stepEngine c s = .next t := by
  cases hs : s.seq with
  | idle =>
    cases c with
    | none => exact ⟨_, stepEngine_idle hs⟩
    | some w =>
      rw [stepEngine_issue hs]
      cases hd : decode w with
      | command i => rw [issue_command hd]; exact exec_next i s
      | illegalCmd => exact ⟨_, issue_illegal hd s⟩
      | badBitCount => exact ⟨_, issue_badBitCount hd s⟩
  | busy => exact ⟨_, stepEngine_busy hs c⟩
  | halt => exact ⟨_, stepEngine_halt hs c⟩

/-! ### What a step can do -/

/-- The ways a step answers a next state. -/
inductive Stepped (s t : State) : Prop where
  /-- reset -/
  | reset (rst : s.hostIn.rst = true) (eq : t = s.ready.resetEngine)
  /-- halted, or idle with nothing presented -/
  | quiet (rst : s.hostIn.rst = false) (seq : s.seq = .halt ∨ (s.seq = .idle ∧ s.hostIn.cmd = none)) (eq : t = s.ready)
  /-- a running command goes on -/
  | busy (rst : s.hostIn.rst = false) (text : s.breaksText s.hostIn.txt = false) (seq : s.seq = .busy)
      (eq : t = s.ready.resume)
  /-- a command is accepted -/
  | command (rst : s.hostIn.rst = false) (text : s.breaksText s.hostIn.txt = false) (seq : s.seq = .idle) (w : CmdWord)
      (cmd : s.hostIn.cmd = some w) (i : Instr) (dec : decode w = .command i) (eq : exec i s.ready = .next t)
  /-- a word that is no command is accepted -/
  | fault (rst : s.hostIn.rst = false) (seq : s.seq = .idle) (w : CmdWord) (cmd : s.hostIn.cmd = some w) (cause : Cause)
      (dec : (decode w = .illegalCmd ∧ cause = .illegalCmd) ∨ (decode w = .badBitCount ∧ cause = .badBitCount))
      (eq : t = s.ready.raiseFault cause w)

theorem step_cases {s t : State} (h : step s = .next t) : Stepped s t := by
  cases hr : s.hostIn.rst with
  | true => rw [step_reset hr] at h; injection h with h; exact .reset hr h.symm
  | false =>
    by_cases h1 : s.resetSeen = true
    · cases hb : s.breaksText s.hostIn.txt with
      | true => simp [step, hr, h1, hb] at h
      | false =>
        rw [step_running h1 hr hb] at h
        cases hs : s.seq with
        | halt =>
          rw [stepEngine_halt (s := s.ready) hs] at h
          injection h with h
          exact .quiet hr (Or.inl hs) h.symm
        | busy =>
          rw [stepEngine_busy (s := s.ready) hs] at h
          injection h with h
          exact .busy hr hb hs h.symm
        | idle =>
          cases hc : s.hostIn.cmd with
          | none =>
            rw [hc, stepEngine_idle (s := s.ready) hs] at h
            injection h with h
            exact .quiet hr (Or.inr ⟨hs, hc⟩) h.symm
          | some w =>
            rw [hc, stepEngine_issue (s := s.ready) hs] at h
            cases hd : decode w with
            | command i => rw [issue_command hd] at h; exact .command hr hb hs w hc i hd h
            | illegalCmd =>
              rw [issue_illegal hd] at h
              injection h with h
              exact .fault hr hs w hc .illegalCmd (Or.inl ⟨hd, rfl⟩) h.symm
            | badBitCount =>
              rw [issue_badBitCount hd] at h
              injection h with h
              exact .fault hr hs w hc .badBitCount (Or.inr ⟨hd, rfl⟩) h.symm
    · simp [step, hr, h1] at h

end Sys2Proof.Machine
end

