-- ==== Sys2Proof/Laws/Text.lean ====
section
/-! SUPPORT. What RENDER does with a whole text (spec/43_renderer.md R132, R133), and with one that has no terminator
(spec/70_reset_and_hazards.md R184). -/

namespace Sys2Proof.Machine

/-! ### A text with a terminator -/

theorem State.HoldsText.rest {s t : State} {ptr : TxtAddr} {c : Byte} {cs : List Byte} (h : s.HoldsText ptr (c :: cs))
    (ht : t.txt = s.txt) : t.HoldsText (ptr + 1) cs := by
  have haddr : ∀ k, ptr + 1 + BitVec.ofNat 16 k = ptr + BitVec.ofNat 16 (k + 1) := fun k => by
    apply BitVec.eq_of_toNat_eq
    simp
    omega
  have hread : ∀ a, t.txtRead a = s.txtRead a := fun a => by rw [State.txtRead, ht]; rfl
  obtain ⟨h1, h2, h3, h4⟩ := h
  refine ⟨by rw [List.length_cons] at h1; omega, fun k hk => ?_, fun c' hc' => h3 c' (by simp [hc']), ?_⟩
  · have := h2 (k + 1) (by rw [List.length_cons]; omega)
    rw [List.getD_cons_succ] at this
    rw [hread, haddr, this]
  · rw [hread, haddr]; exact h4

theorem State.HoldsText.head {s : State} {ptr : TxtAddr} {c : Byte} {cs : List Byte} (h : s.HoldsText ptr (c :: cs)) :
    s.txtRead ptr = c ∧ c ≠ Config.config.term := by
  have h0 := h.2.1 0 (by simp)
  exact ⟨by simpa using h0, h.2.2.1 c (by simp)⟩

theorem State.HoldsText.empty {s : State} {ptr : TxtAddr} (h : s.HoldsText ptr []) :
    s.txtRead ptr = Config.config.term := by
  simpa using h.2.2.2

/-- The fetch of the terminator ends the loop (R133). -/
theorem fetch_term {s : State} (h : s.todo = [.fetch]) (hc : s.txtRead s.txtptr = Config.config.term) :
    Leads 1 s { s with todo := [], log := .txtRead s.txtptr Config.config.term :: s.log } := by
  have h1 := Leads.one (s := s) (m := .fetch) (rest := []) h
  have he : perform .fetch { s with todo := [] } =
      { s with todo := [], log := .txtRead s.txtptr Config.config.term :: s.log } := by
    show (State.push _ (if s.txtRead s.txtptr = _ then [] else _) : State) = _
    rw [hc, if_pos rfl]
    show ({ s with todo := _, log := .txtRead s.txtptr (s.txtRead s.txtptr) :: s.log } : State) = _
    rw [hc]
    rfl
  rwa [he] at h1

/-- How RENDER comes from its first fetch in `s` to its end in `t` on the text `cs`. -/
structure TextDone (cs : List Byte) (s t : State) : Prop where
  todo : t.todo = []
  txtptr : t.txtptr = s.txtptr + BitVec.ofNat 16 cs.length
  frame : RenderFrame s t
  seq : t.seq = s.seq
  done : t.done = s.done
  released : cs ≠ [] → Released t
  lookup : cs ≠ [] → lookupValue t.faddr = true
  empty : cs = [] → t = { s with todo := [], log := .txtRead s.txtptr Config.config.term :: s.log }
  stored : s.eeRef = true →
    t.rendered = renderText s.ee s.txtptr cs s.rendered ∧ t.din = s.din ∧ t.draws = s.draws
  missed : s.eeRef = true → (∀ c ∈ cs, firstSlot s.ee c = none) → SameDisplay s t
  shown : s.eeRef = true → (∃ c ∈ cs, firstSlot s.ee c ≠ none) → BlankDisplay t

theorem text_leads (cs : List Byte) : ∀ s : State, s.todo = [.fetch] → s.HoldsText s.txtptr cs →
    ∃ n t, Leads n s t ∧ n ≤ 88300 * cs.length + 1 ∧ TextDone cs s t := by
  induction cs with
  | nil =>
    intro s htodo htext
    refine ⟨1, _, fetch_term htodo htext.empty, by simp, ?_⟩
    exact {
      todo := rfl
      txtptr := by simp
      frame := ⟨rfl, rfl, rfl, rfl, rfl, rfl, rfl, rfl⟩
      seq := rfl
      done := rfl
      released := fun h => absurd rfl h
      lookup := fun h => absurd rfl h
      empty := fun _ => rfl
      stored := fun _ => by
        refine ⟨?_, rfl, rfl⟩
        simp [State.rendered, renderText, State.trace]
      missed := fun _ _ => ⟨rfl, rfl, rfl, rfl, rfl⟩
      shown := fun _ h => by simp at h }
  | cons c cs ih =>
    intro s htodo htext
    obtain ⟨hc, hne⟩ := htext.head
    obtain ⟨n1, u, h1, hn1, hu⟩ := char_leads htodo (by rw [hc]; exact hne)
    rw [hc] at hu
    obtain ⟨n2, t, h2, hn2, ht⟩ := ih u hu.todo (by rw [hu.txtptr]; exact htext.rest hu.frame.txt)
    refine ⟨n1 + n2, t, h1.trans h2, by rw [List.length_cons]; omega, ?_⟩
    have hlast : cs = [] → t.pins = u.pins ∧ t.faddr = u.faddr := fun h => by rw [ht.empty h]; exact ⟨rfl, rfl⟩
    have hee : u.ee = s.ee := hu.frame.ee
    exact {
      todo := ht.todo
      txtptr := by
        rw [ht.txtptr, hu.txtptr, List.length_cons]
        apply BitVec.eq_of_toNat_eq
        simp
        omega
      frame := ⟨ht.frame.fcause.trans hu.frame.fcause, ht.frame.finfo.trans hu.frame.finfo,
        ht.frame.resetSeen.trans hu.frame.resetSeen, ht.frame.txt.trans hu.frame.txt, ht.frame.ee.trans hu.frame.ee,
        ht.frame.eeRef.trans hu.frame.eeRef, ht.frame.host.trans hu.frame.host, ht.frame.look.trans hu.frame.look⟩
      seq := ht.seq.trans hu.seq
      done := ht.done.trans hu.done
      released := fun _ => by
        by_cases h : cs = []
        · have := (hlast h).1
          exact ⟨by rw [this]; exact hu.released.sel, by rw [this]; exact hu.released.clk,
            by rw [this]; exact hu.released.dout⟩
        · exact ht.released h
      lookup := fun _ => by
        by_cases h : cs = []
        · rw [(hlast h).2]; exact hu.lookup
        · exact ht.lookup h
      empty := fun h => by simp at h
      stored := fun he => by
        have he' : u.eeRef = true := hu.frame.eeRef.trans he
        obtain ⟨a1, a2, a3⟩ := hu.stored he
        obtain ⟨b1, b2, b3⟩ := ht.stored he'
        refine ⟨?_, b2.trans a2, b3.trans a3⟩
        rw [b1, hee, hu.txtptr, a1, renderText]
        rfl
      missed := fun he hm => by
        have he' : u.eeRef = true := hu.frame.eeRef.trans he
        have d1 := hu.missed he (hm c (by simp))
        have d2 := ht.missed he' (by rw [hee]; exact fun c' hc' => hm c' (by simp [hc']))
        exact ⟨d2.srClk.trans d1.srClk, d2.srData.trans d1.srData, d2.srLatch.trans d1.srLatch, d2.chain.trans d1.chain,
          d2.out.trans d1.out⟩
      shown := fun he hx => by
        have he' : u.eeRef = true := hu.frame.eeRef.trans he
        by_cases hr : ∃ c' ∈ cs, firstSlot s.ee c' ≠ none
        · exact ht.shown he' (by rw [hee]; exact hr)
        · have hc' : firstSlot s.ee c ≠ none := by
            obtain ⟨c', hm, hs⟩ := hx
            rcases List.mem_cons.1 hm with rfl | hm
            · exact hs
            · exact absurd ⟨c', hm, hs⟩ hr
          have d1 := hu.shown he hc'
          have d2 := ht.missed he' (by
            rw [hee]
            intro c' hm
            by_contra hs
            exact hr ⟨c', hm, hs⟩)
          exact ⟨d2.srClk.trans d1.srClk, d2.srData.trans d1.srData, d2.srLatch.trans d1.srLatch, d2.chain.trans d1.chain,
            d2.out.trans d1.out⟩ }

/-! ### A text without one -/

/-- The last thing a RENDER has left to do is a control point of the character loop. -/
def Micro.loops : Micro → Bool
  | .fetch => true
  | .nextChar => true
  | .scanTest _ _ r => r
  | .metaTest _ => true
  | _ => false

/-- What is left to do ends in a control point of the character loop. -/
def Looping (code : List Micro) : Prop := ∃ pre m, code = pre ++ [m] ∧ m.loops = true

theorem Looping.append (a : List Micro) {b : List Micro} (h : Looping b) : Looping (a ++ b) := by
  obtain ⟨pre, m, rfl, hm⟩ := h
  exact ⟨a ++ pre, m, by simp, hm⟩

theorem Looping.single {m : Micro} (h : m.loops = true) : Looping [m] := ⟨[], m, rfl, h⟩

theorem Looping.ne_nil {code : List Micro} (h : Looping code) : code ≠ [] := by
  obtain ⟨pre, m, rfl, -⟩ := h; simp

/-- After the first entry the rest of a loop's pseudocode is a loop, unless the entry was all there was. -/
theorem Looping.tail {m : Micro} {rest : List Micro} (h : Looping (m :: rest)) :
    (rest = [] ∧ m.loops = true) ∨ Looping rest := by
  obtain ⟨pre, m', he, hm⟩ := h
  cases pre with
  | nil =>
    simp only [List.nil_append, List.cons.injEq] at he
    exact Or.inl ⟨he.2, by rw [he.1]; exact hm⟩
  | cons x pre =>
    simp only [List.cons_append, List.cons.injEq] at he
    exact Or.inr ⟨pre, m', he.2, hm⟩

theorem looping_scan (c : Byte) (idx : Nat) : Looping (scanCode c idx true) := (Looping.single rfl).append _
theorem looping_meta (addr : Word) : Looping (metaCode addr) := (Looping.single rfl).append _
theorem looping_glyph (addr : Word) (cc : Byte) : Looping (glyphCode addr cc) := (Looping.single rfl).append _

/-- With no terminator in TXT, one more micro-operation leaves the loop running (R133). -/
theorem tick_looping {s : State} (ht : s.NoTerminator) (h : Looping s.todo) :
    Looping (tick s).todo ∧ (tick s).txt = s.txt ∧ (tick s).seq = s.seq := by
  rw [tick]
  cases hs : s.todo with
  | nil => exact absurd hs h.ne_nil
  | cons m rest =>
    simp only
    rw [hs] at h
    have hpush : ∀ code : List Micro, (code = [] ∨ Looping code) → (m.loops = true → Looping code) →
        Looping (code ++ rest) := fun code h1 h2 => by
      rcases h.tail with ⟨rfl, hm⟩ | hr
      · rw [List.append_nil]; exact h2 hm
      · exact hr.append code
    have hkeep : m.loops = false → Looping rest := fun hm => by
      rcases h.tail with ⟨-, h1⟩ | hr
      · rw [hm] at h1; exact absurd h1 (by simp)
      · exact hr
    cases m with
    | drive p v => exact ⟨hkeep rfl, rfl, rfl⟩
    | settle d => exact ⟨hkeep rfl, rfl, rfl⟩
    | clearWord => exact ⟨hkeep rfl, rfl, rfl⟩
    | sample i => exact ⟨hkeep rfl, rfl, rfl⟩
    | result => exact ⟨hkeep rfl, rfl, rfl⟩
    | unpack j => exact ⟨hkeep rfl, rfl, rfl⟩
    | setTxtptr ptr => exact ⟨hkeep rfl, rfl, rfl⟩
    | fetch =>
      refine ⟨?_, rfl, rfl⟩
      show Looping ((if s.txtRead s.txtptr = Config.config.term then [] else scanCode (s.txtRead s.txtptr) 0 true) ++ rest)
      rw [if_neg (ht _)]
      exact hpush _ (Or.inr (looping_scan _ _)) (fun _ => looping_scan _ _)
    | scanTest c idx r =>
      simp only [perform, State.scanTest]
      split
      · refine ⟨?_, rfl, rfl⟩
        show Looping ((if r then metaCode (slotAddr idx) else []) ++ rest)
        cases r
        · exact hpush _ (Or.inl rfl) (fun hr => by cases hr)
        · exact hpush _ (Or.inr (looping_meta _)) (fun _ => looping_meta _)
      · split
        · refine ⟨?_, rfl, rfl⟩
          show Looping (scanCode c (idx + 1) r ++ rest)
          cases r
          · exact (hkeep rfl).append _
          · exact hpush _ (Or.inr (looping_scan _ _)) (fun _ => looping_scan _ _)
        · refine ⟨?_, rfl, rfl⟩
          show Looping ((if r then [.nextChar] else []) ++ rest)
          cases r
          · exact hpush _ (Or.inl rfl) (fun hr => by cases hr)
          · exact hpush _ (Or.inr (Looping.single rfl)) (fun _ => Looping.single rfl)
    | metaTest addr => exact ⟨hpush _ (Or.inr (looping_glyph _ _)) (fun _ => looping_glyph _ _), rfl, rfl⟩
    | showCol slot => exact ⟨(hkeep rfl).append _, rfl, rfl⟩
    | nextChar => exact ⟨hpush _ (Or.inr (Looping.single rfl)) (fun _ => Looping.single rfl), rfl, rfl⟩

theorem runTicks_looping (n : Nat) {s : State} (ht : s.NoTerminator) (h : Looping s.todo) :
    Looping (runTicks n s).todo ∧ (runTicks n s).txt = s.txt ∧ (runTicks n s).seq = s.seq := by
  induction n generalizing s with
  | zero => exact ⟨h, rfl, rfl⟩
  | succ n ih =>
    rw [runTicks, if_neg (by simpa using h.ne_nil)]
    obtain ⟨h1, h2, h3⟩ := tick_looping ht h
    have ht' : (tick s).NoTerminator := fun a => by rw [State.txtRead, h2]; exact ht a
    obtain ⟨k1, k2, k3⟩ := ih ht' h1
    exact ⟨k1, k2.trans h2, k3.trans h3⟩

end Sys2Proof.Machine
end

