-- ==== Sys2Proof/Laws/Units.lean ====
section
/-! SUPPORT. What the traces of the rules add up to: their least time (spec/70_reset_and_hazards.md R187), and the levels they
put on a wire at the edges of a clock (spec/30_encoding.md R77, R79). -/

namespace Sys2Proof.Machine

/-! ### Units -/

@[simp] theorem minUnits_nil : minUnits [] = 0 := rfl

@[simp] theorem minUnits_append (a b : List Event) : minUnits (a ++ b) = minUnits a + minUnits b := by
  simp [minUnits]

@[simp] theorem minUnits_drive (p : Pin) (v : Bool) (l : List Event) : minUnits (.drive p v :: l) = minUnits l := by
  simp [minUnits]

@[simp] theorem minUnits_settle (d : Duration) (l : List Event) : minUnits (.settle d :: l) = d.units + minUnits l := rfl

@[simp] theorem minUnits_sample (b : Bool) (l : List Event) : minUnits (.sample b :: l) = minUnits l := by
  simp [minUnits]

@[simp] theorem minUnits_result (w : Word) (l : List Event) : minUnits (.result w :: l) = minUnits l := by
  simp [minUnits]

@[simp] theorem minUnits_txtRead (a : TxtAddr) (c : Byte) (l : List Event) : minUnits (.txtRead a c :: l) = minUnits l := by
  simp [minUnits]

/-- A trace made of pieces of one length in time. -/
theorem minUnits_flatMap {α : Type} (f : α → List Event) (n : Nat) (l : List α) (h : ∀ x ∈ l, minUnits (f x) = n) :
    minUnits (l.flatMap f) = n * l.length := by
  induction l with
  | nil => rfl
  | cons x l ih =>
    rw [List.flatMap_cons, minUnits_append, h x (by simp), ih (fun y hy => h y (by simp [hy])), List.length_cons,
      Nat.mul_succ, Nat.add_comm]

@[simp] theorem minUnits_startTrace : minUnits startTrace = 4 := rfl

@[simp] theorem minUnits_sendTrace (bits : List Bool) : minUnits (sendTrace bits) = 2 * bits.length := by
  rw [sendTrace, minUnits_append, minUnits_flatMap _ 2 _ (fun _ _ => rfl)]
  rfl

@[simp] theorem minUnits_readTrace (w : Word) : minUnits (readTrace w) = 32 := by
  rw [readTrace, sampleTrace, minUnits_append, minUnits_flatMap _ 2 _ (fun _ _ => rfl)]
  rfl

/-- One transaction (R103). -/
@[simp] theorem minUnits_readAtTrace (a : EeAddr) (w : Word) : minUnits (readAtTrace a w) = 10058 := by
  have h : msbBits (zext16 a) 9 = [_, _, _, _, _, _, _, _, _] := rfl
  simp [readAtTrace, frameTrace, h, Duration.units, Config.config]

@[simp] theorem minUnits_shiftTrace (bits : List Bool) : minUnits (shiftTrace bits) = 10 * bits.length := by
  rw [shiftTrace, minUnits_flatMap _ 10 _ (fun _ _ => rfl)]

@[simp] theorem minUnits_latchTrace : minUnits latchTrace = 10 := rfl

@[simp] theorem minUnits_cascadeTrace (b0 b1 : Byte) : minUnits (cascadeTrace b0 b1) = 170 := by
  simp only [cascadeTrace, minUnits_append, minUnits_shiftTrace, minUnits_latchTrace]
  rfl

/-- The slots of a scan (R130). -/
@[simp] theorem minUnits_scanTrace (ws : List Word) : ∀ idx, minUnits (scanTrace idx ws) = 10058 * ws.length := by
  induction ws with
  | nil => intro idx; rfl
  | cons w ws ih =>
    intro idx
    rw [scanTrace, minUnits_append, minUnits_readAtTrace, ih, List.length_cons]
    omega

@[simp] theorem minUnits_findTrace (ee : List (Nat × Word)) (c : Byte) :
    minUnits (findTrace ee c) = 10058 * slotsRead ee c := by
  simp [findTrace]

@[simp] theorem minUnits_loadTrace (ee : List (Nat × Word)) (addr : Word) (cc : Byte) :
    minUnits (loadTrace ee addr cc) = 10058 * (cc.toNat / 2 + 1) := by
  rw [loadTrace, minUnits_flatMap _ 10058 _ (fun _ _ => minUnits_readAtTrace _ _), List.length_range]

@[simp] theorem minUnits_columnTrace (cbuf : Memory) (slot : Nat) : minUnits (columnTrace cbuf slot) = 341 := by
  simp only [columnTrace, minUnits_append, minUnits_cascadeTrace]
  rfl

/-- A trace repeated. -/
theorem minUnits_replicate (l : List Event) (n : Nat) : minUnits (List.replicate n l).flatten = n * minUnits l := by
  induction n with
  | zero => simp
  | succ n ih => rw [List.replicate_succ, List.flatten_cons, minUnits_append, ih, Nat.succ_mul, Nat.add_comm]

/-- The refresh of one character (R138). -/
@[simp] theorem minUnits_refreshTrace (cbuf : Memory) : minUnits (refreshTrace cbuf) = 87296 := by
  rw [refreshTrace, minUnits_replicate, minUnits_flatMap _ 341 _ (fun _ _ => minUnits_columnTrace _ _), List.length_range]

/-- One character of RENDER (R138). -/
theorem minUnits_renderChar (ee : List (Nat × Word)) (r : Rendered) (c : Byte) :
    minUnits (renderChar ee r c).events = minUnits r.events + charUnits ee c := by
  cases h : firstSlot ee c with
  | none => simp [renderChar, charUnits, slotsRead, h]
  | some i =>
    simp [renderChar, charUnits, slotsRead, h]
    omega

/-- A whole text: the sum over its characters (R138, R187). -/
theorem minUnits_renderText (ee : List (Nat × Word)) (cs : List Byte) : ∀ (ptr : TxtAddr) (r : Rendered),
    minUnits (renderText ee ptr cs r).events = minUnits r.events + (cs.map (charUnits ee)).sum := by
  induction cs with
  | nil => intro ptr r; simp [renderText]
  | cons c cs ih =>
    intro ptr r
    rw [renderText, ih, minUnits_renderChar]
    simp
    omega

/-! ### Levels at the edges of a clock -/

@[simp] theorem drivesOf_append (a b : List Event) : drivesOf (a ++ b) = drivesOf a ++ drivesOf b := by
  simp [drivesOf]

@[simp] theorem edgeBits_nil (clk data : Pin) (p : Pins) : edgeBits clk data p [] = [] := rfl

/-- The pins after a list of writes. -/
def Pins.setAll (p : Pins) (ds : List (Pin × Bool)) : Pins := ds.foldl (fun q d => q.set d.1 d.2) p

/-- A list of writes cut in two: the second part starts from the levels the first leaves. -/
theorem edgeBits_append (clk data : Pin) (a b : List (Pin × Bool)) : ∀ p : Pins,
    edgeBits clk data p (a ++ b) = edgeBits clk data p a ++ edgeBits clk data (p.setAll a) b := by
  induction a with
  | nil => intro p; rfl
  | cons d a ih =>
    intro p
    obtain ⟨sig, v⟩ := d
    rw [List.cons_append, edgeBits, edgeBits, ih, List.append_assoc]
    rfl

end Sys2Proof.Machine
end

