-- ==== Sys2Proof/Tests/Slice0.lean ====
section
/-! SUPPORT. Tests on fixed values, each expected result from spec/95_test_vectors.md or worked by hand from a rule, and the
witnesses: for every statement with hypotheses a concrete state and operands that meet them. -/

namespace Sys2Proof.Tests

open Sys2Proof Sys2Proof.Machine

/-! ### Small states -/

/-- The reset state with the cascade all zero, as the vectors start. -/
def bench : State := { State.reset with chain := 0, out := 0 }

/-- Image IMG1 of spec/95_test_vectors.md part 2 and the words of slots 4 and 31 that the tests read. -/
def img1 : List (Nat × Word) :=
  [(0, 0x0130), (10, 0x0131), (20, 0x0132), (30, 0x0241), (31, 0), (32, 0x3C12), (33, 0), (34, 0x7E81), (40, 0)]

/-- Image IMG2, complete: every other address holds 0. -/
def img2 : List (Nat × Word) :=
  [(0, 0x0842), (2, 0x1100), (4, 0x2201), (6, 0x3302), (8, 0x4403), (10, 0x0343)]

/-- Image IMG3, complete. -/
def img3 : List (Nat × Word) := [(0, 0x0130), (360, 0x9658)]

/-- Every address not in `l` holds 0, as the images say. -/
def fill (l : List (Nat × Word)) : List (Nat × Word) := l ++ (List.range 512).map (fun a => (a, 0))

/-- `bench` with the reference EEPROM holding IMG1. -/
def bench1 : State := { bench with ee := img1, eeRef := true }

/-- The host presents `w`. -/
def present (w : CmdWord) (s : State) : State := { s with host := [{ HostIn.quiet with cmd := some w }] }

/-- The state `exec` answers. -/
def after (i : Instr) (s : State) : State :=
  match exec i s with
  | .next t => t
  | .fault _ => s
  | .refused _ => s

/-- The state `step` answers. -/
def stepped (s : State) : State :=
  match step s with
  | .next t => t
  | .fault _ => s
  | .refused _ => s

/-! ### WellFormed: every check refuses an ill-formed term (R75) -/

theorem test_wf_pin_input : (Instr.pin .eeDin true .none).wf = false := by decide
theorem test_wf_wbits_0 : (Instr.wbits 1 0).wf = false := by decide
theorem test_wf_wbits_17 : (Instr.wbits 1 17).wf = false := by decide
theorem test_wf_wbits_1_16 : (Instr.wbits 1 1).wf = true ∧ (Instr.wbits 1 16).wf = true := by decide

/-! ### Decode: words written out from R71, and the vectors of section 3.1 and R83 -/

theorem test_decode_pin : decode 0b00010000000000000000000000111101 = .command (.pin (.out .srLatch) true .latch) := by decide
theorem test_decode_pin_V1 : decode 0x10000018 = .command (.pin (.out .eeSel) true .short) := by decide
theorem test_decode_start : decode 0b00100000000000000000000000000000 = .command .start := by decide
theorem test_decode_wbits : decode 0b00110000000010010000000000011110 = .command (.wbits 30 9) := by decide
theorem test_decode_wbits_V3 : decode 0x30108001 = .command (.wbits 0x8001 16) := by decide
theorem test_decode_rword : decode 0b01000000000000000000000000000000 = .command .rword := by decide
theorem test_decode_rdat : decode 0b01010000000000000000000000011110 = .command (.rdat 30) := by decide
theorem test_decode_rdat_V4 : decode 0x500001FF = .command (.rdat 511) := by decide
theorem test_decode_rdrng : decode 0b01100000001000100000000000011110 = .command (.rdrng 30 34) := by decide
theorem test_decode_rdrng_V5 : decode 0x61FF0000 = .command (.rdrng 0 511) := by decide
theorem test_decode_shift : decode 0b01110000000000000000000110110001 = .command (.shift 0xB1 .lsb) := by decide
theorem test_decode_shift_V6 : decode 0x700000B1 = .command (.shift 0xB1 .msb) := by decide
theorem test_decode_latch : decode 0b10000000000000000000000000000000 = .command .latch := by decide
theorem test_decode_casc : decode 0b10010000000000000000000111101101 = .command (.casc 0xED 0x01) := by decide
theorem test_decode_casc_V7 : decode 0x90008000 = .command (.casc 0x00 0x80) := by decide
theorem test_decode_find : decode 0b10100000000000000000000001000001 = .command (.find 0x41) := by decide
theorem test_decode_render : decode 0b10110000000000000000000100000000 = .command (.render 0x0100) := by decide
theorem test_decode_render_V8 : decode 0xB000FFFF = .command (.render 0xFFFF) := by decide

/-- The READ frame of address 30 as R77 lists its bits, `1 10 000011110` (R103, example). -/
theorem test_decode_readFrame : decodeTableWord 12 0b110000011110 = some (.eeReadFrame 30) := by decide

/-- Without the start bit or with another opcode twelve bits are no READ frame (R77). -/
theorem test_decode_readFrame_other :
    decodeTableWord 12 0b010000011110 = none ∧ decodeTableWord 12 0b111000011110 = none := by decide

/-- The sixteen bits `CASC 0xED, 0x01` sends, first bit first (V34). -/
theorem test_decode_cascadeFrame : decodeTableWord 16 0b1000000010110111 = some (.srCascadeFrame 0xED 0x01) := by decide

theorem test_decodeTableWord_pin : decodeTableWord 32 0x1000003D = some (.pin (.out .srLatch) true .latch) := by decide

/-- The fault words V9 to V13 and V16. -/
theorem test_decode_illegal : [0x00000000, 0xC0000000, 0x20000001, 0x10000006, 0x10000007, 0x50000200, 0x30200001, 0xFFFFFFFF].all
    (fun w => decode w == .illegalCmd) = true := by decide

/-- V14 and V15. -/
theorem test_decode_badBitCount : decode 0x30001234 = .badBitCount ∧ decode 0x30110001 = .badBitCount := by decide

/-- The accepted neighbours of section 3.2. -/
theorem test_decode_neighbours : decode 0x30010001 = .command (.wbits 1 1) ∧ decode 0x30100001 = .command (.wbits 1 16) ∧
    decode 0x10000005 = .command (.pin (.out .srLatch) false .none) := by decide

/-- Words of R83, encoded. -/
theorem test_encode : encode (.pin (.out .srLatch) true .latch) = 0x1000003D ∧ encode (.wbits 30 9) = 0x3009001E ∧
    encode (.rdrng 34 30) = 0x601E0022 ∧ encode (.shift 0x8D .lsb) = 0x7000018D ∧ encode (.casc 0xED 0x01) = 0x900001ED := by
  decide

/-- The pseudo-commands of R84. -/
theorem test_pseudo : blankPseudo.map encode = [0x90000000] ∧ releasePseudo.map encode = [0x10000000, 0x10000002] := by decide

/-- The textual form (R83). -/
theorem test_asm : asmText (.pin (.out .srLatch) true .latch) = "PIN SR_LATCH, 1, LATCH" ∧ asmText (.wbits 30 9) = "WBITS 30, 9" ∧
    asmText .start = "START" := by decide +kernel

/-- Reading the textual form (R83): forms the examples do not have, a quoted comma and blank, and lines that are no command. -/
theorem test_assemble_forms : assemble "  FIND ','" = some [0xA000002C] ∧ assemble "FIND ' '" = some [0xA0000020] ∧
    assemble "FIND 65" = some [0xA0000041] ∧ assemble "WBITS 0b10,2" = some [0x30020002] ∧
    assemble "CASC 0xeD, 1" = some [0x900001ED] := by decide +kernel
theorem test_assemble_refuses : assemble "RDAT 512" = none ∧ assemble "PIN EE_DIN, 1, NONE" = none ∧
    assemble "START 1" = none ∧ assemble "SHIFT 1" = none ∧ assemble "NOP" = none ∧ assemble "WBITS 0b12, 2" = none := by
  decide +kernel

/-! ### Memory -/

theorem test_memory_write : Memory.write [(3, 7)] 1 9 = [(1, 9), (3, 7)] ∧ Memory.write [(1, 9), (3, 7)] 1 0 = [(3, 7)] := by
  decide
theorem test_memory_top : Memory.read (Memory.write [] 65535 9) 65535 = 9 ∧ Memory.read [] 65535 = 0 := by decide

/-! ### Bit I/O (section 3.3) -/

/-- V18a. -/
theorem test_pin_V18a : (after (.pin (.out .eeSel) true .short) bench).trace = [.drive .eeSel true, .settle .short] ∧
    (after (.pin (.out .eeSel) true .short) bench).pins.eeSel = true := by decide

/-- V18b. -/
theorem test_pin_V18b : (after (.pin (.out .srClk) false .none) bench).trace = [.drive .srClk false] := by decide

/-! ### EEPROM driver (section 3.4) -/

/-- V18. -/
theorem test_start_V18 : (after .start bench).trace =
    [.drive .eeSel false, .drive .eeClk false, .drive .eeDout false, .settle .short, .drive .eeSel true, .settle .short,
     .drive .eeDout true, .settle .short, .drive .eeClk true, .settle .short, .drive .eeClk false] := by decide

/-- V19. -/
theorem test_wbits_V19 : (after (.wbits 0b10 2) bench).trace =
    [.drive .eeDout true, .settle .short, .drive .eeClk true, .settle .short, .drive .eeClk false, .drive .eeDout false,
     .settle .short, .drive .eeClk true, .settle .short, .drive .eeClk false, .drive .eeDout false] := by decide

/-- V20: the bits at the nine rising edges. -/
theorem test_wbits_V20 : edgeBits .eeClk .eeDout .low (drivesOf (after (.wbits 30 9) bench).trace) =
    [false, false, false, false, true, true, true, true, false] := by decide +kernel

/-- V23: the samples `0,0,0,0,0,0,1,0,0,1,0,0,0,0,0,1`. -/
theorem test_rword_V23 : (after .rword { bench with din := [false, false, false, false, false, false, true, false,
    false, true, false, false, false, false, false, true] }).result = 0x0241 := by decide +kernel

/-- V23: only the first sample 1. -/
theorem test_rword_first : (after .rword { bench with din := true :: List.replicate 15 false }).result = 0x8000 := by
  decide +kernel

/-- V24. -/
theorem test_rdat_V24 : (after (.rdat 30) bench1).result = 0x0241 ∧
    ((drivesOf (after (.rdat 30) bench1).trace).length, (settlesOf (after (.rdat 30) bench1).trace).length) = (76, 59) ∧
    minUnits (after (.rdat 30) bench1).trace = 10058 := by decide +kernel

/-- V25. -/
theorem test_rdat_V25 : (after (.rdat 32) bench1).result = 0x3C12 := by decide +kernel

/-- V26. -/
theorem test_rdrng_V26 : resultsOf (after (.rdrng 30 34) bench1).trace = [0x0241, 0x0000, 0x3C12, 0x0000, 0x7E81] := by
  decide +kernel

/-- V27. -/
theorem test_rdrng_V27 : resultsOf (after (.rdrng 34 30) bench1).trace = [0x7E81] := by decide +kernel

/-- The READ frame of address 30 on the wire (R103, example). -/
theorem test_readFrame : edgeBits .eeClk .eeDout .low (drivesOf (after (.eeReadFrame 30) bench1).trace) =
    [true, true, false, false, false, false, false, true, true, true, true, false] := by decide +kernel

/-! ### Shift-register driver (section 3.5) -/

/-- V30. -/
theorem test_shift_V30 : edgeBits .srClk .srData .low (drivesOf (after (.shift 0xB1 .msb) bench).trace) =
    [true, false, true, true, false, false, false, true] ∧ (after (.shift 0xB1 .msb) bench).chain = 0x00B1 := by
  decide +kernel

/-- V31. -/
theorem test_shift_V31 : edgeBits .srClk .srData .low (drivesOf (after (.shift 0xB1 .lsb) bench).trace) =
    [true, false, false, false, true, true, false, true] := by decide +kernel

/-- V33. -/
theorem test_latch_V33 : (after .latch { bench with chain := 0x1234 }).trace = [.drive .srLatch true, .settle .latch,
    .drive .srLatch false] ∧ (after .latch { bench with chain := 0x1234 }).out = 0x1234 := by decide

/-- V34: `CH[0..7]` is `0xED` with its bit 7 at `CH[0]`, `CH[8..15]` is `0x01` with its bit 7 at `CH[8]`. -/
theorem test_casc_V34 : (List.range 16).map (after (.casc 0xED 0x01) bench).out.getLsbD =
    [true, true, true, false, true, true, false, true, false, false, false, false, false, false, false, true] := by
  decide +kernel

/-- V34: the sixteen bits on the wire. -/
theorem test_cascadeFrame : edgeBits .srClk .srData .low (drivesOf (after (.srCascadeFrame 0xED 0x01) bench).trace) =
    [true, false, false, false, false, false, false, false, true, false, true, true, false, true, true, true] := by
  decide +kernel

/-! ### Lookup and rendering (section 3.6) -/

/-- V36. -/
theorem test_find_V36 : (after (.find 0x41) bench1).faddr = 30 ∧
    resultsOf (after (.find 0x41) bench1).trace = [0x0130, 0x0131, 0x0132, 0x0241] := by decide +kernel

/-- V39: an empty slot matches character 0. -/
theorem test_find_V39 : (after (.find 0x00) bench1).faddr = 40 := by decide +kernel

/-- V43. -/
theorem test_render_V43 : (after (.render 0x0100) bench).trace = [.txtRead 0x0100 0x00] ∧
    (after (.render 0x0100) bench).txtptr = 0x0100 ∧ (after (.render 0x0100) bench).seq = .idle := by decide

/-- V40, at the level of words: the columns, the address, the last word. -/
theorem test_renderText_V40 : (renderText img1 0x0100 [0x41] ⟨[], 0, 0, []⟩).cbuf = [(0, 0x12), (1, 0x3C), (2, 0x81), (3, 0x7E)] ∧
    (renderText img1 0x0100 [0x41] ⟨[], 0, 0, []⟩).faddr = 30 ∧
    (renderText img1 0x0100 [0x41] ⟨[], 0, 0, []⟩).result = 0x7E81 := by decide +kernel

/-- V44, at the level of words: entries 2 and 3 keep the columns of the first character. -/
theorem test_renderText_V44 : (renderText (fill img1) 0x0100 [0x41, 0x30] ⟨[], 0, 0, []⟩).cbuf = [(2, 0x81), (3, 0x7E)] := by
  decide +kernel

/-- V45, at the level of words: the over-read into slot 1. -/
theorem test_renderText_V45 : (renderText (fill img2) 0x0100 [0x42] ⟨[], 0, 0, []⟩).cbuf =
    [(1, 0x11), (2, 0x01), (3, 0x22), (4, 0x02), (5, 0x33), (6, 0x03), (7, 0x44), (8, 0x43), (9, 0x03)] := by decide +kernel

/-- V46, at the level of words: the last bitmap word comes from address 0. -/
theorem test_renderText_V46 : (renderText (fill img3) 0x0100 [0x58] ⟨[], 0, 0, []⟩).cbuf = [(150, 0x30), (151, 0x01)] := by
  decide +kernel

/-! ### Faults and reset (sections 3.2 and 3.7), through the step -/

/-- V14, and V17: in HALT a legal word changes neither register. -/
theorem test_fault_V15_V17 :
    let t := stepped (present 0x30110001 bench)
    t.seq = .halt ∧ t.fcause = 2 ∧ t.finfo = 0x30110001 ∧ t.trace = [] ∧
      (stepped (present 0x30100001 t)).finfo = 0x30110001 ∧ (stepped (present 0x30100001 t)).seq = .halt := by decide

/-- V49: reset leaves HALT. -/
theorem test_reset_V49 :
    let t := stepped { stepped (present 0x30110001 bench) with host := [{ HostIn.quiet with rst := true }] }
    t.seq = .idle ∧ t.fcause = 0 ∧ t.finfo = 0 := by decide

/-- A reset in the middle of `RDAT` (R171): the pins fall, no further primitive runs, `done` does not pulse. -/
theorem test_reset_midway :
    let t := stepped { present 0x5000001E bench1 with host := [⟨false, some 0x5000001E, [], some 40⟩] }
    t.seq = .busy ∧ t.pins.eeSel = true ∧
      (stepped { t with host := [{ HostIn.quiet with rst := true }] }).pins = Pins.low ∧
      (stepped { t with host := [{ HostIn.quiet with rst := true }] }).done = false ∧
      (stepped { t with host := [{ HostIn.quiet with rst := true }] }).seq = .idle := by decide +kernel

/-- The status port after `START` and after the fault V14 (R35). -/
theorem test_regQ : (after .start bench).pins.bits = 0b000101 ∧ (after .start bench).regQ 0 = 0 ∧
    (stepped (present 0x30001234 bench)).regQ 0 = 0b10 ∧ (stepped (present 0x30001234 bench)).regQ 4 = 0x30001234 := by decide

/-- `withFetchWord` presents the word to the idle engine, and the step runs it. -/
theorem test_withFetchWord : (stepped (bench.withFetchWord 32 0x20000000)).pins.eeSel = true ∧
    (stepped (bench.withFetchWord 32 0x00000000)).fcause = 1 ∧
    (stepped (bench.withFetchWord 16 0b1000000010110111)).out = 0x80B7 := by decide +kernel

/-! ### Witnesses: concrete states and operands that meet the hypotheses of each statement -/

/-- `bench` with the reset inputs. -/
def resetting : State := { bench with seq := .busy, todo := [.nextChar], host := [{ HostIn.quiet with rst := true }] }

/-- A halted engine. -/
def halted : State := { bench with seq := .halt, fcause := 2, finfo := 0x30110001 }

/-- A text of one character at 0x0100, the reference EEPROM with IMG1. -/
def bench2 : State := { bench1 with txt := [(0x0100, 0x41)] }

/-- The same with a character no slot of the complete image holds. -/
def bench3 : State := { bench with ee := fill img1, eeRef := true, txt := [(0x0100, 0x5A)] }

/-- TXT with no terminator anywhere. -/
def noTerm : State := { bench with txt := (List.range' 0 65536).map (fun a => (a, 1)) }

theorem read_ones (n : Nat) : ∀ k a, k ≤ a → a < k + n →
    Memory.read ((List.range' k n).map (fun a => (a, (1 : Byte)))) a = 1 := by
  induction n with
  | zero => intro k a h1 h2; omega
  | succ n ih =>
    intro k a h1 h2
    rw [List.range'_succ, List.map_cons, Memory.read_cell]
    split
    · rfl
    · exact ih (k + 1) a (by omega) (by omega)

theorem wf_ones (n : Nat) : ∀ k, k + n ≤ 65536 →
    Memory.wf 65536 ((List.range' k n).map (fun a => (a, (1 : Byte)))) = true := by
  induction n with
  | zero => intro k _; rfl
  | succ n ih =>
    intro k hk
    rw [List.range'_succ, List.map_cons, Memory.wf_cell]
    refine ⟨by omega, by decide, ?_, ih (k + 1) (by omega)⟩
    intro c hc
    obtain ⟨a, ha, rfl⟩ := List.mem_map.1 hc
    have := List.mem_range'_1.1 ha
    show k < a
    omega

theorem noTerm_noTerminator : noTerm.NoTerminator := by
  intro a
  have h : noTerm.txtRead a = 1 := read_ones 65536 0 a.toNat (by omega) (by have := a.isLt; omega)
  rw [h]
  decide

theorem witness_DecodeOfEncodeIsTheInstruction :
    [Instr.pin (.out .srLatch) true .latch, .wbits 0xFFFF 1, .wbits 0 16, .rdrng 0 511, .eeReadFrame 511,
     .srCascadeFrame 255 0].all Instr.wf = true := by decide

theorem witness_EncodeOfDecodeIsTheWord : decode 0x6022001E = .command (.rdrng 30 34) := by decide

theorem witness_CommandExactlyWhenItsRowMatches : ∀ r ∈ commandRows, r.mtch &&& r.mask = r.mtch := by decide

theorem witness_StepRunsTheDecodedCommand : (present 0x20000000 bench).resetSeen = true ∧
    (present 0x20000000 bench).hostIn.rst = false ∧ (present 0x20000000 bench).seq = .idle ∧
    (present 0x20000000 bench).breaksText (present 0x20000000 bench).hostIn.txt = false ∧
    (present 0x20000000 bench).hostIn.cmd = some 0x20000000 ∧ decode 0x20000000 = .command .start := by decide

/-- Idle with nothing presented; busy with a command that ends in this step; busy with one that the step stops inside. -/
theorem witness_StepWithoutCommandWaitsOrGoesOn : bench.resetSeen = true ∧ bench.hostIn.rst = false ∧
    bench.breaksText bench.hostIn.txt = false ∧ bench.seq = .idle ∧ bench.hostIn.cmd = none ∧
    (runTicks fullRun ({ bench with seq := .busy, todo := [.settle .short] } : State)).todo = [] ∧
    (runTicks 0 ({ bench with seq := .busy, todo := [.settle .short] } : State)).todo ≠ [] := by decide

theorem witness_WordPresentedWhileNotIdleHasNoEffect : halted.seq ≠ .idle ∧ resetting.seq ≠ .idle ∧
    resetting.host = { HostIn.quiet with rst := true } :: [] := by decide

theorem witness_FaultEntryWritesThreeRegisters :
    [(0x00000000 : CmdWord), 0x30110001].all (fun w => (present w bench).resetSeen && !(present w bench).hostIn.rst &&
      (present w bench).seq == .idle && !(present w bench).breaksText (present w bench).hostIn.txt &&
      (present w bench).hostIn.cmd == some w) = true ∧
    decode 0x00000000 = .illegalCmd ∧ decode 0x30110001 = .badBitCount := by decide

theorem witness_FaultEntryWritesThreeRegisters_stays :
    step (present 0 bench) = .next (stepped (present 0 bench)) ∧
    step (stepped (present 0 bench)) = .next (stepped (stepped (present 0 bench))) ∧
    (stepped (present 0 bench)).hostIn.rst = false := ⟨rfl, rfl, rfl⟩

theorem witness_HaltIsLeftOnlyByReset : halted.seq = .halt ∧ halted.hostIn.rst = false ∧ halted.resetSeen = true ∧
    halted.breaksText halted.hostIn.txt = false ∧
    ({ halted with host := [{ HostIn.quiet with rst := true }] } : State).hostIn.rst = true := by decide

theorem witness_HaltIsLeftOnlyByReset_step : step halted = .next (stepped halted) := rfl

theorem witness_FaultRegistersChangeOnlyByFaultOrReset : step (present 0 bench) = .next (stepped (present 0 bench)) ∧
    (present 0 bench).hostIn.rst = false ∧ (stepped (present 0 bench)).fcause ≠ (present 0 bench).fcause :=
  ⟨rfl, rfl, by decide⟩

theorem witness_ResetGivesEveryRegisterItsValue : resetting.hostIn.rst = true := by decide

theorem witness_ResetReachesNoDevice : resetting.hostIn.rst = true ∧ step resetting = .next (stepped resetting) := ⟨rfl, rfl⟩

/-- Each refusal of the step happens in some state. -/
theorem witness_StepRefusesExactlyWhereTheSpecGivesNoMeaning :
    step { bench with resetSeen := false } = .refused .beforeFirstReset ∧
    step { bench2 with seq := .busy, todo := [.fetch], textBase := some 0x0100, host := [⟨false, none, [(0x0101, 7)], none⟩] } =
      .refused .textChangedDuringRender := ⟨rfl, rfl⟩

theorem reset_inv : Inv State.reset := by
  refine ⟨rfl, rfl, by decide, by decide, rfl, by decide, by decide, fun _ => rfl, ?_, by decide⟩
  intro h; cases h

theorem witness_StepKeepsTheInvariant : Inv State.reset ∧ step State.reset = .next (stepped State.reset) := ⟨reset_inv, rfl⟩

theorem witness_NoStepWritesTheEeprom : step (present 0x5000001E bench1) = .next (stepped (present 0x5000001E bench1)) := rfl

theorem witness_OnlyTheHostWritesTheTextMemory : step { bench with host := [⟨false, none, [(5, 7)], none⟩] } =
    .next (stepped { bench with host := [⟨false, none, [(5, 7)], none⟩] }) := rfl

theorem witness_TraceOnlyGrows : step (present 0x20000000 bench) = .next (stepped (present 0x20000000 bench)) ∧
    (present 0x20000000 bench).hostIn.rst = false := ⟨rfl, rfl⟩

theorem witness_ResultIsWrittenOnlyWithItsStrobe :
    (perform .result { bench with work := 1 }).result ≠ ({ bench with work := 1 } : State).result := by decide

/-- A rising latch line, and a write that is none. -/
theorem witness_OutputsChangeOnlyAtTheLatchEdge : bench.pins.srLatch = false ∧
    ¬ (Micro.drive .srLatch false = .drive .srLatch true ∧ bench.pins.srLatch = false) := by decide

theorem witness_StateChangesOnlyByItsWriters : exec .start bench = .next (after .start bench) ∧
    (after .start bench).pins.eeSel ≠ bench.pins.eeSel := ⟨rfl, by decide⟩

theorem witness_LookingInDoesNotChangeTheOutcome : bench.look = none ∧ exec .start bench = .next (after .start bench) ∧
    (after .start bench).seq = .idle ∧
    exec .start { bench with look := some 3 } = .next (after .start { bench with look := some 3 }) ∧
    (after .start { bench with look := some 3 }).seq = .busy := ⟨rfl, rfl, by decide, rfl, by decide⟩

/-- `look = none`, with `eeRef = true` where it is asked, the only hypotheses of PinDrivesItsSignal,
StartSendsTheStartCondition, ReadWordAssemblesItsSamples, ReadWordAtIsOneTransaction, ReadWordAtReturnsTheStoredWord,
ReadRangeReadsEveryAddressInOrder, ReadRangeStrobesTheStoredWords, ShiftSendsEightBits, LatchCopiesTheChain,
CascadeSendsByte1ThenByte0, FindScansUntilTheFirstMatch and FindReadsTheStoredSlots. -/
theorem witness_look : bench.look = none ∧ bench1.look = none ∧ bench1.eeRef = true ∧ bench.eeRef = false := by decide

theorem witness_CascadeFrameCommitsItsBytes : bench.pins.srClk = false ∧ bench.pins.srLatch = false := by decide

theorem witness_DrivingTheSameLevelMakesNoEdge : bench.look = none ∧
    (bench.pins.eeSel = false → bench.eeprom.phase = .idle) := by decide

theorem witness_PinSequencesReproduceTheCompositeOperations : bench.look = none ∧ bitCountOk 1 = true ∧ bitCountOk 16 = true ∧
    execAll [.pin (.out .srLatch) true .latch, .pin (.out .srLatch) false .none] bench =
      .next (after (.pin (.out .srLatch) false .none) (after (.pin (.out .srLatch) true .latch) bench)) := by
  exact ⟨rfl, by decide, by decide, rfl⟩

theorem witness_WriteBitsSendsTheBits : bench.look = none ∧ 1 ≤ (1 : BitVec 5).toNat ∧ (16 : BitVec 5).toNat ≤ 16 := by decide

theorem witness_WriteBitsOfBadCountTakesBadBitCount :
    (0 : BitVec 5).toNat = 0 ∧ 17 ≤ (17 : BitVec 5).toNat ∧ 17 ≤ (31 : BitVec 5).toNat := by decide

theorem witness_ReadWordTakesTheInputLevels : ({ bench with din := msbBits 0x0241 16 ++ [true] } : State).look = none ∧
    ({ bench with din := msbBits 0x0241 16 ++ [true] } : State).eeRef = false ∧
    ({ bench with din := msbBits 0x0241 16 ++ [true] } : State).din = msbBits 0x0241 16 ++ [true] := ⟨rfl, rfl, rfl⟩

theorem witness_CascadeHoldsNearAndFarBytes : bench.look = none ∧ bench.pins.srClk = false ∧ bench.pins.srLatch = false := by
  decide

/-- Both branches of each: the lines low, and left high by a `PIN`. -/
theorem witness_CascadeFrameBitsOnTheWire : bench.pins.srClk = false ∧ bench.pins.srLatch = false ∧
    (after (.pin (.out .srClk) true .none) bench).pins.srClk = true ∧
    (after (.pin (.out .srLatch) true .none) bench).pins.srLatch = true := by decide

/-- The first slot, the last slot of a complete image that no lower slot equals, and a character no slot holds. -/
theorem witness_FindReturnsTheSlotOrTheSentinel :
    (∀ j, j < 0 → lowByte (slotWord (fill img3) j) ≠ lowByte (slotWord (fill img3) 0)) ∧
    (∀ j, j < 36 → lowByte (slotWord (fill img3) j) ≠ lowByte (slotWord (fill img3) 36)) ∧
    (∀ i, i < 37 → lowByte (slotWord (fill img3) i) ≠ 0x5A) := by
  refine ⟨fun j h => by omega, ?_, ?_⟩ <;> decide +kernel

theorem holds_one : bench2.HoldsText 0x0100 [0x41] := by
  refine ⟨by decide, ?_, by decide, by decide⟩
  intro k hk
  have : k = 0 := by simpa using hk
  subst this
  decide

theorem holds_miss : bench3.HoldsText 0x0100 [0x5A] := by
  refine ⟨by decide, ?_, by decide, by decide⟩
  intro k hk
  have : k = 0 := by simpa using hk
  subst this
  decide

theorem holds_empty : bench.HoldsText 0xFFFF [] := by
  refine ⟨by decide, fun k hk => by simp at hk, by decide, by decide⟩

/-- A text of one character and the empty text. -/
theorem witness_RenderOfATerminatedTextCompletes : bench2.look = none ∧ bench2.HoldsText 0x0100 [0x41] ∧ bench.look = none ∧
    bench.HoldsText 0xFFFF [] := ⟨rfl, holds_one, rfl, holds_empty⟩

theorem witness_RenderOfAnEmptyTextReadsOneByte : bench.look = none ∧ bench.txtRead 0x0100 = Config.config.term := by decide

theorem witness_RenderOverPinsIsTheWordRenderer : bench2.look = none ∧ bench2.eeRef = true ∧ bench2.HoldsText 0x0100 [0x41] :=
  ⟨rfl, rfl, holds_one⟩

theorem witness_RenderOfMissesLeavesTheDisplay : bench3.look = none ∧ bench3.eeRef = true ∧ bench3.HoldsText 0x0100 [0x5A] ∧
    ∀ c ∈ [(0x5A : Byte)], ∀ i, i < 37 → lowByte (slotWord bench3.ee i) ≠ c := by
  refine ⟨rfl, rfl, holds_miss, ?_⟩
  decide +kernel

theorem witness_RenderEndsWithABlankDisplay : bench2.look = none ∧ bench2.eeRef = true ∧ bench2.HoldsText 0x0100 [0x41] ∧
    ∃ c ∈ [(0x41 : Byte)], ∃ i, i < 37 ∧ lowByte (slotWord bench2.ee i) = c :=
  ⟨rfl, rfl, holds_one, 0x41, by decide, 3, by decide, by decide⟩

/-- A count of 2: word 1 is the last (its entries 2 and 3), entry 4 the first not written. -/
theorem witness_ColumnLoadWritesTheEntriesOfItsCount : bench2.look = none ∧ bench2.eeRef = true ∧
    bench2.HoldsText 0x0100 [0x41] ∧ Memory.wf 256 bench2.cbuf = true ∧ firstSlot bench2.ee 0x41 = some 3 ∧
    1 ≤ (highByte (slotWord bench2.ee 3)).toNat / 2 ∧ 2 * ((highByte (slotWord bench2.ee 3)).toNat / 2) + 1 < 4 :=
  ⟨rfl, rfl, holds_one, rfl, firstSlot_some.2 ⟨by decide, by decide, by decide⟩, by decide, by decide⟩

theorem witness_RenderWithoutTerminatorDoesNotComplete : noTerm.NoTerminator := noTerm_noTerminator

/-- Such a RENDER in progress, looked at again after one micro-operation. -/
def running : State :=
  { noTerm with seq := .busy, todo := [.fetch], textBase := some 0x0100, host := [⟨false, none, [], some 1⟩] }

theorem witness_OnlyResetEndsARenderWithoutTerminator : running.Rendering ∧ running.NoTerminator ∧
    Memory.wf 65536 running.txt = true ∧ running.textBase ≠ none ∧ running.hostIn.rst = false ∧
    step running = .next running.ready.resume := by
  refine ⟨⟨rfl, [], .fetch, rfl, Or.inl rfl⟩, noTerm_noTerminator, wf_ones 65536 0 (Nat.le_refl _), by simp [running], rfl, ?_⟩
  rw [step_running rfl rfl rfl]
  exact stepEngine_busy rfl _

theorem witness_CommandsTakeTheirLeastTime : bench.look = none ∧ bitCountOk 1 = true ∧ bitCountOk 16 = true := by decide

/-- The clauses with the reference EEPROM. -/
theorem witness_CommandsTakeTheirLeastTime_ref : bench2.look = none ∧ bench2.eeRef = true ∧ bench2.HoldsText 0x0100 [0x41] :=
  ⟨rfl, rfl, holds_one⟩

/-- The least times the vectors V40, V41 and V42 give, on the complete image IMG1. -/
theorem test_charUnits : charUnits (fill img1) 0x41 = 157702 ∧ charUnits (fill img1) 0x5A = 372146 := by decide +kernel

end Sys2Proof.Tests
end

section
/-! The statements about the primitives of spec/00_scope.md: a drive that makes no edge (R11) and the samples no device
answers (R8). -/

namespace Sys2Proof.Machine

/-! ### `PIN` and `RWORD` as `runCode` of their pseudocode -/

theorem exec_pin_out {s : State} (hl : s.look = none) (p : Pin) (v : Bool) (hold : Hold) :
    exec (.pin (.out p) v hold) s = .next (runCode (pinCode p v hold) (s.accept [])).complete := by
  have hn : (pinCode p v hold).length ≤ fullRun := (pinCode_length p v hold).trans (by decide)
  exact congrArg Host.Outcome.next (State.runCommand_straight_todo (pinCode_straight p v hold) hn hl)

theorem exec_rword {s : State} (hl : s.look = none) :
    exec .rword s = .next (runCode readWordCode (s.accept [])).complete := by
  have hn : readWordCode.length ≤ fullRun := by rw [readWordCode_length]; decide
  exact congrArg Host.Outcome.next (State.runCommand_straight_todo readWordCode_straight hn hl)

/-- `PIN` is its drive and, in the trace only, the settle of its hold (R90). -/
theorem runCode_pinCode (p : Pin) (v : Bool) (hold : Hold) (s : State) :
    runCode (pinCode p v hold) s =
      { s.drive p v with log := (holdDuration hold).toList.map .settle ++ (s.drive p v).log } := by
  cases hold <;> rfl

/-! ### Driving the level a pin already has (R11) -/

@[simp] theorem Pins.set_get (pins : Pins) (p : Pin) : pins.set p (pins.get p) = pins := by
  cases p <;> rfl

@[simp] theorem Pins.rises_get (pins : Pins) (p : Pin) : pins.rises p (pins.get p) = false := by
  simp [Pins.rises]

/-- Without a clock edge the device changes only by being deselected outside IDLE (R56). -/
theorem Eeprom.see_noEdge {d : Eeprom} {pins : Pins} (h : pins.eeSel = false → d.phase = .idle)
    (ee : List (Nat × Word)) : d.see pins false ee = d := by
  rw [Eeprom.see]
  split
  · next hsel => rw [← h hsel]
  · rfl

theorem Eeprom.afterDrive_noEdge {d : Eeprom} {pins : Pins} (h : pins.eeSel = false → d.phase = .idle) (p : Pin)
    (ee : List (Nat × Word)) : d.afterDrive pins p false ee = d := by
  cases p with
  | eeSel | eeClk | eeDout => exact Eeprom.see_noEdge h ee
  | srClk | srData | srLatch => rfl

/-- A drive that changes no level is its event and nothing else (R11). -/
theorem State.drive_get {s : State} (h : s.pins.eeSel = false → s.eeprom.phase = .idle) (p : Pin) :
    s.drive p (s.pins.get p) = s.emit (.drive p (s.pins.get p)) := by
  simp [State.drive, State.emit, Eeprom.afterDrive_noEdge h, chainAfter, outAfter]

/-- Settles O28: the drive is only its event (`State.drive_get`), and the settle of the hold only another. -/
theorem drivingTheSameLevelMakesNoEdge : Obligations.DrivingTheSameLevelMakesNoEdge := by
  intro p hold s hl hsel
  refine ⟨_, exec_pin_out hl p _ hold, ?_⟩
  have hdrive : (s.accept []).drive p (s.pins.get p) = (s.accept []).emit (.drive p (s.pins.get p)) :=
    State.drive_get (s := s.accept []) hsel p
  rw [runCode_pinCode, hdrive]
  exact ⟨rfl, rfl, rfl, rfl⟩

/-! ### Samples no device answers (R8): the queued levels leave the free values alone -/

theorem readBit_draws {s : State} (h : s.eeRef = false) (hd : s.din ≠ []) (n : Nat) :
    (runCode (readBit n) s).draws = s.draws := by
  simp [readBit, perform, State.afterSample, State.deviceLevel, h, hd]

theorem readBits_draws (n : Nat) {s : State} (h : s.eeRef = false) (hn : n ≤ s.din.length) :
    (runCode (readBits n) s).draws = s.draws := by
  induction n generalizing s with
  | zero => rfl
  | succ n ih =>
    have hd : s.din ≠ [] := List.ne_nil_of_length_pos (by omega)
    have hrest : n ≤ (runCode (readBit n) s).din.length := by
      rw [readBit_din h, List.length_tail]
      omega
    rw [readBits, runCode_append, ih (s := runCode (readBit n) s) h hrest, readBit_draws h hd]

theorem readWordCode_draws {s : State} (h : s.eeRef = false) (hn : 16 ≤ s.din.length) :
    (runCode readWordCode s).draws = s.draws := by
  rw [readWordCode_eq, State.putResult_draws]
  exact readBits_draws 16 (s := { s with work := 0 }) h hn

/-- Settles O34: sixteen samples take the sixteen queued levels (`readWordCode_din`) and draw no free value. -/
theorem readWordTakesTheInputLevels : Obligations.ReadWordTakesTheInputLevels := by
  intro s w rest hl href hd
  have hlen : 16 ≤ s.din.length := by
    rw [hd, List.length_append, msbBits_length]
    omega
  obtain ⟨hvalue, hdin⟩ := readWordCode_din (s := s.accept []) href w rest hd
  exact ⟨_, exec_rword hl, hvalue, hdin, readWordCode_draws (s := s.accept []) href hlen⟩

end Sys2Proof.Machine
end

section
/-! The invariant of spec/10_state.md (R25, R26, R29, R31, R32): it holds after reset, and every step keeps it. What a step
can do is `step_cases`, what an instruction can do `exec_cases`, what a running command keeps `RunInv`. -/

namespace Sys2Proof.Machine

/-! ### The fault registers and SEQ (R31, R151) -/

theorem faultRegsOk_iff_of_ne_halt {s : State} (h : s.seq ≠ .halt) :
    faultRegsOk s = true ↔ s.fcause = 0 ∧ s.finfo = 0 := by
  cases hs : s.seq with
  | halt => exact absurd hs h
  | idle | busy => simp [faultRegsOk, hs]

theorem raiseFault_faultRegsOk (s : State) (cause : Cause) (w : CmdWord) : faultRegsOk (s.raiseFault cause w) = true := by
  cases cause <;> rfl

/-! ### A running command -/

theorem Inv.runInv {s : State} (h : Inv s) : RunInv s :=
  ⟨h.txt, h.cbuf, h.faddr, h.legal, h.deselected, h.device⟩

/-- A busy engine keeps the invariant when it completes the command that has nothing left to do (R81). -/
theorem settleSeq_inv {s : State} (h : RunInv s) (hseq : s.seq = .busy) (hf : s.fcause = 0 ∧ s.finfo = 0) :
    Inv s.settleSeq := by
  rw [State.settleSeq]
  split
  · next htodo =>
    have htodo' : s.todo = [] := List.isEmpty_iff.1 htodo
    exact {
      txt := h.txt, cbuf := h.cbuf, faddr := h.faddr, legal := h.legal, deselected := h.deselected, device := h.device
      control := by simp [htodo']
      faults := (faultRegsOk_iff_of_ne_halt (by simp)).2 hf
      text := fun hbase => absurd rfl hbase }
  · next htodo =>
    exact {
      txt := h.txt, cbuf := h.cbuf, faddr := h.faddr, legal := h.legal, deselected := h.deselected, device := h.device
      control := by simpa [hseq] using htodo
      faults := (faultRegsOk_iff_of_ne_halt (by simp [hseq])).2 hf
      text := fun _ => hseq }

theorem resume_inv {s : State} (h : RunInv s) (hseq : s.seq = .busy) (hf : s.fcause = 0 ∧ s.finfo = 0) :
    Inv s.resume := by
  have hframe := runTicks_frame s.budget s
  refine settleSeq_inv (runTicks_runInv _ h) (hframe.seq.trans hseq) ?_
  rwa [hframe.fcause, hframe.finfo]

/-- A command accepted by the idle engine keeps the invariant, whatever text it holds from then on (R67, R80). -/
theorem runCommand_inv {s : State} (h : Inv s) (hseq : s.seq = .idle) (base : Option TxtAddr) {code : List Micro}
    (hcode : code.all Micro.legal = true) : Inv (({ s with textBase := base }).runCommand code) := by
  have hf := (faultRegsOk_iff_of_ne_halt (by simp [hseq])).1 h.faults
  exact resume_inv ⟨h.txt, h.cbuf, h.faddr, hcode, h.deselected, h.device⟩ rfl hf

/-! ### Fault entry, sub-operations, inputs, reset -/

theorem raiseFault_inv {s : State} (h : Inv s) (hseq : s.seq = .idle) (cause : Cause) (w : CmdWord) :
    Inv (s.raiseFault cause w) := by
  have hidle : s.seq ≠ .busy := by simp [hseq]
  exact {
    txt := h.txt, cbuf := h.cbuf, faddr := h.faddr, legal := h.legal, deselected := h.deselected, device := h.device
    control := by simpa using h.control.2 hidle
    faults := raiseFault_faultRegsOk s cause w
    text := fun hbase => absurd (h.text hbase) hidle }

/-- A wire frame leaves SEQ and what is left to do alone, so it keeps the invariant in any state (log entry 14). -/
theorem runCode_inv {s : State} (h : Inv s) {code : List Micro} (hlegal : code.all Micro.legal = true)
    (hstraight : Straight code) : Inv (runCode code s) := by
  have hrun : RunInv (runCode code s) :=
    runCode_keeps (fun m hm _ hs => perform_runInv (List.all_eq_true.1 hlegal m hm) hs) h.runInv
  have hframe := runCode_frame code s
  exact {
    txt := hrun.txt, cbuf := hrun.cbuf, faddr := hrun.faddr, legal := hrun.legal
    deselected := hrun.deselected, device := hrun.device
    control := by rw [runCode_todo hstraight, hframe.seq]; exact h.control
    faults := by simpa only [faultRegsOk, hframe.seq, hframe.fcause, hframe.finfo] using h.faults
    text := by rw [hframe.textBase, hframe.seq]; exact h.text }

theorem ready_inv {s : State} (h : Inv s) : Inv s.ready :=
  ⟨State.hostWrites_wf h.txt _, h.cbuf, h.faddr, h.control, h.legal, h.faults, h.text, h.deselected, h.device⟩

/-- Reset brings the invariant about: it needs only what it leaves alone, TXT and the device's bit counter (R171, R173). -/
theorem resetEngine_inv {s : State} (htxt : Memory.wf 65536 s.txt = true) (hq : s.eeprom.q ≤ 16) : Inv s.resetEngine where
  txt := htxt
  cbuf := rfl
  faddr := lookupValue_slot (idx := 0) (by decide)
  control := by simp
  legal := rfl
  faults := rfl
  text := fun hbase => absurd rfl hbase
  deselected := fun _ => rfl
  device := ⟨(nomatch ·), hq⟩

/-! ### Instructions and steps -/

theorem exec_inv {i : Instr} {s t : State} (h : Inv s) (hseq : s.seq = .idle) (he : exec i s = .next t) : Inv t := by
  rcases exec_cases he with ⟨cause, rfl, -⟩ | ⟨code, hlegal, -, -, rfl⟩ | ⟨c, -, rfl⟩ | ⟨ptr, -, rfl⟩ |
    ⟨code, hlegal, hstraight, rfl⟩
  · exact raiseFault_inv h hseq cause _
  · exact runCommand_inv h hseq s.textBase hlegal
  · exact runCommand_inv h hseq s.textBase (scanCode_legal c (by omega) false)
  · exact runCommand_inv h hseq (some ptr) rfl
  · exact runCode_inv h hlegal hstraight

/-- Settles O18: each way a step answers (`step_cases`) keeps the invariant. -/
theorem stepKeepsTheInvariant : Obligations.StepKeepsTheInvariant := by
  intro s t h hstep
  have hready := ready_inv h
  cases step_cases hstep with
  | reset _ ht => exact ht ▸ resetEngine_inv hready.txt hready.device.2
  | quiet _ _ ht => exact ht ▸ hready
  | busy _ _ hseq ht =>
    have hf := (faultRegsOk_iff_of_ne_halt (by simp [hseq])).1 h.faults
    exact ht ▸ resume_inv hready.runInv hseq hf
  | command _ _ hseq _ _ _ _ he => exact exec_inv hready hseq he
  | fault _ hseq w _ cause _ ht => exact ht ▸ raiseFault_inv hready hseq cause w

/-- Settles O17: the state after reset is its own reset (`resetEngine_inv`). -/
theorem resetStateMeetsTheInvariant : Obligations.ResetStateMeetsTheInvariant :=
  resetEngine_inv (s := State.reset) rfl (Nat.zero_le 16)

end Sys2Proof.Machine
end

section
/-! The fault registers are written by fault entry and by reset (spec/10_state.md R31), and reset gives every register its
value (R37). -/

namespace Sys2Proof.Machine

/-! ### The fault registers (R31) -/

theorem decodePin_wf {w : CmdWord} {i : Instr} (h : decodePin w = .command i) : i.wf = true := by
  unfold decodePin at h
  split at h
  · injection h with h
    rw [← h]; rfl
  · nomatch h
  · nomatch h

theorem decodeWbits_wf {w : CmdWord} {i : Instr} (h : decodeWbits w = .command i) : i.wf = true := by
  unfold decodeWbits at h
  split at h
  · next hcount =>
    injection h with h
    rw [← h]; exact hcount
  · nomatch h

/-- A word that decodes to a command names a legal one (R75, R76). -/
theorem decode_wf {w : CmdWord} {i : Instr} (h : decode w = .command i) : i.wf = true := by
  have hrow {b : Bool} {j : Instr} (hj : j.wf = true)
      (hb : (if b = true then Decoded.command j else .illegalCmd) = .command i) : i.wf = true := by
    cases b with
    | true => injection hb with hb; rw [← hb]; exact hj
    | false => nomatch hb
  unfold decode at h
  split at h
  case h_1 =>
    split at h
    · exact decodePin_wf h
    · nomatch h
  case h_3 =>
    split at h
    · exact decodeWbits_wf h
    · nomatch h
  case h_12 => nomatch h
  all_goals exact hrow rfl h

theorem resume_faultRegs (s : State) : s.resume.fcause = s.fcause ∧ s.resume.finfo = s.finfo := by
  have hframe := runTicks_frame s.budget s
  rw [State.resume, State.settleSeq]
  split <;> exact ⟨hframe.fcause, hframe.finfo⟩

theorem runCommand_faultRegs (s : State) (base : Option TxtAddr) (code : List Micro) :
    (({ s with textBase := base }).runCommand code).fcause = s.fcause ∧
      (({ s with textBase := base }).runCommand code).finfo = s.finfo :=
  resume_faultRegs (State.accept { s with textBase := base } code)

/-- An instruction leaves the fault registers alone, but for an illegal one, which enters HALT (R75, R154). -/
theorem exec_faultRegs {i : Instr} {s t : State} (h : exec i s = .next t) :
    (t.seq = .halt ∧ i.wf = false) ∨ (t.fcause = s.fcause ∧ t.finfo = s.finfo) := by
  rcases exec_cases h with ⟨cause, rfl, hwf⟩ | ⟨code, -, -, -, rfl⟩ | ⟨c, -, rfl⟩ | ⟨ptr, -, rfl⟩ | ⟨code, -, -, rfl⟩
  · exact .inl ⟨rfl, hwf⟩
  · exact .inr (runCommand_faultRegs s s.textBase code)
  · exact .inr (runCommand_faultRegs s s.textBase _)
  · exact .inr (runCommand_faultRegs s (some ptr) _)
  · exact .inr ⟨(runCode_frame code s).fcause, (runCode_frame code s).finfo⟩

/-- Settles O13: of the ways a step answers without reset only the acceptance of a word that is no command writes them. -/
theorem faultRegistersChangeOnlyByFaultOrReset : Obligations.FaultRegistersChangeOnlyByFaultOrReset := by
  intro s t hstep hrst hchange
  have hkept : ¬ (t.fcause = s.fcause ∧ t.finfo = s.finfo) := not_and_or.2 hchange
  cases step_cases hstep with
  | reset hr _ => rw [hrst] at hr; nomatch hr
  | quiet _ _ ht => exact absurd (ht ▸ ⟨rfl, rfl⟩) hkept
  | busy _ _ _ ht => exact absurd (ht ▸ resume_faultRegs s.ready) hkept
  | command _ _ _ w _ i hdec he =>
    rcases exec_faultRegs he with ⟨-, hwf⟩ | hsame
    · rw [decode_wf hdec] at hwf; nomatch hwf
    · exact absurd hsame hkept
  | fault _ hseq w hcmd cause hdec ht =>
    subst ht
    refine ⟨hseq, rfl, w, hcmd, rfl, ?_⟩
    rcases hdec with ⟨hd, rfl⟩ | ⟨hd, rfl⟩
    · exact .inl ⟨hd, rfl⟩
    · exact .inr ⟨hd, rfl⟩

/-! ### Reset (R37, R170) -/

/-- Settles O14: the step is `State.resetEngine`, which takes every field from the table of R37 or leaves it alone. -/
theorem resetGivesEveryRegisterItsValue : Obligations.ResetGivesEveryRegisterItsValue := by
  refine ⟨rfl, fun s hrst => ⟨_, step_reset hrst, ?_⟩⟩
  refine ⟨fun p => by cases p <;> rfl, ?_⟩
  exact ⟨rfl, rfl, fun _ => rfl, rfl, rfl, rfl, rfl, rfl, rfl, rfl, rfl, rfl, rfl⟩

end Sys2Proof.Machine
end

section
/-! Who writes what (spec/10_state.md R38). `Micro.writes` says what a micro-operation may write, `regsOf` what an instruction
may; a register outside them keeps its value, however far the instruction has run. -/

namespace Sys2Proof.Machine

/-! ### RESULT and its strobe (R23, R24) -/

/-- The lookup's test writes FADDR and opens pseudocode; outside RENDER that is nothing or the next slot (R130). -/
theorem State.scanTest_eq (s : State) (c : Byte) (idx : Nat) (inRender : Bool) :
    ∃ a code, s.scanTest c idx inRender = ({ s with faddr := a }).push code ∧
      (inRender = false → code = [] ∨ code = scanCode c (idx + 1) false) := by
  unfold State.scanTest
  split
  · exact ⟨_, _, rfl, fun h => .inl (by simp [h])⟩
  · split
    · exact ⟨s.faddr, _, rfl, fun h => .inr (by rw [h])⟩
    · exact ⟨_, _, rfl, fun h => .inl (by simp [h])⟩

theorem perform_result {m : Micro} (h : m ≠ .result) (s : State) : (perform m s).result = s.result := by
  cases m with
  | result => exact absurd rfl h
  | scanTest c idx inRender =>
    obtain ⟨a, code, heq, -⟩ := s.scanTest_eq c idx inRender
    rw [perform, heq]; rfl
  | _ => rfl

/-- Settles O22: the one micro-operation that writes RESULT is `result(w)` (`perform_result`). -/
theorem resultIsWrittenOnlyWithItsStrobe : Obligations.ResultIsWrittenOnlyWithItsStrobe := by
  intro m s hchange
  by_cases hm : m = .result
  · subst hm; exact State.trace_putResult s
  · exact absurd (perform_result hm s) hchange

/-! ### The table of writers (R38) -/

/-- A register or pin of R38's table. SEQ and the fault registers are written by the sequencer and stand apart. -/
inductive Reg where
  | pin (p : Pin)
  | result
  | faddr
  | cbuf
  | txtptr
  deriving DecidableEq

/-- The register or pin holds in `t` what it held in `s`. -/
def Reg.Same (s t : State) : Reg → Prop
  | .pin p => t.pins.get p = s.pins.get p
  | .result => t.result = s.result
  | .faddr => t.faddr = s.faddr
  | .cbuf => t.cbuf = s.cbuf
  | .txtptr => t.txtptr = s.txtptr

/-- The instructions that may write the register or pin: R38, with the wire frames beside `RDAT` and `CASC` (log entry 14). -/
def Reg.writers : Reg → List String
  | .pin .eeSel | .pin .eeDout => ["PIN", "START", "WBITS", "RDAT", "RDRNG", "FIND", "RENDER", "EE_READ_FRAME"]
  | .pin .eeClk => ["PIN", "START", "WBITS", "RWORD", "RDAT", "RDRNG", "FIND", "RENDER", "EE_READ_FRAME"]
  | .pin .srClk | .pin .srData => ["PIN", "SHIFT", "CASC", "RENDER", "SR_CASCADE_FRAME"]
  | .pin .srLatch => ["PIN", "LATCH", "CASC", "RENDER", "SR_CASCADE_FRAME"]
  | .result => ["RWORD", "RDAT", "RDRNG", "FIND", "RENDER"]
  | .faddr => ["FIND", "RENDER"]
  | .cbuf | .txtptr => ["RENDER"]

/-- The EEPROM's wires. -/
def eeWires : List Reg := [.pin .eeSel, .pin .eeClk, .pin .eeDout]

/-- The cascade's wires. -/
def srWires : List Reg := [.pin .srClk, .pin .srData, .pin .srLatch]

/-- What reading words from the EEPROM writes (R103). -/
def readRegs : List Reg := .result :: eeWires

/-- What the lookup writes (R130). -/
def lookupRegs : List Reg := .faddr :: readRegs

/-- All of them: what RENDER writes (R132). -/
def everyReg : List Reg := .cbuf :: .txtptr :: lookupRegs ++ srWires

theorem mem_everyReg (r : Reg) : r ∈ everyReg := by
  cases r with
  | pin p => cases p <;> decide
  | result | faddr | cbuf | txtptr => decide

/-- What a micro-operation and the pseudocode it opens may write. The control points of RENDER open all of it (R137). -/
def Micro.writes : Micro → List Reg
  | .drive p _ => [.pin p]
  | .settle _ | .clearWord | .sample _ => []
  | .result => [.result]
  | .unpack _ => [.cbuf]
  | .setTxtptr _ => [.txtptr]
  | .scanTest _ _ false => lookupRegs
  | .scanTest _ _ true | .fetch | .metaTest _ | .showCol _ | .nextChar => everyReg

/-- The micro-operation writes nothing outside `regs`. -/
def Micro.within (regs : List Reg) (m : Micro) : Bool := m.writes.all (fun r => decide (r ∈ regs))

/-- The pseudocode writes nothing outside `regs`. -/
abbrev Within (regs : List Reg) (code : List Micro) : Prop := code.all (Micro.within regs) = true

theorem Micro.within_iff {regs : List Reg} {m : Micro} : m.within regs = true ↔ ∀ r ∈ m.writes, r ∈ regs := by
  simp [Micro.within]

theorem Within.mono {regs regs' : List Reg} (h : ∀ r ∈ regs, r ∈ regs') {code : List Micro} (hc : Within regs code) :
    Within regs' code := by
  refine List.all_eq_true.2 fun m hm => Micro.within_iff.2 fun r hr => h r ?_
  exact Micro.within_iff.1 (List.all_eq_true.1 hc m hm) r hr

/-! ### The pseudocode of the operations -/

theorem within_of_eeBus {code : List Micro} (h : code.all Micro.eeBus = true) : Within readRegs code := by
  refine List.all_eq_true.2 fun m hm => ?_
  have hbus := List.all_eq_true.1 h m hm
  cases m with
  | drive p v =>
    cases p with
    | eeSel | eeClk | eeDout => rfl
    | srClk | srData | srLatch => nomatch hbus
  | settle d | clearWord | sample i | result => rfl
  | _ => nomatch hbus

theorem within_of_srBus {code : List Micro} (h : code.all Micro.srBus = true) : Within srWires code := by
  refine List.all_eq_true.2 fun m hm => ?_
  have hbus := List.all_eq_true.1 h m hm
  cases m with
  | drive p v =>
    cases p with
    | srClk | srData | srLatch => rfl
    | eeSel | eeClk | eeDout => nomatch hbus
  | settle d => rfl
  | _ => nomatch hbus

theorem pinCode_within (p : Pin) (level : Bool) (hold : Hold) : Within [.pin p] (pinCode p level hold) := by
  cases hold <;> simp [pinCode, holdDuration, Micro.within, Micro.writes]

theorem sendBits_within (value : Word) (n : Nat) : Within eeWires (sendBits value n) := by
  induction n with
  | zero => rfl
  | succ n ih => exact all_append' rfl ih

theorem writeBitsCode_within (value : Word) (n : Nat) : Within eeWires (writeBitsCode value n) :=
  all_append' (sendBits_within value n) rfl

theorem readFrameCode_within (address : Word) : Within eeWires (readFrameCode address) :=
  all_append' (all_append' rfl (writeBitsCode_within _ _)) (writeBitsCode_within address _)

theorem shiftByteCode_within (value : Byte) (dir : Direction) :
    Within [.pin .srClk, .pin .srData] (shiftByteCode value dir) := by
  rw [shiftByteCode, Within, List.all_flatMap]
  exact List.all_eq_true.2 fun _ _ => rfl

theorem scanCode_within (c : Byte) (idx : Nat) : Within lookupRegs (scanCode c idx false) :=
  all_append' ((within_of_eeBus (readWordAtCode_eeBus _)).mono fun _ hr => .tail _ hr) (by simp [Micro.within, Micro.writes])

/-! ### A register outside what the pseudocode writes keeps its value -/

theorem Reg.Same.refl (r : Reg) (s : State) : r.Same s s := by cases r <;> rfl

theorem Reg.Same.trans {r : Reg} {s t u : State} (h : r.Same s t) (h' : r.Same t u) : r.Same s u := by
  cases r <;> exact Eq.trans h' h

theorem drive_same {r : Reg} {p : Pin} (h : r ≠ .pin p) (v : Bool) (s : State) : r.Same s (s.drive p v) := by
  cases r with
  | pin p' =>
    have hp : p' ≠ p := fun heq => h (congrArg Reg.pin heq)
    exact (Pins.get_set s.pins p p' v).trans (if_neg hp)
  | _ => rfl

/-- Opening pseudocode writes no register, and a lookup's test none but FADDR. -/
theorem setFaddr_push_same {r : Reg} (h : r ≠ .faddr) (s : State) (a : Word) (code : List Micro) :
    r.Same s (({ s with faddr := a }).push code) := by
  cases r with
  | faddr => exact absurd rfl h
  | _ => rfl

theorem perform_same {r : Reg} {m : Micro} (h : r ∉ m.writes) (s : State) : r.Same s (perform m s) := by
  cases m with
  | drive p v => exact drive_same (List.ne_of_not_mem_cons h) v s
  | settle d | clearWord | sample i => cases r <;> rfl
  | result =>
    cases r with
    | result => exact absurd (.head _) h
    | _ => rfl
  | unpack j =>
    cases r with
    | cbuf => exact absurd (.head _) h
    | _ => rfl
  | setTxtptr ptr =>
    cases r with
    | txtptr => exact absurd (.head _) h
    | _ => rfl
  | scanTest c idx inRender =>
    cases inRender with
    | false =>
      obtain ⟨a, code, heq, -⟩ := s.scanTest_eq c idx false
      rw [perform, heq]
      exact setFaddr_push_same (List.ne_of_not_mem_cons h) s a code
    | true => exact absurd (mem_everyReg r) h
  | fetch | metaTest addr | showCol slot | nextChar => exact absurd (mem_everyReg r) h

section

variable {r : Reg} {regs : List Reg} (hr : r ∉ regs)
include hr

theorem perform_same_of_within {m : Micro} (h : m.within regs = true) (s : State) : r.Same s (perform m s) :=
  perform_same (fun hm => hr (Micro.within_iff.1 h r hm)) s

/-- What is left to do stays within `regs`: a lookup opens no more than a lookup writes. -/
theorem perform_within {m : Micro} (h : m.within regs = true) {s : State} (hs : Within regs s.todo) :
    Within regs (perform m s).todo := by
  have hall (hm : everyReg = m.writes) : Within regs (perform m s).todo :=
    absurd (Micro.within_iff.1 h r (hm ▸ mem_everyReg r)) hr
  cases m with
  | scanTest c idx inRender =>
    cases inRender with
    | false =>
      obtain ⟨a, code, heq, hcode⟩ := s.scanTest_eq c idx false
      rw [perform, heq]
      refine all_append' ?_ hs
      rcases hcode rfl with rfl | rfl
      · rfl
      · exact (scanCode_within c _).mono (Micro.within_iff.1 h)
    | true => exact hall rfl
  | fetch | metaTest addr | showCol slot | nextChar => exact hall rfl
  | _ => exact hs

theorem runCode_same {code : List Micro} (h : Within regs code) (s : State) : r.Same s (runCode code s) :=
  runCode_keeps (P := fun u => r.Same s u)
    (fun m hm _ hu => hu.trans (perform_same_of_within hr (List.all_eq_true.1 h m hm) _)) (.refl r s)

theorem tick_same {s : State} (h : Within regs s.todo) : r.Same s (tick s) ∧ Within regs (tick s).todo := by
  rw [tick]
  split
  · exact ⟨.refl r s, h⟩
  · next m rest hs =>
    rw [hs, Within, List.all_cons, Bool.and_eq_true] at h
    obtain ⟨hm, hrest⟩ := h
    have hpop : r.Same s { s with todo := rest } := by cases r <;> rfl
    exact ⟨hpop.trans (perform_same_of_within hr hm _), perform_within hr hm hrest⟩

theorem runTicks_same {s : State} (h : Within regs s.todo) (n : Nat) : r.Same s (runTicks n s) := by
  have hkeep (u : State) (hu : r.Same s u ∧ Within regs u.todo) : r.Same s (tick u) ∧ Within regs (tick u).todo :=
    ⟨hu.1.trans (tick_same hr hu.2).1, (tick_same hr hu.2).2⟩
  exact (runTicks_keeps hkeep n ⟨.refl r s, h⟩).1

/-- A command, stopped or completed, leaves a register alone that its pseudocode does not write. -/
theorem runCommand_same {code : List Micro} (h : Within regs code) (s : State) (base : Option TxtAddr) :
    r.Same s (({ s with textBase := base }).runCommand code) := by
  have haccept : r.Same s (({ s with textBase := base }).accept code) := by cases r <;> rfl
  have hsettle (u : State) : r.Same u u.settleSeq := by
    rw [State.settleSeq]
    split <;> cases r <;> rfl
  exact haccept.trans ((runTicks_same hr h _).trans (hsettle _))

end

/-! ### The instructions -/

/-- The pseudocode of an instruction; one that takes a fault has none (R75). -/
def codeOf : Instr → List Micro
  | .pin (.out p) level hold => pinCode p level hold
  | .pin .eeDin _ _ => []
  | .start => startCode
  | .wbits value bitCount => writeBitsCode value bitCount.toNat
  | .rword => readWordCode
  | .rdat address => readWordAtCode (zext16 address)
  | .rdrng first last => readRangeCode first last
  | .shift value dir => shiftByteCode value dir
  | .latch => latchCode
  | .casc byte0 byte1 => cascadeCode byte0 byte1
  | .find character => scanCode character 0 false
  | .render ptr => renderCode ptr
  | .eeReadFrame address => readFrameCode (zext16 address)
  | .srCascadeFrame byte0 byte1 => cascadeCode byte0 byte1

/-- An instruction takes its fault, or its pseudocode runs: as a command, with RENDER holding its text, or as a frame. -/
theorem exec_codeOf {i : Instr} {s t : State} (h : exec i s = .next t) :
    (∃ cause, t = s.raiseFault cause (encode i)) ∨
    (∃ base, t = ({ s with textBase := base }).runCommand (codeOf i)) ∨ t = runCode (codeOf i) s := by
  cases i with
  | pin sig level hold =>
    cases sig with
    | out p => injection h with h; exact .inr (.inl ⟨s.textBase, h.symm⟩)
    | eeDin => injection h with h; exact .inl ⟨_, h.symm⟩
  | wbits value bitCount =>
    simp only [exec, execWbits] at h
    split at h
    · injection h with h; exact .inr (.inl ⟨s.textBase, h.symm⟩)
    · injection h with h; exact .inl ⟨_, h.symm⟩
  | render ptr => injection h with h; exact .inr (.inl ⟨some ptr, h.symm⟩)
  | eeReadFrame | srCascadeFrame => injection h with h; exact .inr (.inr h.symm)
  | _ => injection h with h; exact .inr (.inl ⟨s.textBase, h.symm⟩)

/-- What an instruction writes (R38). -/
def regsOf : Instr → List Reg
  | .pin (.out p) _ _ => [.pin p]
  | .pin .eeDin _ _ => []
  | .start | .wbits _ _ | .eeReadFrame _ => eeWires
  | .rword => [.pin .eeClk, .result]
  | .rdat _ | .rdrng _ _ => readRegs
  | .shift _ _ => [.pin .srClk, .pin .srData]
  | .latch => [.pin .srLatch]
  | .casc _ _ | .srCascadeFrame _ _ => srWires
  | .find _ => lookupRegs
  | .render _ => everyReg

theorem codeOf_within (i : Instr) : Within (regsOf i) (codeOf i) := by
  cases i with
  | pin sig level hold =>
    cases sig with
    | out p => exact pinCode_within p level hold
    | eeDin => rfl
  | start => rfl
  | wbits value bitCount => exact writeBitsCode_within value _
  | rword => rfl
  | rdat address => exact within_of_eeBus (readWordAtCode_eeBus _)
  | rdrng first last => exact within_of_eeBus (readRangeCode_eeBus first last)
  | shift value dir => exact shiftByteCode_within value dir
  | latch => rfl
  | casc byte0 byte1 => exact within_of_srBus (cascadeCode_srBus byte0 byte1)
  | find character => exact scanCode_within character 0
  | render ptr => rfl
  | eeReadFrame address => exact readFrameCode_within _
  | srCascadeFrame byte0 byte1 => exact within_of_srBus (cascadeCode_srBus byte0 byte1)

/-- The table of R38 read from the side of the instruction: it is one of the writers of what it writes. -/
theorem mnemonic_mem_writers (i : Instr) : ∀ r ∈ regsOf i, i.mnemonic ∈ r.writers := by
  cases i with
  | pin sig level hold =>
    cases sig with
    | out p =>
      intro r hr
      rw [List.mem_singleton.1 hr]
      show "PIN" ∈ _
      cases p <;> decide
    | eeDin => exact fun _ hr => nomatch hr
  | start => exact (by decide : ∀ r ∈ eeWires, "START" ∈ r.writers)
  | wbits => exact (by decide : ∀ r ∈ eeWires, "WBITS" ∈ r.writers)
  | rword => exact (by decide : ∀ r ∈ [Reg.pin .eeClk, .result], "RWORD" ∈ r.writers)
  | rdat => exact (by decide : ∀ r ∈ readRegs, "RDAT" ∈ r.writers)
  | rdrng => exact (by decide : ∀ r ∈ readRegs, "RDRNG" ∈ r.writers)
  | shift => exact (by decide : ∀ r ∈ [Reg.pin .srClk, .pin .srData], "SHIFT" ∈ r.writers)
  | latch => exact (by decide : ∀ r ∈ [Reg.pin .srLatch], "LATCH" ∈ r.writers)
  | casc => exact (by decide : ∀ r ∈ srWires, "CASC" ∈ r.writers)
  | find => exact (by decide : ∀ r ∈ lookupRegs, "FIND" ∈ r.writers)
  | render => exact (by decide : ∀ r ∈ everyReg, "RENDER" ∈ r.writers)
  | eeReadFrame => exact (by decide : ∀ r ∈ eeWires, "EE_READ_FRAME" ∈ r.writers)
  | srCascadeFrame => exact (by decide : ∀ r ∈ srWires, "SR_CASCADE_FRAME" ∈ r.writers)

theorem exec_same {i : Instr} {s t : State} (h : exec i s = .next t) {r : Reg} (hr : r ∉ regsOf i) : r.Same s t := by
  rcases exec_codeOf h with ⟨cause, rfl⟩ | ⟨base, rfl⟩ | rfl
  · cases r <;> rfl
  · exact runCommand_same hr (codeOf_within i) s base
  · exact runCode_same hr (codeOf_within i) s

theorem mnemonic_mem_writers_of_changed {i : Instr} {s t : State} (h : exec i s = .next t) {r : Reg}
    (hchange : ¬ r.Same s t) : i.mnemonic ∈ r.writers :=
  mnemonic_mem_writers i r (Decidable.of_not_not fun hr => hchange (exec_same h hr))

/-- Settles O24: each register and pin by its row of `Reg.writers`, the fault registers by `exec_faultRegs`. -/
theorem stateChangesOnlyByItsWriters : Obligations.StateChangesOnlyByItsWriters := by
  intro i s t h
  have hrow {r : Reg} := mnemonic_mem_writers_of_changed h (r := r)
  refine ⟨fun hc => ?_, hrow (r := .faddr), hrow (r := .result), fun hc => ?_, hrow (r := .pin .eeClk), fun hc => ?_,
    hrow (r := .pin .srLatch), fun hc => ?_⟩
  · rcases hc with hc | hc
    · exact List.mem_singleton.1 (hrow (r := .cbuf) hc)
    · exact List.mem_singleton.1 (hrow (r := .txtptr) hc)
  · exact hc.elim (hrow (r := .pin .eeSel)) (hrow (r := .pin .eeDout))
  · exact hc.elim (hrow (r := .pin .srClk)) (hrow (r := .pin .srData))
  · rcases exec_faultRegs h with ⟨hhalt, -⟩ | hsame
    · exact hhalt
    · exact absurd hsame (not_and_or.2 hc)

end Sys2Proof.Machine
end

section
/-! The ports that show the registers (spec/10_state.md R30, R35, R36). -/

namespace Sys2Proof.Machine

theorem State.status_busy (s : State) : s.status.getLsbD 0 = decide (s.seq = .busy) := BitVec.getLsbD_concat_zero

theorem State.status_fault (s : State) : s.status.getLsbD 1 = decide (s.seq = .halt) :=
  BitVec.getLsbD_concat_succ.trans BitVec.getLsbD_concat_zero

theorem State.status_lt (s : State) : s.status.toNat < 4 := by
  rw [State.status]
  cases s.faultFlag <;> cases s.busyFlag <;> decide

theorem Pins.bits_eq_concat (pins : Pins) : pins.bits =
    (((((BitVec.ofBool pins.srLatch).concat pins.srData).concat pins.srClk).concat pins.eeDout).concat pins.eeClk).concat
      pins.eeSel := rfl

/-- `PINS` holds each pin at the place of its signal code (R20, R35). -/
theorem Pins.bits_code (pins : Pins) (p : Pin) : pins.bits.getLsbD p.code.toNat = pins.get p := by
  rw [Pins.bits_eq_concat]
  cases p <;> simp [Pin.code, Pins.get]

theorem regQ_pins_bit (s : State) (p : Pin) : (s.regQ 6).getLsbD p.code.toNat = s.pins.get p := by
  have hcode : p.code.toNat < 6 := by cases p <;> decide
  show (0#25 ++ BitVec.ofBool s.liveLevel ++ s.pins.bits).getLsbD _ = _
  rw [BitVec.getLsbD_append, if_pos hcode, Pins.bits_code]

theorem regQ_pins_level (s : State) : (s.regQ 6).getLsbD 6 = s.liveLevel := by
  show (0#25 ++ BitVec.ofBool s.liveLevel ++ s.pins.bits).getLsbD 6 = _
  rw [BitVec.getLsbD_append, if_neg (by decide)]
  exact BitVec.getLsbD_concat_zero

theorem regQ_pins_lt (s : State) : (s.regQ 6).toNat < 128 := by
  show (0#25 ++ BitVec.ofBool s.liveLevel ++ s.pins.bits).toNat < 2 ^ 7
  rw [BitVec.toNat_append]
  refine Nat.or_lt_two_pow ?_ ?_
  · cases s.liveLevel <;> decide
  · exact Nat.lt_of_lt_of_le s.pins.bits.isLt (by decide)

/-- Settles O59: the rows of R35 one by one, and the two ports of R34 and R36 that are views of one field. -/
theorem statusPortShowsTheRegisters : Obligations.StatusPortShowsTheRegisters := by
  intro s
  exact ⟨s.status_busy, s.status_fault, s.status_lt, BitVec.toNat_setWidth_of_le (by decide),
    BitVec.toNat_setWidth_of_le (by decide), BitVec.toNat_setWidth_of_le (by decide), rfl,
    BitVec.toNat_setWidth_of_le (by decide), regQ_pins_bit s, regQ_pins_level s, regQ_pins_lt s, rfl, fun _ => rfl,
    decide_eq_true_iff⟩

end Sys2Proof.Machine
end

section
/-! The memories outside the engine (spec/20_memory.md): when a step has a meaning at all (R67, R173), what no step writes
(R51, R53), the trace that only grows (R64), the latch of the cascade (R60, R61) and the word `RDAT` returns (R56). -/

namespace Sys2Proof.Machine

/-! ### The steps without a meaning (R67, R173) -/

theorem step_beforeFirstReset {s : State} (hrst : s.hostIn.rst = false) (hseen : s.resetSeen = false) :
    step s = .refused .beforeFirstReset := by
  simp [step, hrst, hseen]

theorem step_textChanged {s : State} (hrst : s.hostIn.rst = false) (hseen : s.resetSeen = true)
    (htext : s.breaksText s.hostIn.txt = true) : step s = .refused .textChangedDuringRender := by
  simp [step, hrst, hseen, htext]

/-- Settles O16: the three tests of `step` one after another; past them the engine always answers (`stepEngine_next`). -/
theorem stepRefusesExactlyWhereTheSpecGivesNoMeaning : Obligations.StepRefusesExactlyWhereTheSpecGivesNoMeaning := by
  intro s
  cases hrst : s.hostIn.rst with
  | true => simp [step_reset hrst]
  | false =>
    cases hseen : s.resetSeen with
    | false => simp [step_beforeFirstReset hrst hseen]
    | true =>
      cases htext : s.breaksText s.hostIn.txt with
      | true => simp [step_textChanged hrst hseen htext]
      | false =>
        obtain ⟨t, ht⟩ := stepEngine_next s.hostIn.cmd s.ready
        simp [step_running hseen hrst htext, ht]

/-! ### What no step writes (R51, R53) -/

/-- The memories outside are those the step began with, but for the host's writes to TXT. -/
theorem step_memories {s t : State} (h : step s = .next t) : t.ee = s.ee ∧ t.eeRef = s.eeRef ∧ t.txt = s.ready.txt := by
  have hready {u : State} (hu : Outside s.ready u) : u.ee = s.ee ∧ u.eeRef = s.eeRef ∧ u.txt = s.ready.txt :=
    ⟨hu.ee, hu.eeRef, hu.txt⟩
  cases step_cases h with
  | reset _ ht => subst ht; exact ⟨rfl, rfl, rfl⟩
  | quiet _ _ ht => subst ht; exact ⟨rfl, rfl, rfl⟩
  | busy _ _ _ ht => subst ht; exact hready s.ready.resume_outside
  | command _ _ _ _ _ _ _ he => exact hready (exec_outside he)
  | fault _ _ _ _ _ _ ht => subst ht; exact ⟨rfl, rfl, rfl⟩

/-- Settles O19 by `step_memories`. -/
theorem noStepWritesTheEeprom : Obligations.NoStepWritesTheEeprom := by
  intro s t h
  obtain ⟨hee, heeRef, -⟩ := step_memories h
  exact ⟨hee, heeRef⟩

/-- Settles O20 by `step_memories`: the inputs taken before the host's writes leave TXT alone. -/
theorem onlyTheHostWritesTheTextMemory : Obligations.OnlyTheHostWritesTheTextMemory := by
  intro s t h
  obtain ⟨-, -, htxt⟩ := step_memories h
  exact htxt

/-! ### The trace only grows (R64)

The log is the trace with the newest event first, so a longer trace is a log that has the old one as its end. -/

theorem perform_log (m : Micro) (s : State) : s.log <:+ (perform m s).log := by
  cases m with
  | drive | settle | sample | result | fetch => exact List.suffix_cons _ _
  | scanTest c idx inRender =>
    obtain ⟨a, code, heq, -⟩ := s.scanTest_eq c idx inRender
    rw [perform, heq]
    exact List.suffix_rfl
  | clearWord | unpack | setTxtptr | metaTest | showCol | nextChar => exact List.suffix_rfl

theorem tick_log (s : State) : s.log <:+ (tick s).log := by
  rw [tick]
  split
  · exact List.suffix_rfl
  · next m rest _ => exact perform_log m { s with todo := rest }

theorem runCode_log (code : List Micro) (s : State) : s.log <:+ (runCode code s).log :=
  runCode_keeps (P := fun u => s.log <:+ u.log) (fun m _ u hu => hu.trans (perform_log m u)) List.suffix_rfl

theorem runTicks_log (n : Nat) (s : State) : s.log <:+ (runTicks n s).log :=
  runTicks_keeps (P := fun u => s.log <:+ u.log) (fun u hu => hu.trans (tick_log u)) n List.suffix_rfl

theorem State.settleSeq_log (s : State) : s.settleSeq.log = s.log := by
  rw [State.settleSeq]
  split <;> rfl

theorem State.resume_log (s : State) : s.log <:+ s.resume.log := by
  rw [State.resume, State.settleSeq_log]
  exact runTicks_log s.budget s

theorem exec_log {i : Instr} {s t : State} (h : exec i s = .next t) : s.log <:+ t.log := by
  rcases exec_codeOf h with ⟨cause, rfl⟩ | ⟨base, rfl⟩ | rfl
  · exact List.suffix_rfl
  · exact State.resume_log (State.accept { s with textBase := base } (codeOf i))
  · exact runCode_log (codeOf i) s

/-- Without reset a step keeps every event it finds in the log. -/
theorem step_log {s t : State} (h : step s = .next t) (hrst : s.hostIn.rst = false) : s.log <:+ t.log := by
  cases step_cases h with
  | reset hr _ => rw [hrst] at hr; nomatch hr
  | quiet _ _ ht => subst ht; exact List.suffix_rfl
  | busy _ _ _ ht => subst ht; exact s.ready.resume_log
  | command _ _ _ _ _ _ _ he => exact exec_log (s := s.ready) he
  | fault _ _ _ _ _ _ ht => subst ht; exact List.suffix_rfl

/-- Settles O21: the new events are those in front of the old log (`step_log`), oldest first. -/
theorem traceOnlyGrows : Obligations.TraceOnlyGrows := by
  intro s t h hrst
  obtain ⟨new, hnew⟩ := step_log h hrst
  exact ⟨new.reverse, by rw [State.trace, State.trace, ← hnew, List.reverse_append]⟩

/-! ### `RDAT` with the reference EEPROM (R56, R57, R103) -/

theorem wireAddr_zext16 (a : EeAddr) : wireAddr (zext16 a) = a := by
  simp [wireAddr, zext16]

@[simp] theorem State.complete_trace (s : State) : s.complete.trace = s.trace := rfl

theorem exec_rdat {s : State} (hl : s.look = none) (a : EeAddr) :
    exec (.rdat a) s = .next (runCode (readWordAtCode (zext16 a)) (s.accept [])).complete := by
  have hn : (readWordAtCode (zext16 a)).length ≤ fullRun := by rw [readWordAtCode_length]; decide
  exact congrArg Host.Outcome.next (State.runCommand_straight_todo (readWordAtCode_straight _) hn hl)

/-- Settles O36: `RDAT` is one `readWordAt` (`exec_rdat`), and the reference EEPROM keeps its contract in it
(`readWordAtCode_ref`) at all nine bits of the address. -/
theorem readWordAtReturnsTheStoredWord : Obligations.ReadWordAtReturnsTheStoredWord := by
  intro a s hl href
  obtain ⟨hword, hdin, hdraws⟩ := readWordAtCode_ref (zext16 a) (s := s.accept []) href
  have htrace := readWordAtCode_trace (zext16 a) (s.accept [])
  rw [wireAddr_zext16] at hword htrace
  rw [hword] at htrace
  refine ⟨_, exec_rdat hl a, ?_⟩
  rw [State.complete_result, State.complete_trace, State.complete_din, State.complete_draws, State.complete_eeprom,
    readWordAtCode_result]
  exact ⟨hword, htrace, hdin, hdraws, readWordAtCode_phase _ _⟩

/-! ### The cascade's outputs (R60, R61, R66) -/

theorem Pins.rises_iff (pins : Pins) (p : Pin) (v : Bool) : pins.rises p v = true ↔ v = true ∧ pins.get p = false := by
  simp [Pins.rises]

/-- A micro-operation that is no drive leaves the outputs alone. -/
theorem perform_out_of_not_drive {m : Micro} (h : ∀ p v, m ≠ .drive p v) (s : State) : (perform m s).out = s.out := by
  cases m with
  | drive p v => exact absurd rfl (h p v)
  | scanTest c idx inRender =>
    obtain ⟨a, code, heq, -⟩ := s.scanTest_eq c idx inRender
    rw [perform, heq]; rfl
  | _ => rfl

/-- A drive that is not the rising edge of `SR_LATCH` leaves the outputs alone. -/
theorem drive_out_of_not_latchEdge {p : Pin} {v : Bool} {s : State}
    (h : ¬ (p = .srLatch ∧ v = true ∧ s.pins.srLatch = false)) : (s.drive p v).out = s.out := by
  refine if_neg fun ⟨hp, hrise⟩ => h ?_
  subst hp
  exact ⟨rfl, (Pins.rises_iff _ _ _).1 hrise⟩

/-- Settles O23: the outputs follow the chain at the latch edge, and neither another drive (`drive_out_of_not_latchEdge`) nor
another micro-operation (`perform_out_of_not_drive`) writes them. -/
theorem outputsChangeOnlyAtTheLatchEdge : Obligations.OutputsChangeOnlyAtTheLatchEdge := by
  intro m s
  constructor
  · rintro ⟨rfl, hlow⟩
    exact if_pos ⟨rfl, (Pins.rises_iff _ _ _).2 ⟨rfl, hlow⟩⟩
  · intro hedge
    cases m with
    | drive p v => exact drive_out_of_not_latchEdge fun ⟨hp, hv, hlow⟩ => hedge ⟨by rw [hp, hv], hlow⟩
    | _ => exact perform_out_of_not_drive (fun _ _ => Micro.noConfusion) s

end Sys2Proof.Machine
end

section
/-! The encoding (spec/30_encoding.md R71 to R76, R85). The decoder is described once by the table of R71: the word of a row
is read as `operandsOf` says (`decode_of_holds`), a word of no row is illegal (`decode_of_no_row`). The encoder is its
inverse because a word is its row's fixed bits and its operand fields (`eq_of_fields`). -/

namespace Sys2Proof

/-! ### Operand codes (R20, R72) -/

theorem Signal.ofCode_code (sig : Signal) : Signal.ofCode sig.code = some sig := by
  rcases sig with p | _
  · cases p <;> rfl
  · rfl

theorem Signal.code_of_ofCode {c : BitVec 3} {sig : Signal} (h : Signal.ofCode c = some sig) : sig.code = c := by
  revert c sig; decide

theorem Hold.ofCode_code (hold : Hold) : Hold.ofCode hold.code = hold := by
  cases hold <;> rfl

theorem Hold.code_ofCode (c : BitVec 2) : (Hold.ofCode c).code = c := by
  revert c; decide

theorem Direction.ofBit_bit (dir : Direction) : Direction.ofBit dir.bit = dir := by
  cases dir <;> rfl

theorem Direction.bit_ofBit (b : Bool) : (Direction.ofBit b).bit = b := by
  cases b <;> rfl

/-! ### The fields of `PIN` (R71) -/

theorem encode_pin_bit (sig : Signal) (level : Bool) (hold : Hold) (i : Nat) :
    (encode (.pin sig level hold)).getLsbD i =
      if i < 3 then sig.code.getLsbD i
      else if i - 3 < 1 then (BitVec.ofBool level).getLsbD (i - 3)
      else if i - 3 - 1 < 2 then hold.code.getLsbD (i - 3 - 1)
      else if i - 3 - 1 - 2 < 22 then (0#22).getLsbD (i - 3 - 1 - 2)
      else (0x1#4).getLsbD (i - 3 - 1 - 2 - 22) := by
  show (0x1#4 ++ 0#22 ++ hold.code ++ BitVec.ofBool level ++ sig.code : BitVec (4 + 22 + 2 + 1 + 3)).getLsbD i = _
  rw [BitVec.getLsbD_append, BitVec.getLsbD_append, BitVec.getLsbD_append, BitVec.getLsbD_append]

theorem encode_pin_sig (sig : Signal) (level : Bool) (hold : Hold) :
    (encode (.pin sig level hold)).extractLsb' 0 3 = sig.code := by
  apply bits_ext; intro i hi; interval_cases i <;> simp [encode_pin_bit, -BitVec.getLsbD_eq_getElem]

theorem encode_pin_level (sig : Signal) (level : Bool) (hold : Hold) : (encode (.pin sig level hold)).getLsbD 3 = level := by
  simp [encode_pin_bit, -BitVec.getLsbD_eq_getElem]

theorem encode_pin_hold (sig : Signal) (level : Bool) (hold : Hold) :
    (encode (.pin sig level hold)).extractLsb' 4 2 = hold.code := by
  apply bits_ext; intro i hi; interval_cases i <;> simp [encode_pin_bit, -BitVec.getLsbD_eq_getElem]

/-- The opcode of a command, `cmd[31:28]` of its word; a wire frame has none (R71). -/
def Instr.opcode : Instr → Nat
  | .pin _ _ _ => 1
  | .start => 2
  | .wbits _ _ => 3
  | .rword => 4
  | .rdat _ => 5
  | .rdrng _ _ => 6
  | .shift _ _ => 7
  | .latch => 8
  | .casc _ _ => 9
  | .find _ => 10
  | .render _ => 11
  | .eeReadFrame _ | .srCascadeFrame _ _ => 0

/-! ### A word by its row and its fields (R71) -/

/-- Two words of one row are equal when their operand fields are, given as first bit and length: mask and fields cover the
word, so no bit is ignored (R76). -/
theorem eq_of_fields {a b mtch mask : CmdWord} (ha : a &&& mask = mtch) (hb : b &&& mask = mtch) (fields : List (Nat × Nat))
    (h : ∀ f ∈ fields, a.extractLsb' f.1 f.2 = b.extractLsb' f.1 f.2)
    (hcover : ∀ i < 32, mask.getLsbD i = true ∨ ∃ f ∈ fields, f.1 ≤ i ∧ i < f.1 + f.2) : a = b := by
  refine bits_ext fun i hi => ?_
  rcases hcover i hi with hmask | ⟨f, hf, hge, hlt⟩
  · rw [bit_of_row ha hmask, bit_of_row hb hmask]
  · have hbit := congrArg (fun v => BitVec.getLsbD v (i - f.1)) (h f hf)
    have hin : i - f.1 < f.2 := by omega
    simpa [BitVec.getLsbD_extractLsb', hin, Nat.add_sub_cancel' hge] using hbit

theorem extract_bit (w : CmdWord) (i : Nat) : w.extractLsb' i 1 = BitVec.ofBool (w.getLsbD i) := by
  refine bits_ext fun j hj => ?_
  obtain rfl : j = 0 := by omega
  simp

/-! ### The two rows with a check of their own (R75, R85) -/

theorem bitCountOk_eq_false_iff {n : BitVec 5} : bitCountOk n = false ↔ n.toNat = 0 ∨ 17 ≤ n.toNat := by
  simp only [bitCountOk, Bool.and_eq_false_iff, decide_eq_false_iff_not]
  omega

theorem decodePin_eq_illegalCmd_iff {w : CmdWord} : decodePin w = .illegalCmd ↔ 6 ≤ (w.extractLsb' 0 3).toNat := by
  have houtput : ∀ c : BitVec 3, (Signal.ofCode c).any Signal.isOutput = decide (c.toNat < 6) := by decide
  have h := houtput (w.extractLsb' 0 3)
  rw [← not_lt, ← decide_eq_true_iff (p := _ < 6), ← h]
  unfold decodePin
  split <;> next hsig => simp [hsig, Signal.isOutput]

theorem decodePin_ne_badBitCount (w : CmdWord) : decodePin w ≠ .badBitCount := by
  unfold decodePin
  split <;> exact Decoded.noConfusion

theorem decodeWbits_eq_badBitCount_iff {w : CmdWord} :
    decodeWbits w = .badBitCount ↔ (w.extractLsb' 16 5).toNat = 0 ∨ 17 ≤ (w.extractLsb' 16 5).toNat := by
  rw [← bitCountOk_eq_false_iff, decodeWbits]
  split <;> simp [*]

theorem decodeWbits_ne_illegalCmd (w : CmdWord) : decodeWbits w ≠ .illegalCmd := by
  unfold decodeWbits
  split <;> exact Decoded.noConfusion

theorem decodePin_encode (p : Pin) (level : Bool) (hold : Hold) :
    decodePin (encode (.pin (.out p) level hold)) = .command (.pin (.out p) level hold) := by
  rw [decodePin, encode_pin_sig, encode_pin_level, encode_pin_hold, Signal.ofCode_code, Hold.ofCode_code]

theorem decodeWbits_encode (value : Word) {bitCount : BitVec 5} (h : bitCountOk bitCount = true) :
    decodeWbits (encode (.wbits value bitCount)) = .command (.wbits value bitCount) := by
  rw [decodeWbits, encode_wbits_count, encode_wbits_value, if_pos h]

/-! ### The readers of a table word (R70, R77, R79) -/

theorem decodeReadFrame_encode (address : EeAddr) :
    decodeReadFrame (BitVec.ofNat 12 (encode (.eeReadFrame address)).toNat) = some (.eeReadFrame address) := by
  rw [ofNat_encode, decodeReadFrame, encode_eeReadFrame_head, encode_eeReadFrame_address]
  exact if_pos (beq_self_eq_true _)

theorem reverse_reverse {n : Nat} (x : BitVec n) : x.reverse.reverse = x := by
  apply BitVec.eq_of_getMsbD_eq
  intro i hi
  rw [BitVec.getMsbD_reverse, BitVec.getLsbD_reverse]

theorem decodeCascadeFrame_encode (byte0 byte1 : Byte) :
    decodeCascadeFrame (BitVec.ofNat 16 (encode (.srCascadeFrame byte0 byte1)).toNat) = .srCascadeFrame byte0 byte1 := by
  rw [ofNat_encode, decodeCascadeFrame, encode_srCascadeFrame_byte0, encode_srCascadeFrame_byte1, reverse_reverse,
    reverse_reverse]

/-- A table word of 32 bits is read by the command decoder (R70; log entry 14). -/
theorem decodeTableWord_command {w : CmdWord} {i : Instr} (h : decode w = .command i) :
    decodeTableWord 32 w.toNat = some i := by
  have hw : BitVec.ofNat 32 (w.toNat % 2 ^ 32) = w := by
    rw [Nat.mod_eq_of_lt w.isLt, BitVec.ofNat_toNat, BitVec.setWidth_eq]
  rw [decodeTableWord]
  · rw [hw, h]
  · decide
  · decide

end Sys2Proof

namespace Sys2Proof.Machine

/-! ### The decoder by rows (R71, R85) -/

/-- The opcode of a row, `cmd[31:28]` of its match (R71). -/
def Row.opcode (r : Row) : Nat := (r.mtch.extractLsb' 28 4).toNat

/-- What the decoder makes of a word that passed the test of the row with opcode `n` (R85 steps 3 to 5). -/
def operandsOf (w : CmdWord) : Nat → Decoded
  | 1 => decodePin w
  | 2 => .command .start
  | 3 => decodeWbits w
  | 4 => .command .rword
  | 5 => .command (.rdat (w.extractLsb' 0 9))
  | 6 => .command (.rdrng (w.extractLsb' 0 9) (w.extractLsb' 16 9))
  | 7 => .command (.shift (w.extractLsb' 0 8) (Direction.ofBit (w.getLsbD 8)))
  | 8 => .command .latch
  | 9 => .command (.casc (w.extractLsb' 0 8) (w.extractLsb' 8 8))
  | 10 => .command (.find (w.extractLsb' 0 8))
  | 11 => .command (.render (w.extractLsb' 0 16))
  | _ => .illegalCmd

/-- A word of a row has the row's opcode: every mask covers the nibble. -/
theorem Row.nibble_of_holds {r : Row} (hr : r ∈ commandRows) {w : CmdWord} (h : r.holds w) :
    (w.extractLsb' 28 4).toNat = r.opcode := by
  have hmask : ∀ r ∈ commandRows, r.mask.extractLsb' 28 4 = 15#4 := by decide
  exact congrArg BitVec.toNat (nibble_of_row h (hmask r hr))

/-- The rows do not overlap (R71). -/
theorem Row.eq_of_holds {r r' : Row} (hr : r ∈ commandRows) (hr' : r' ∈ commandRows) {w : CmdWord} (h : r.holds w)
    (h' : r'.holds w) : r = r' := by
  have hopcode : ∀ r ∈ commandRows, ∀ r' ∈ commandRows, r.opcode = r'.opcode → r = r' := by decide
  exact hopcode r hr r' hr' ((Row.nibble_of_holds hr h).symm.trans (Row.nibble_of_holds hr' h'))

theorem Row.eq_of_mnemonic {r r' : Row} (hr : r ∈ commandRows) (hr' : r' ∈ commandRows)
    (h : r.mnemonic = r'.mnemonic) : r = r' :=
  (by decide : ∀ r ∈ commandRows, ∀ r' ∈ commandRows, r.mnemonic = r'.mnemonic → r = r') r hr r' hr' h

theorem decode_of_holds {r : Row} (hr : r ∈ commandRows) {w : CmdWord} (h : r.holds w) :
    decode w = operandsOf w r.opcode := by
  have hnibble := Row.nibble_of_holds hr h
  simp only [commandRows, List.mem_cons, List.not_mem_nil, or_false] at hr
  unfold decode
  rw [hnibble]
  rcases hr with rfl | rfl | rfl | rfl | rfl | rfl | rfl | rfl | rfl | rfl | rfl <;> exact if_pos (beq_iff_eq.2 h)

theorem decode_of_no_row {w : CmdWord} (h : ∀ r ∈ commandRows, ¬ r.holds w) : decode w = .illegalCmd := by
  have hrow {mtch mask : CmdWord} {d : Decoded} (hr : ∃ r ∈ commandRows, r.mtch = mtch ∧ r.mask = mask) :
      (if rowMatches w mtch mask = true then d else .illegalCmd) = .illegalCmd := by
    obtain ⟨r, hr, rfl, rfl⟩ := hr
    exact if_neg fun hw => h r hr (beq_iff_eq.1 hw)
  unfold decode
  split
  case h_12 => rfl
  all_goals exact hrow (by decide)

/-- The decoder by the table: the row of the word reads it, or there is none. -/
theorem decode_by_row (w : CmdWord) :
    (∃ r ∈ commandRows, r.holds w ∧ decode w = operandsOf w r.opcode) ∨
    ((∀ r ∈ commandRows, ¬ r.holds w) ∧ decode w = .illegalCmd) := by
  by_cases hrow : ∃ r ∈ commandRows, r.holds w
  · obtain ⟨r, hr, hholds⟩ := hrow
    exact .inl ⟨r, hr, hholds, decode_of_holds hr hholds⟩
  · have hnone : ∀ r ∈ commandRows, ¬ r.holds w := fun r hr hholds => hrow ⟨r, hr, hholds⟩
    exact .inr ⟨hnone, decode_of_no_row hnone⟩

/-! ### Decoding an encoding -/

theorem Row.opcode_of_mnemonic {r : Row} (hr : r ∈ commandRows) {i : Instr} (h : r.mnemonic = i.mnemonic) :
    r.opcode = i.opcode := by
  revert r
  cases i <;> simp only [Instr.mnemonic, Instr.opcode] <;> decide

/-- The word of a command lies in the row of its mnemonic (R71). -/
theorem encode_in_its_row (i : Instr) : Laws.InItsRow.Statement i := by
  cases i with
  | pin => exact Laws.InItsRow.pin _ _ _
  | start => exact Laws.InItsRow.start
  | wbits => exact Laws.InItsRow.wbits _ _
  | rword => exact Laws.InItsRow.rword
  | rdat => exact Laws.InItsRow.rdat _
  | rdrng => exact Laws.InItsRow.rdrng _ _
  | shift => exact Laws.InItsRow.shift _ _
  | latch => exact Laws.InItsRow.latch
  | casc => exact Laws.InItsRow.casc _ _
  | find => exact Laws.InItsRow.find _
  | render => exact Laws.InItsRow.render _
  | eeReadFrame => exact Laws.InItsRow.eeReadFrame _
  | srCascadeFrame => exact Laws.InItsRow.srCascadeFrame _ _

/-- The fields of a legal command's word are its operands (R71, R72). -/
theorem operandsOf_encode {i : Instr} (hwf : i.wf = true) (hc : i.isCommand = true) :
    operandsOf (encode i) i.opcode = .command i := by
  cases i with
  | pin sig level hold =>
    cases sig with
    | out p => exact decodePin_encode p level hold
    | eeDin => nomatch hwf
  | wbits value bitCount => exact decodeWbits_encode value hwf
  | rdat address =>
    show Decoded.command (.rdat _) = _
    rw [encode_rdat_address]
  | rdrng first last =>
    show Decoded.command (.rdrng _ _) = _
    rw [encode_rdrng_start, encode_rdrng_end]
  | shift value dir =>
    show Decoded.command (.shift _ _) = _
    rw [encode_shift_value, encode_shift_dir, Direction.ofBit_bit]
  | casc byte0 byte1 =>
    show Decoded.command (.casc _ _) = _
    rw [encode_casc_byte0, encode_casc_byte1]
  | find character =>
    show Decoded.command (.find _) = _
    rw [encode_find_character]
  | render ptr =>
    show Decoded.command (.render _) = _
    rw [encode_render_ptr]
  | start | rword | latch => rfl
  | eeReadFrame | srCascadeFrame => nomatch hc

theorem decode_encode {i : Instr} (hwf : i.wf = true) (hc : i.isCommand = true) : decode (encode i) = .command i := by
  obtain ⟨r, hr, hname, hholds⟩ := (encode_in_its_row i).2 hc
  rw [decode_of_holds hr hholds, Row.opcode_of_mnemonic hr hname, operandsOf_encode hwf hc]

/-- Settles O1: a command's word by `decode_encode`, a frame's bits by the reader of its format (R77, R79). -/
theorem decodeOfEncodeIsTheInstruction : Obligations.DecodeOfEncodeIsTheInstruction := by
  intro i hwf
  have hcommand (hc : i.isCommand = true) : decodeTableWord 32 (encode i).toNat = some i :=
    decodeTableWord_command (decode_encode hwf hc)
  cases i with
  | eeReadFrame address => exact decodeReadFrame_encode address
  | srCascadeFrame byte0 byte1 => exact congrArg some (decodeCascadeFrame_encode byte0 byte1)
  | _ => exact hcommand rfl

/-! ### Which words are rejected (R74, R75) -/

/-- The row of `PIN` (R71). -/
def pinRow : Row := ⟨"PIN", 0x10000000, 0xFFFFFFC0⟩

/-- The row of `WBITS` (R71). -/
def wbitsRow : Row := ⟨"WBITS", 0x30000000, 0xFFE00000⟩

theorem pinRow_mem : pinRow ∈ commandRows := by decide

theorem wbitsRow_mem : wbitsRow ∈ commandRows := by decide

/-- Of the words that pass a row test only those of `PIN` can be illegal (R75). -/
theorem eq_pinRow_of_illegalCmd {r : Row} (hr : r ∈ commandRows) {w : CmdWord}
    (h : operandsOf w r.opcode = .illegalCmd) : r = pinRow ∧ 6 ≤ (w.extractLsb' 0 3).toNat := by
  simp only [commandRows, List.mem_cons, List.not_mem_nil, or_false] at hr
  rcases hr with rfl | rfl | rfl | hr
  · exact ⟨rfl, decodePin_eq_illegalCmd_iff.1 h⟩
  · nomatch h
  · exact absurd h (decodeWbits_ne_illegalCmd w)
  · rcases hr with rfl | rfl | rfl | rfl | rfl | rfl | rfl | rfl <;> nomatch h

/-- Of the words that pass a row test only those of `WBITS` can have a bad bit count (R75). -/
theorem eq_wbitsRow_of_badBitCount {r : Row} (hr : r ∈ commandRows) {w : CmdWord}
    (h : operandsOf w r.opcode = .badBitCount) :
    r = wbitsRow ∧ ((w.extractLsb' 16 5).toNat = 0 ∨ 17 ≤ (w.extractLsb' 16 5).toNat) := by
  simp only [commandRows, List.mem_cons, List.not_mem_nil, or_false] at hr
  rcases hr with rfl | rfl | rfl | hr
  · exact absurd h (decodePin_ne_badBitCount w)
  · nomatch h
  · exact ⟨rfl, decodeWbits_eq_badBitCount_iff.1 h⟩
  · rcases hr with rfl | rfl | rfl | rfl | rfl | rfl | rfl | rfl <;> nomatch h

/-- Settles O4: a word of no row is illegal, and of the rows only that of `PIN` can be (`eq_pinRow_of_illegalCmd`). -/
theorem illegalExactlyWhenNoRowMatches : Obligations.IllegalExactlyWhenNoRowMatches := by
  intro w
  constructor
  · intro h
    rcases decode_by_row w with ⟨r, hr, hholds, hdecode⟩ | ⟨hnone, -⟩
    · obtain ⟨rfl, hsig⟩ := eq_pinRow_of_illegalCmd hr (hdecode.symm.trans h)
      exact .inr ⟨hholds, hsig⟩
    · exact .inl hnone
  · rintro (hnone | ⟨hholds, hsig⟩)
    · exact decode_of_no_row hnone
    · exact (decode_of_holds pinRow_mem hholds).trans (decodePin_eq_illegalCmd_iff.2 hsig)

/-- Settles O5: of the rows only that of `WBITS` can have a bad bit count (`eq_wbitsRow_of_badBitCount`). -/
theorem badBitCountExactlyForWbits : Obligations.BadBitCountExactlyForWbits := by
  intro w
  constructor
  · intro h
    rcases decode_by_row w with ⟨r, hr, hholds, hdecode⟩ | ⟨-, hillegal⟩
    · obtain ⟨rfl, hcount⟩ := eq_wbitsRow_of_badBitCount hr (hdecode.symm.trans h)
      exact ⟨hholds, hcount⟩
    · nomatch hillegal.symm.trans h
  · rintro ⟨hholds, hcount⟩
    exact (decode_of_holds wbitsRow_mem hholds).trans (decodeWbits_eq_badBitCount_iff.2 hcount)

/-! ### Encoding what was decoded (R76) -/

/-- `PIN` of an output: its signal, level and hold are the word's fields (R72). -/
theorem encode_of_decodePin {w : CmdWord} {i : Instr} (hrow : pinRow.holds w) (h : decodePin w = .command i) :
    encode i = w ∧ i.isCommand = true := by
  unfold decodePin at h
  split at h
  · next p hsig =>
    obtain rfl := Decoded.command.inj h
    refine ⟨eq_of_fields (encode_pin_row _ _ _) hrow [(0, 3), (3, 1), (4, 2)] ?_ (by decide), rfl⟩
    simp [extract_bit, encode_pin_sig, encode_pin_level, encode_pin_hold, Signal.code_of_ofCode hsig, Hold.code_ofCode,
      -BitVec.getLsbD_eq_getElem]
  · nomatch h
  · nomatch h

/-- `WBITS` of a legal count: its value and count are the word's fields (R72). -/
theorem encode_of_decodeWbits {w : CmdWord} {i : Instr} (hrow : wbitsRow.holds w) (h : decodeWbits w = .command i) :
    encode i = w ∧ i.isCommand = true := by
  unfold decodeWbits at h
  split at h
  · obtain rfl := Decoded.command.inj h
    refine ⟨eq_of_fields (encode_wbits_row _ _) hrow [(0, 16), (16, 5)] ?_ (by decide), rfl⟩
    simp [encode_wbits_value, encode_wbits_count]
  · nomatch h

/-- The command read from a word of a row is encoded by that word. -/
theorem encode_of_operandsOf {r : Row} (hr : r ∈ commandRows) {w : CmdWord} (hrow : r.holds w) {i : Instr}
    (h : operandsOf w r.opcode = .command i) : encode i = w ∧ i.isCommand = true := by
  have hplain {j : Instr} (hj : Decoded.command j = .command i) (hw : encode j = w) (hc : j.isCommand = true) :
      encode i = w ∧ i.isCommand = true := Decoded.command.inj hj ▸ ⟨hw, hc⟩
  simp only [commandRows, List.mem_cons, List.not_mem_nil, or_false] at hr
  rcases hr with rfl | rfl | rfl | rfl | rfl | rfl | rfl | rfl | rfl | rfl | rfl
  · exact encode_of_decodePin hrow h
  · exact hplain h (eq_of_fields rfl hrow [] (by simp) (by decide)) rfl
  · exact encode_of_decodeWbits hrow h
  · exact hplain h (eq_of_fields rfl hrow [] (by simp) (by decide)) rfl
  · exact hplain h (eq_of_fields (encode_rdat_row _) hrow [(0, 9)] (by simp [encode_rdat_address]) (by decide)) rfl
  · refine hplain h (eq_of_fields (encode_rdrng_row _ _) hrow [(0, 9), (16, 9)] ?_ (by decide)) rfl
    simp [encode_rdrng_start, encode_rdrng_end]
  · refine hplain h (eq_of_fields (encode_shift_row _ _) hrow [(0, 8), (8, 1)] ?_ (by decide)) rfl
    simp [extract_bit, encode_shift_value, encode_shift_dir, Direction.bit_ofBit, -BitVec.getLsbD_eq_getElem]
  · exact hplain h (eq_of_fields rfl hrow [] (by simp) (by decide)) rfl
  · refine hplain h (eq_of_fields (encode_casc_row _ _) hrow [(0, 8), (8, 8)] ?_ (by decide)) rfl
    simp [encode_casc_byte0, encode_casc_byte1]
  · exact hplain h (eq_of_fields (encode_find_row _) hrow [(0, 8)] (by simp [encode_find_character]) (by decide)) rfl
  · exact hplain h (eq_of_fields (encode_render_row _) hrow [(0, 16)] (by simp [encode_render_ptr]) (by decide)) rfl

/-- Settles O2: the word lies in a row, and that row's fields give it back (`encode_of_operandsOf`). -/
theorem encodeOfDecodeIsTheWord : Obligations.EncodeOfDecodeIsTheWord := by
  intro w i h
  rcases decode_by_row w with ⟨r, hr, hholds, hdecode⟩ | ⟨-, hillegal⟩
  · obtain ⟨hw, hc⟩ := encode_of_operandsOf hr hholds (hdecode.symm.trans h)
    exact ⟨hw, decode_wf h, hc⟩
  · nomatch hillegal.symm.trans h

/-- A command's word lies in the row of its mnemonic and in no other. -/
theorem mnemonic_eq_iff_holds {r : Row} (hr : r ∈ commandRows) {w : CmdWord} {i : Instr} (h : decode w = .command i) :
    i.mnemonic = r.mnemonic ↔ r.holds w := by
  obtain ⟨rfl, -, hc⟩ := encodeOfDecodeIsTheWord w i h
  obtain ⟨r', hr', hname, hholds⟩ := (encode_in_its_row i).2 hc
  constructor
  · intro hi
    rwa [Row.eq_of_mnemonic hr hr' (hname.trans hi).symm]
  · intro hrow
    rw [Row.eq_of_holds hr hr' hrow hholds, hname]

/-- Settles O3: the two exclusions are what the decoder rejects in a row (O4, O5), and a command's row is that of its
mnemonic (`mnemonic_eq_iff_holds`). -/
theorem commandExactlyWhenItsRowMatches : Obligations.CommandExactlyWhenItsRowMatches := by
  intro w r hr
  have hillegal := illegalExactlyWhenNoRowMatches w
  have hcount := badBitCountExactlyForWbits w
  constructor
  · rintro ⟨i, hi, hname⟩
    refine ⟨(mnemonic_eq_iff_holds hr hi).1 hname, fun hsig => ?_, fun hbits => ?_⟩
    · nomatch hi.symm.trans (hillegal.2 (.inr hsig))
    · nomatch hi.symm.trans (hcount.2 hbits)
  · rintro ⟨hrow, hsig, hbits⟩
    cases hd : decode w with
    | command i => exact ⟨i, rfl, (mnemonic_eq_iff_holds hr hd).2 hrow⟩
    | illegalCmd => exact ((hillegal.1 hd).elim (fun h => h r hr hrow) hsig).elim
    | badBitCount => exact absurd (hcount.1 hd) hbits

/-! ### The words and texts written out in the spec (R83, R84) -/

/-- Settles O6: twelve words are encodings (`decode_encode`), one has a bad count (O5), three are illegal. -/
theorem specWordsDecodeAsWritten : Obligations.SpecWordsDecodeAsWritten := by
  refine ⟨decode_encode (i := .pin (.out .eeSel) true .short) rfl rfl,
    decode_encode (i := .pin (.out .srLatch) true .latch) rfl rfl, decode_encode (i := .start) rfl rfl,
    decode_encode (i := .wbits 0x8001 16) rfl rfl, decode_encode (i := .rword) rfl rfl,
    decode_encode (i := .rdat 511) rfl rfl, decode_encode (i := .rdrng 30 34) rfl rfl,
    decode_encode (i := .shift 0xB1 .lsb) rfl rfl, decode_encode (i := .latch) rfl rfl,
    decode_encode (i := .casc 0x00 0x80) rfl rfl, decode_encode (i := .find 0x41) rfl rfl,
    decode_encode (i := .render 0xFFFF) rfl rfl, ?_, ?_, ?_, ?_⟩
  · exact (badBitCountExactlyForWbits _).2 ⟨rfl, .inl rfl⟩
  all_goals exact decode_of_no_row (by unfold Row.holds; decide)

/-- Settles O7: the lines are fixed texts, so `assemble` is run on each. -/
theorem specTextsAssembleAsWritten : Obligations.SpecTextsAssembleAsWritten := by
  unfold Obligations.SpecTextsAssembleAsWritten
  decide

end Sys2Proof.Machine
end

section
/-! The issue of a command and its completion (spec/30_encoding.md R75, R80, R81): the step of the idle engine, of the busy one
and of one that is not idle, the two faults before any drive, and looking into a running command (log entry 4). -/

namespace Sys2Proof.Machine

/-! ### Faults before any drive (R75) -/

/-- Settles O27: for `EE_DIN` `execPin` is the fault and no drive. -/
theorem pinOfTheInputTakesIllegalCmd : Obligations.PinOfTheInputTakesIllegalCmd :=
  fun _ _ _ => rfl

theorem exec_wbits_bad (value : Word) {bitCount : BitVec 5} (h : bitCountOk bitCount = false) (s : State) :
    exec (.wbits value bitCount) s = .next (s.raiseFault .badBitCount (encode (.wbits value bitCount))) :=
  if_neg (by simp [h])

/-- Settles O32: such a count is not legal (`bitCountOk_eq_false_iff`), so the fault is raised (`exec_wbits_bad`). -/
theorem writeBitsOfBadCountTakesBadBitCount : Obligations.WriteBitsOfBadCountTakesBadBitCount :=
  fun value _ s hcount => exec_wbits_bad value (bitCountOk_eq_false_iff.2 hcount) s

/-! ### The step (R80, R81) -/

/-- Settles O8: the step is the engine's (`step_running`), which issues the word. -/
theorem stepRunsTheDecodedCommand : Obligations.StepRunsTheDecodedCommand := by
  intro s w i hseen hrst hseq htext hcmd hdecode
  rw [step_running hseen hrst htext, hcmd, stepEngine_issue (s := s.ready) hseq, issue_command hdecode]

theorem State.settleSeq_of_todo_nil {s : State} (h : s.todo = []) : s.settleSeq = s.complete :=
  if_pos (List.isEmpty_iff.2 h)

theorem State.settleSeq_of_todo_ne_nil {s : State} (h : s.todo ≠ []) : s.settleSeq = s :=
  if_neg fun hnil => h (List.isEmpty_iff.1 hnil)

theorem State.complete_completed {s : State} (h : s.todo = []) : Completed s.complete :=
  ⟨rfl, h, rfl, rfl⟩

/-- Settles O9: the idle engine waits, and the busy one runs its ticks and completes when nothing is left. -/
theorem stepWithoutCommandWaitsOrGoesOn : Obligations.StepWithoutCommandWaitsOrGoesOn := by
  intro s hseen hrst htext
  rw [step_running hseen hrst htext]
  constructor
  · intro hseq hcmd
    rw [hcmd, stepEngine_idle (s := s.ready) hseq]
  · intro hseq
    have hrun : (runTicks s.ready.budget s.ready).seq = .busy := (runTicks_frame _ _).seq.trans hseq
    refine ⟨_, stepEngine_busy (s := s.ready) hseq _, fun htodo => ?_, fun htodo => ?_⟩
    · rw [State.resume, State.settleSeq_of_todo_nil (s := runTicks s.ready.budget s.ready) htodo]
      exact ⟨rfl, State.complete_completed htodo⟩
    · rw [State.resume, State.settleSeq_of_todo_ne_nil (s := runTicks s.ready.budget s.ready) htodo]
      exact ⟨rfl, hrun⟩

theorem stepEngine_of_ne_idle {s : State} (h : s.seq ≠ .idle) (c c' : Option CmdWord) :
    stepEngine c s = stepEngine c' s := by
  cases hs : s.seq with
  | idle => exact absurd hs h
  | busy => rw [stepEngine_busy hs, stepEngine_busy hs]
  | halt => rw [stepEngine_halt hs, stepEngine_halt hs]

/-- A step is determined by what it looks at. -/
theorem step_congr {s s' : State} (hrst : s'.hostIn.rst = s.hostIn.rst) (hseen : s'.resetSeen = s.resetSeen)
    (htext : s'.breaksText s'.hostIn.txt = s.breaksText s.hostIn.txt) (hready : s'.takeInput.hostWrites s'.hostIn.txt = s.ready)
    (hengine : stepEngine s'.hostIn.cmd s.ready = stepEngine s.hostIn.cmd s.ready) : step s' = step s := by
  rw [step, hrst, hseen, htext, hready, hengine, step]

/-- Settles O10: the presented word is no part of the state the engine works on, and an engine that is not idle does not look
at it (`stepEngine_of_ne_idle`). -/
theorem wordPresentedWhileNotIdleHasNoEffect : Obligations.WordPresentedWhileNotIdleHasNoEffect := by
  intro s h rest c hseq hhost
  cases s
  cases hhost
  refine step_congr rfl rfl rfl rfl (stepEngine_of_ne_idle ?_ c h.cmd)
  exact hseq

/-! ### Looking into a running command (log entry 4) -/

theorem perform_withLook (m : Micro) (s : State) (l : Option Nat) :
    perform m { s with look := l } = { perform m s with look := l } := by
  cases m with
  | scanTest c idx inRender =>
    simp only [perform, State.scanTest]
    split
    · rfl
    · split <;> rfl
  | _ => rfl

theorem tick_withLook (s : State) (l : Option Nat) : tick { s with look := l } = { tick s with look := l } := by
  cases h : s.todo with
  | nil => simp only [tick, h]
  | cons m rest =>
    simp only [tick, h]
    exact perform_withLook m { s with todo := rest } l

/-- How far a step runs is not seen by the micro-operations. -/
theorem runTicks_withLook (n : Nat) (s : State) (l : Option Nat) :
    runTicks n { s with look := l } = { runTicks n s with look := l } := by
  induction n generalizing s with
  | zero => rfl
  | succ n ih =>
    rw [runTicks, runTicks]
    split
    · rfl
    · rw [tick_withLook, ih]

/-- A command that is done stays as it is, however far the step still runs. -/
theorem runTicks_extend {n : Nat} {s : State} (h : (runTicks n s).todo = []) (k : Nat) :
    runTicks (k + n) s = runTicks n s := by
  rw [Nat.add_comm, runTicks_add, runTicks_done h]

theorem resume_seq_idle {s : State} (hseq : s.seq = .busy) (h : s.resume.seq = .idle) :
    (runTicks s.budget s).todo = [] := by
  by_contra htodo
  rw [State.resume, State.settleSeq_of_todo_ne_nil htodo, (runTicks_frame _ s).seq, hseq] at h
  nomatch h

theorem resume_seq_busy {s : State} (h : s.resume.seq = .busy) : s.resume = runTicks s.budget s := by
  refine State.settleSeq_of_todo_ne_nil fun htodo => ?_
  rw [State.resume, State.settleSeq_of_todo_nil htodo] at h
  nomatch h

/-- The law of looking in, for a running command: `n` micro-operations and then the rest are the rest. -/
theorem resume_of_look {s : State} (hl : s.look = none) (hseq : s.seq = .busy) (hdone : s.resume.seq = .idle) (n : Nat)
    (hlook : (State.resume { s with look := some n }).seq = .busy) :
    State.resume { State.resume { s with look := some n } with look := none } = s.resume := by
  have hbudget : s.budget = fullRun := State.budget_full hl
  have htodo : (runTicks fullRun s).todo = [] := hbudget ▸ resume_seq_idle hseq hdone
  have hstop : State.resume { s with look := some n } = { runTicks n s with look := some n } :=
    (resume_seq_busy hlook).trans (runTicks_withLook n s _)
  have hback : { runTicks n s with look := none } = runTicks n s := by
    rw [← hl, ← (runTicks_frame n s).look]
  rw [hstop]
  show State.resume { runTicks n s with look := none } = s.resume
  rw [hback, State.resume, State.resume, State.budget, (runTicks_frame n s).look, hl, hbudget]
  show (runTicks fullRun (runTicks n s)).settleSeq = _
  rw [← runTicks_add, runTicks_extend htodo]

/-- How an instruction comes out, in every state alike: its fault, its pseudocode as a command, with the text it holds, or
its pseudocode as a frame. -/
theorem exec_form (i : Instr) : (∃ cause, ∀ s, exec i s = .next (s.raiseFault cause (encode i))) ∨
    (∃ base : Option TxtAddr, ∀ s, exec i s = .next (({ s with textBase := base <|> s.textBase }).runCommand (codeOf i))) ∨
    ∀ s, exec i s = .next (runCode (codeOf i) s) := by
  cases i with
  | pin sig level hold =>
    cases sig with
    | out p => exact .inr (.inl ⟨none, fun _ => rfl⟩)
    | eeDin => exact .inl ⟨.illegalCmd, fun _ => rfl⟩
  | wbits value bitCount =>
    cases hcount : bitCountOk bitCount with
    | true => exact .inr (.inl ⟨none, fun _ => if_pos hcount⟩)
    | false => exact .inl ⟨.badBitCount, exec_wbits_bad value hcount⟩
  | render ptr => exact .inr (.inl ⟨some ptr, fun _ => rfl⟩)
  | eeReadFrame | srCascadeFrame => exact .inr (.inr fun _ => rfl)
  | _ => exact .inr (.inl ⟨none, fun _ => rfl⟩)

/-- Settles O25: only a command can be stopped inside (`exec_form`), and for a command it is `resume_of_look`. -/
theorem lookingInDoesNotChangeTheOutcome : Obligations.LookingInDoesNotChangeTheOutcome := by
  intro i s t u n hl ht hidle hu hbusy
  rcases exec_form i with ⟨cause, hexec⟩ | ⟨base, hexec⟩ | hexec
  · rw [hexec] at ht
    injection ht with ht
    subst ht
    nomatch hidle
  · rw [hexec] at ht hu
    injection ht with ht
    injection hu with hu
    subst ht hu
    exact resume_of_look (s := State.accept { s with textBase := base <|> s.textBase } (codeOf i)) hl rfl hidle n hbusy
  · rw [hexec] at ht hu
    injection ht with ht
    injection hu with hu
    subst ht hu
    rw [(runCode_frame _ _).seq] at hidle hbusy
    nomatch hidle.symm.trans hbusy

end Sys2Proof.Machine
end

section
/-! The wire formats (spec/30_encoding.md R77, R78, R79): what the two frames and the received word leave in the state, and
the levels at the rising edges of the clock. A bit is sent on either bus by the same three writes (`clocked`). -/

namespace Sys2Proof.Machine

/-! ### The received word and the two frames in the state -/

/-- A command on the EEPROM's bus touches nothing else, accepted and completed (R38). -/
theorem command_onlyEepromBus {code : List Micro} (h : code.all Micro.eeBus = true) (s : State) :
    OnlyEepromBus s (runCode code (s.accept [])).complete := by
  have haccept : OnlyEepromBus s (s.accept []) := by constructor <;> rfl
  have hcomplete (t : State) : OnlyEepromBus t t.complete := by constructor <;> rfl
  exact haccept.trans ((runCode_onlyEepromBus h _).trans (hcomplete _))

/-- Settles O33: `RWORD` is one `readWord`, whose trace and pins are `readWordCode_trace` and `readWordCode_pins`. -/
theorem readWordAssemblesItsSamples : Obligations.ReadWordAssemblesItsSamples := by
  intro s hl
  obtain ⟨hclk, hsel, hdout⟩ := readWordCode_pins (s.accept [])
  have htrace := readWordCode_trace (s.accept [])
  have htodo : (runCode readWordCode (s.accept [])).todo = [] := runCode_todo readWordCode_straight _
  refine ⟨_, readValue (s.accept []), exec_rword hl, State.complete_completed htodo, ?_⟩
  rw [State.complete_result, State.complete_trace, State.complete_pins, readWordCode_result]
  exact ⟨rfl, htrace, hclk, hsel, hdout, command_onlyEepromBus readWordCode_eeBus s⟩

/-- Settles O39: the frame's laws (`readFrameCode_trace`, `readFrameCode_eeprom`) at all nine bits of the address. -/
theorem readFrameAddressesTheWord : Obligations.ReadFrameAddressesTheWord := by
  intro a s
  have htrace := readFrameCode_trace (zext16 a) s
  have hselected := readFrameCode_selected (zext16 a) s
  obtain ⟨hresult, hwork, hdin, hdraws⟩ := readFrameCode_keeps (zext16 a) s
  obtain ⟨sh, hdevice⟩ := readFrameCode_eeprom (zext16 a) s
  have hcontrol := runCode_sameControl (readFrameCode_straight (zext16 a)) s
  rw [wireAddr_zext16] at htrace hdevice
  refine ⟨_, rfl, htrace, hselected.sel, hselected.clk, readFrameCode_dout _ s, hresult, hwork, hdin, hdraws,
    runCode_onlyEepromBus (readFrameCode_eeBus _) s, ?_, ?_, ?_, hcontrol.seq, hcontrol.todo, hcontrol.done,
    hcontrol.textBase⟩ <;> rw [hdevice]

/-- Settles O46: the laws of `writeCascade`, which the frame is (`cascadeCode_trace`, `cascadeCode_chain`). -/
theorem cascadeFrameCommitsItsBytes : Obligations.CascadeFrameCommitsItsBytes := by
  intro b0 b1 s
  obtain ⟨hclk, hdata, hlatch⟩ := cascadeCode_pins b0 b1 s
  have hcontrol := runCode_sameControl (cascadeCode_straight b0 b1) s
  exact ⟨_, rfl, cascadeCode_trace b0 b1 s, hdata, hclk, hlatch, runCode_onlyCascadeBus (cascadeCode_srBus b0 b1) s,
    cascadeCode_chain b0 b1, hcontrol.seq, hcontrol.todo, hcontrol.done, hcontrol.textBase⟩

/-! ### Levels at the edges of a clock -/

/-- The pin writes that send `bits` on `data`, each bit with one pulse of `clk` (R101, R120). -/
def clocked (data clk : Pin) (bits : List Bool) : List (Pin × Bool) :=
  bits.flatMap fun b => [(data, b), (clk, true), (clk, false)]

theorem Pins.setAll_append (p : Pins) (a b : List (Pin × Bool)) : p.setAll (a ++ b) = (p.setAll a).setAll b :=
  List.foldl_append

/-- Without a write of the clock there is no edge. -/
theorem edgeBits_eq_nil {clk : Pin} (obs : Pin) {ds : List (Pin × Bool)} (h : ∀ d ∈ ds, d.1 ≠ clk) (p : Pins) :
    edgeBits clk obs p ds = [] := by
  induction ds generalizing p with
  | nil => rfl
  | cons d ds ih =>
    obtain ⟨hd, hds⟩ := List.forall_mem_cons.1 h
    rw [edgeBits, ih hds, if_neg fun hedge => hd hedge.1]
    rfl

/-- The level of the line `obs` while `b` is on the line `data`, the other lines as in `p`. -/
def lineLevel (obs data : Pin) (p : Pins) (b : Bool) : Bool := (p.set data b).get obs

/-- One bit: an edge when the clock was low. -/
theorem edgeBits_clockedBit {obs data clk : Pin} (hdata : data ≠ clk) (hobs : obs ≠ clk) (b : Bool) (p : Pins) :
    edgeBits clk obs p [(data, b), (clk, true), (clk, false)] =
      if p.get clk = false then [lineLevel obs data p b] else [] := by
  simp [edgeBits, Pins.rises, Pins.get_set, lineLevel, hdata, hdata.symm, hobs]

/-- Sending bits moves no line but `data` and `clk`, and leaves the clock low once there was a bit. -/
theorem get_setAll_clocked {sig data : Pin} (hsig : sig ≠ data) (clk : Pin) (bits : List Bool) (p : Pins) :
    (p.setAll (clocked data clk bits)).get sig = if sig = clk ∧ bits ≠ [] then false else p.get sig := by
  induction bits generalizing p with
  | nil => simp [clocked, Pins.setAll]
  | cons b bits ih =>
    show ((p.setAll [(data, b), (clk, true), (clk, false)]).setAll (clocked data clk bits)).get sig = _
    rw [ih]
    by_cases hclk : sig = clk <;> simp [Pins.setAll, Pins.get_set, hclk, hsig]

/-- The data line keeps the last bit. -/
theorem get_setAll_clocked_concat {data clk : Pin} (h : data ≠ clk) (bits : List Bool) (b : Bool) (p : Pins) :
    (p.setAll (clocked data clk (bits ++ [b]))).get data = b := by
  rw [clocked, List.flatMap_append, Pins.setAll_append]
  simp [Pins.setAll, Pins.get_set, h]

/-- Bits sent make an edge each, but the first only when the clock was low; else it is lost (R180). -/
theorem edgeBits_clocked_cons {obs data clk : Pin} (hdata : data ≠ clk) (hobs : obs ≠ clk) (b : Bool) (bits : List Bool)
    (p : Pins) : edgeBits clk obs p (clocked data clk (b :: bits)) =
      (if p.get clk = false then [lineLevel obs data p b] else []) ++ bits.map (lineLevel obs data p) := by
  induction bits generalizing b p with
  | nil => exact (edgeBits_clockedBit hdata hobs b p).trans (List.append_nil _).symm
  | cons b' bits ih =>
    have hlow : (p.setAll [(data, b), (clk, true), (clk, false)]).get clk = false := Pins.get_set_self _ _ _
    have hlevel : lineLevel obs data (p.setAll [(data, b), (clk, true), (clk, false)]) = lineLevel obs data p := by
      funext b''
      by_cases hobs' : obs = data <;> simp [lineLevel, Pins.setAll, Pins.get_set, hobs, hobs']
    show edgeBits clk obs p ([(data, b), (clk, true), (clk, false)] ++ clocked data clk (b' :: bits)) = _
    rw [edgeBits_append, edgeBits_clockedBit hdata hobs, ih, if_pos hlow, hlevel]
    rfl

theorem edgeBits_clocked {obs data clk : Pin} (hdata : data ≠ clk) (hobs : obs ≠ clk) (bits : List Bool) {p : Pins}
    (hp : p.get clk = false) : edgeBits clk obs p (clocked data clk bits) = bits.map (lineLevel obs data p) := by
  cases bits with
  | nil => rfl
  | cons b bits => rw [edgeBits_clocked_cons hdata hobs, if_pos hp]; rfl

/-- The data line has the bit. -/
theorem lineLevel_data (data : Pin) (p : Pins) : lineLevel data data p = id :=
  funext fun b => Pins.get_set_self p data b

/-- Any other line has its level. -/
theorem lineLevel_of_ne {obs data : Pin} (h : obs ≠ data) (p : Pins) (b : Bool) : lineLevel obs data p b = p.get obs :=
  (Pins.get_set p data obs b).trans (if_neg h)

/-- The bits of one bus are no edge of a clock of the other. -/
theorem edgeBits_clocked_other {clk' data clk : Pin} (hdata : clk' ≠ data) (hclk : clk' ≠ clk) (obs : Pin)
    (bits : List Bool) (p : Pins) : edgeBits clk' obs p (clocked data clk bits) = [] := by
  refine edgeBits_eq_nil obs (fun d hd => ?_) p
  obtain ⟨b, -, hd⟩ := List.mem_flatMap.1 hd
  simp only [List.mem_cons, List.not_mem_nil, or_false] at hd
  rcases hd with rfl | rfl | rfl
  · exact hdata.symm
  · exact hclk.symm
  · exact hclk.symm

/-! ### The cascade frame (R79) -/

theorem drivesOf_flatMap {α : Type} (f : α → List Event) (l : List α) :
    drivesOf (l.flatMap f) = l.flatMap fun a => drivesOf (f a) := by
  simp [drivesOf, List.filterMap_flatMap]

theorem drivesOf_shiftTrace (bits : List Bool) : drivesOf (shiftTrace bits) = clocked .srData .srClk bits := by
  rw [shiftTrace, drivesOf_flatMap]
  rfl

theorem shiftTrace_append (a b : List Bool) : shiftTrace (a ++ b) = shiftTrace a ++ shiftTrace b :=
  List.flatMap_append

/-- The latch pulse makes an edge when its line was low (R121). -/
theorem edgeBits_latchTrace {obs : Pin} (hobs : obs ≠ .srLatch) (p : Pins) :
    edgeBits .srLatch obs p (drivesOf latchTrace) = if p.srLatch = false then [p.get obs] else [] := by
  have hlevel : (p.set .srLatch true).get obs = p.get obs := (Pins.get_set p _ _ _).trans (if_neg hobs)
  show edgeBits .srLatch obs p [(.srLatch, true), (.srLatch, false)] = _
  simp only [edgeBits, hlevel, Pins.rises_iff]
  simp [Pins.get]

/-- Settles O47: the sixteen bits are `clocked` on `SR_DATA`, then the latch is one pulse; each clock is silent in the part
of the other. -/
theorem cascadeFrameBitsOnTheWire : Obligations.CascadeFrameBitsOnTheWire := by
  intro b0 b1 s
  have htrace := cascadeCode_trace b0 b1 s
  rw [cascadeTrace, ← shiftTrace_append] at htrace
  refine ⟨_, _, rfl, htrace, rfl, ?_, ?_⟩
  · have hlatch (p : Pins) : edgeBits .srClk .srData p (drivesOf latchTrace) = [] := edgeBits_eq_nil _ (by decide) p
    have hbits : lsbFirst b1 ++ lsbFirst b0 = b1.getLsbD 0 :: (lsbFirst b1 ++ lsbFirst b0).tail := rfl
    rw [drivesOf_append, drivesOf_shiftTrace, edgeBits_append, hlatch, List.append_nil, hbits,
      edgeBits_clocked_cons (by decide) (by decide), lineLevel_data, List.map_id]
    show (if s.pins.srClk = false then _ else _) ++ _ = if s.pins.srClk = false then _ else _
    split <;> rfl
  · have hdata : (s.pins.setAll (clocked .srData .srClk (lsbFirst b1 ++ lsbFirst b0))).get .srData = b0.getLsbD 7 :=
      get_setAll_clocked_concat (by decide) (lsbFirst b1 ++ lsbFirst b0).dropLast _ s.pins
    have hlatch : (s.pins.setAll (clocked .srData .srClk (lsbFirst b1 ++ lsbFirst b0))).srLatch = s.pins.srLatch :=
      get_setAll_clocked (sig := .srLatch) (by decide) .srClk _ s.pins
    rw [drivesOf_append, drivesOf_shiftTrace, edgeBits_append, edgeBits_clocked_other (by decide) (by decide),
      edgeBits_latchTrace (by decide), hdata, hlatch]
    rfl

/-! ### The READ frame (R77) -/

theorem drivesOf_sendTrace (bits : List Bool) :
    drivesOf (sendTrace bits) = clocked .eeDout .eeClk bits ++ [(.eeDout, false)] := by
  rw [sendTrace, drivesOf_append, drivesOf_flatMap]
  rfl

/-- `writeBits` with the clock low on entry makes an edge for each bit. -/
theorem edgeBits_sendTrace {obs : Pin} (hobs : obs ≠ .eeClk) (bits : List Bool) {p : Pins} (hp : p.eeClk = false) :
    edgeBits .eeClk obs p (drivesOf (sendTrace bits)) = bits.map (lineLevel obs .eeDout p) := by
  rw [drivesOf_sendTrace, edgeBits_append, edgeBits_clocked (by decide) hobs bits hp, edgeBits_eq_nil _ (by decide),
    List.append_nil]

/-- `writeBits` moves no line but its own, and leaves a low clock low. -/
theorem setAll_sendTrace (bits : List Bool) {p : Pins} (hp : p.eeClk = false) :
    (p.setAll (drivesOf (sendTrace bits))).eeClk = false ∧ (p.setAll (drivesOf (sendTrace bits))).eeSel = p.eeSel := by
  rw [drivesOf_sendTrace, Pins.setAll_append]
  have hclk := get_setAll_clocked (sig := .eeClk) (data := .eeDout) (by decide) .eeClk bits p
  have hsel := get_setAll_clocked (sig := .eeSel) (data := .eeDout) (by decide) .eeClk bits p
  exact ⟨hclk.trans (by simp [Pins.get, hp]), hsel⟩

/-- The start condition, from any levels (R100): one edge, with the device selected and the data line high. -/
theorem edgeBits_startTrace (p : Pins) : edgeBits .eeClk .eeDout p (drivesOf startTrace) = [true] ∧
    edgeBits .eeClk .eeSel p (drivesOf startTrace) = [true] := ⟨rfl, rfl⟩

/-- The READ frame, from any levels: the start bit, the opcode, the nine address bits, the device selected (R77). -/
theorem edgeBits_frameTrace (a : EeAddr) (p : Pins) :
    edgeBits .eeClk .eeDout p (drivesOf (frameTrace a)) = [true] ++
      [Config.config.readOpcode.getLsbD 1, Config.config.readOpcode.getLsbD 0] ++ msbBits (zext16 a) 9 ∧
    edgeBits .eeClk .eeSel p (drivesOf (frameTrace a)) = List.replicate 12 true := by
  obtain ⟨hdata, hselect⟩ := edgeBits_startTrace p
  have hlow : (p.setAll (drivesOf startTrace)).eeClk = false := rfl
  have hsel : (p.setAll (drivesOf startTrace)).eeSel = true := rfl
  obtain ⟨hlow', hsel'⟩ :=
    setAll_sendTrace [Config.config.readOpcode.getLsbD 1, Config.config.readOpcode.getLsbD 0] hlow
  rw [frameTrace, drivesOf_append, drivesOf_append]
  simp only [edgeBits_append, Pins.setAll_append]
  constructor
  · rw [hdata, edgeBits_sendTrace (by decide) _ hlow, edgeBits_sendTrace (by decide) _ hlow', lineLevel_data, lineLevel_data,
      List.map_id, List.map_id]
  · rw [hselect, edgeBits_sendTrace (by decide) _ hlow, edgeBits_sendTrace (by decide) _ hlow']
    simp only [funext (lineLevel_of_ne (show Pin.eeSel ≠ .eeDout by decide) _), Pins.get, hsel', hsel]
    rfl

/-- Settles O40: the frame's trace is `frameTrace` (`readFrameCode_trace`), whose edges are `edgeBits_frameTrace`. -/
theorem readFrameBitsOnTheWire : Obligations.ReadFrameBitsOnTheWire := by
  refine ⟨rfl, fun a s => ?_⟩
  have htrace := readFrameCode_trace (zext16 a) s
  rw [wireAddr_zext16] at htrace
  obtain ⟨hdata, hsel⟩ := edgeBits_frameTrace a s.pins
  refine ⟨_, _, rfl, htrace, hdata.trans ?_, hsel⟩
  rw [msbBits_nine]
  simp [zext16]

end Sys2Proof.Machine
end

section
/-! The statements about `PIN` (spec/40_bit_io.md): what one `PIN` does (R90), and that its sequences reproduce every operation
that drives only pins (R94). A command of straight pseudocode is `runCode` of it with the control state closed
(`State.runCommand_closed`), and so is a sequence of `PIN` commands (`execAll_pins`): it remains to give the sequences. -/

namespace Sys2Proof.Machine

/-! ### One `PIN` (R90) -/

/-- The events of `PIN` (R90). -/
def pinTrace (p : Pin) (v : Bool) (hold : Hold) : List Event := .drive p v :: (holdDuration hold).toList.map .settle

theorem pinCode_trace (p : Pin) (v : Bool) (hold : Hold) (s : State) :
    (runCode (pinCode p v hold) s).trace = s.trace ++ pinTrace p v hold := by
  rw [runCode_pinCode]
  cases hold <;> simp [State.trace, pinTrace, holdDuration]

/-- `PIN` sets its pin and leaves RESULT and the sampling alone. -/
theorem pinCode_fields (p : Pin) (v : Bool) (hold : Hold) (s : State) :
    (runCode (pinCode p v hold) s).pins = s.pins.set p v ∧ (runCode (pinCode p v hold) s).result = s.result ∧
    (runCode (pinCode p v hold) s).work = s.work ∧ (runCode (pinCode p v hold) s).din = s.din ∧
    (runCode (pinCode p v hold) s).draws = s.draws := by
  rw [runCode_pinCode]
  exact ⟨rfl, rfl, rfl, rfl, rfl⟩

/-- What holds of the drive and of every settle holds of all the pseudocode of `PIN`. -/
theorem pinCode_all {f : Micro → Bool} {p : Pin} {v : Bool} (hdrive : f (.drive p v) = true)
    (hsettle : ∀ d, f (.settle d) = true) (hold : Hold) : (pinCode p v hold).all f = true := by
  simp [pinCode, hdrive, hsettle]

/-- A command on the cascade's bus touches nothing else, accepted and completed (R38). -/
theorem command_onlyCascadeBus {code : List Micro} (h : code.all Micro.srBus = true) (s : State) :
    OnlyCascadeBus s (runCode code (s.accept [])).complete := by
  have haccept : OnlyCascadeBus s (s.accept []) := by constructor <;> rfl
  have hcomplete (t : State) : OnlyCascadeBus t t.complete := by constructor <;> rfl
  exact haccept.trans ((runCode_onlyCascadeBus h _).trans (hcomplete _))

/-- Settles O26: the fields are those of the drive (`pinCode_fields`), the frame that of the bus the pin is on. -/
theorem pinDrivesItsSignal : Obligations.PinDrivesItsSignal := by
  intro p v hold s hl
  have htodo : (runCode (pinCode p v hold) (s.accept [])).todo = [] := runCode_todo (pinCode_straight p v hold) _
  have htrace := pinCode_trace p v hold (s.accept [])
  obtain ⟨hpins, hresult, hwork, hdin, hdraws⟩ := pinCode_fields p v hold (s.accept [])
  have heeBus (hp : p = .eeSel ∨ p = .eeClk ∨ p = .eeDout) : (pinCode p v hold).all Micro.eeBus = true := by
    rcases hp with rfl | rfl | rfl <;> exact pinCode_all rfl (fun _ => rfl) hold
  have hsrBus (hp : p = .srClk ∨ p = .srData ∨ p = .srLatch) : (pinCode p v hold).all Micro.srBus = true := by
    rcases hp with rfl | rfl | rfl <;> exact pinCode_all rfl (fun _ => rfl) hold
  refine ⟨_, exec_pin_out hl p v hold, State.complete_completed htodo, ?_, hpins, hresult, hwork, hdin, hdraws,
    fun hp => command_onlyEepromBus (heeBus hp) s, fun hp => command_onlyCascadeBus (hsrBus hp) s⟩
  rw [State.complete_trace, htrace]
  cases hold <;> rfl

/-! ### A command of straight pseudocode, from the state itself -/

/-- The control state that acceptance and completion leave, with nothing done in between (R80, R81). -/
def State.closed (s : State) : State := (s.accept []).complete

@[simp] theorem State.closed_look (s : State) : s.closed.look = s.look := rfl

@[simp] theorem State.closed_trace (s : State) : s.closed.trace = s.trace := rfl

@[simp] theorem State.closed_closed (s : State) : s.closed.closed = s.closed := rfl

theorem State.complete_eq_closed {s : State} (h : s.todo = []) : s.complete = s.closed := by
  cases s
  cases h
  rfl

theorem perform_closed {m : Micro} (h : m.straight = true) (s : State) : perform m s.closed = (perform m s).closed := by
  cases m with
  | fetch | scanTest c idx inRender | metaTest addr | showCol slot | nextChar => nomatch h
  | _ => rfl

/-- Straight pseudocode does not look at the control state. -/
theorem runCode_closed {code : List Micro} (h : Straight code) (s : State) :
    runCode code s.closed = (runCode code s).closed := by
  induction code generalizing s with
  | nil => rfl
  | cons m code ih =>
    simp only [Straight, List.all_cons, Bool.and_eq_true] at h
    rw [runCode_cons, perform_closed h.1, ih h.2, runCode_cons]

/-- A command of straight pseudocode is its pseudocode, run from the state itself, and completion. -/
theorem State.runCommand_closed {s : State} {code : List Micro} (hc : Straight code) (hn : code.length ≤ fullRun)
    (hl : s.look = none) : s.runCommand code = (runCode code s).closed :=
  calc s.runCommand code = (runCode code (s.accept [])).complete := State.runCommand_straight_todo hc hn hl
    _ = (runCode code (s.accept [])).closed := State.complete_eq_closed (runCode_todo hc _)
    _ = runCode code s.closed := (runCode_closed hc (s.accept [])).symm
    _ = (runCode code s).closed := runCode_closed hc s

/-! ### Sequences of `PIN` commands -/

/-- The operands of a `PIN` of an output: the pin, its level, its hold (R90). -/
abbrev PinArgs := Pin × Bool × Hold

/-- The `PIN` command of its operands. -/
def PinArgs.instr (a : PinArgs) : Instr := .pin (.out a.1) a.2.1 a.2.2

/-- The pseudocode of a sequence of `PIN` commands. -/
def pinsCode (ps : List PinArgs) : List Micro := ps.flatMap fun a => pinCode a.1 a.2.1 a.2.2

theorem pinsCode_append (ps qs : List PinArgs) : pinsCode (ps ++ qs) = pinsCode ps ++ pinsCode qs := List.flatMap_append

theorem pinsCode_flatMap {α : Type} (l : List α) (f : α → List PinArgs) :
    pinsCode (l.flatMap f) = l.flatMap fun a => pinsCode (f a) := List.flatMap_assoc

theorem pinsCode_straight (ps : List PinArgs) : Straight (pinsCode ps) :=
  straight_flatMap fun a _ => pinCode_straight a.1 a.2.1 a.2.2

theorem runCode_pinsCode_cons (a : PinArgs) (ps : List PinArgs) (s : State) :
    runCode (pinsCode (a :: ps)) s = runCode (pinsCode ps) (runCode (pinCode a.1 a.2.1 a.2.2) s) := runCode_append _ _ s

theorem exec_instr {s : State} (hl : s.look = none) (a : PinArgs) :
    exec a.instr s = .next (runCode (pinCode a.1 a.2.1 a.2.2) s).closed :=
  congrArg Host.Outcome.next (State.runCommand_closed (pinCode_straight _ _ _) ((pinCode_length _ _ _).trans (by decide)) hl)

theorem runCode_pinCode_look (p : Pin) (v : Bool) (hold : Hold) (s : State) :
    (runCode (pinCode p v hold) s).look = s.look := by
  rw [runCode_pinCode]
  rfl

theorem execAll_cons_instr {s : State} (hl : s.look = none) (a : PinArgs) (ps : List PinArgs) :
    execAll ((a :: ps).map PinArgs.instr) s =
      execAll (ps.map PinArgs.instr) (runCode (pinCode a.1 a.2.1 a.2.2) s).closed := by
  rw [List.map_cons, execAll, exec_instr hl]

/-- A sequence of `PIN` commands from a state that a command left is its pseudocode, run at a stretch. -/
theorem execAll_closed (ps : List PinArgs) {s : State} (hl : s.look = none) :
    execAll (ps.map PinArgs.instr) s.closed = .next (runCode (pinsCode ps) s).closed := by
  induction ps generalizing s with
  | nil => rfl
  | cons a ps ih =>
    have hl' : (runCode (pinCode a.1 a.2.1 a.2.2) s).look = none := (runCode_pinCode_look _ _ _ s).trans hl
    rw [execAll_cons_instr (s := s.closed) hl, runCode_closed (pinCode_straight _ _ _), State.closed_closed, ih hl',
      runCode_pinsCode_cons]

/-- The same from any state, when the sequence is not empty. -/
theorem execAll_pins {ps : List PinArgs} (hne : ps ≠ []) {s : State} (hl : s.look = none) :
    execAll (ps.map PinArgs.instr) s = .next (runCode (pinsCode ps) s).closed := by
  obtain ⟨a, rest, rfl⟩ := List.exists_cons_of_ne_nil hne
  calc execAll ((a :: rest).map PinArgs.instr) s = execAll ((a :: rest).map PinArgs.instr) s.closed := by
        rw [execAll_cons_instr hl, execAll_cons_instr (s := s.closed) hl, runCode_closed (pinCode_straight _ _ _),
          State.closed_closed]
    _ = _ := execAll_closed (a :: rest) hl

/-! ### The sequences of the composite operations (R94) -/

/-- `START` as `PIN` commands (R100). -/
def startPins : List PinArgs :=
  [(.eeSel, false, .none), (.eeClk, false, .none), (.eeDout, false, .short), (.eeSel, true, .short), (.eeDout, true, .short),
   (.eeClk, true, .short), (.eeClk, false, .none)]

/-- One bit of `WBITS` as `PIN` commands (R101). -/
def sendPins (b : Bool) : List PinArgs := [(.eeDout, b, .short), (.eeClk, true, .short), (.eeClk, false, .none)]

/-- `WBITS` as `PIN` commands (R101). -/
def writePins (v : Word) (n : Nat) : List PinArgs := (msbBits v n).flatMap sendPins ++ [(.eeDout, false, .none)]

/-- One bit of `SHIFT` as `PIN` commands (R120). -/
def shiftBitPins (b : Bool) : List PinArgs := [(.srData, b, .none), (.srClk, true, .srclk), (.srClk, false, .srclk)]

/-- `SHIFT` as `PIN` commands (R120). -/
def shiftPins (v : Byte) (dir : Direction) : List PinArgs := (shiftBits v dir).flatMap shiftBitPins

/-- `LATCH` as `PIN` commands (R121). -/
def latchPins : List PinArgs := [(.srLatch, true, .latch), (.srLatch, false, .none)]

/-- `CASC` as `PIN` commands (R122). -/
def cascadePins (b0 b1 : Byte) : List PinArgs := shiftPins b1 .lsb ++ shiftPins b0 .lsb ++ latchPins

theorem pinsCode_startPins : pinsCode startPins = startCode := rfl

theorem sendBits_eq_flatMap (v : Word) (n : Nat) : sendBits v n = (msbBits v n).flatMap sendBit := by
  induction n with
  | zero => rfl
  | succ n ih => rw [sendBits, msbBits, List.flatMap_cons, ih]

theorem pinsCode_writePins (v : Word) (n : Nat) : pinsCode (writePins v n) = writeBitsCode v n := by
  rw [writePins, pinsCode_append, pinsCode_flatMap, writeBitsCode, sendBits_eq_flatMap]
  rfl

theorem pinsCode_shiftPins (v : Byte) (dir : Direction) : pinsCode (shiftPins v dir) = shiftByteCode v dir :=
  pinsCode_flatMap _ shiftBitPins

theorem pinsCode_latchPins : pinsCode latchPins = latchCode := rfl

theorem pinsCode_cascadePins (b0 b1 : Byte) : pinsCode (cascadePins b0 b1) = cascadeCode b0 b1 := by
  rw [cascadePins, pinsCode_append, pinsCode_append, pinsCode_shiftPins, pinsCode_shiftPins, pinsCode_latchPins, cascadeCode]

/-- A command whose pseudocode is that of a sequence of `PIN` commands is reproduced by the sequence, state and trace. -/
theorem reproduced_by_pins {i : Instr} {s : State} {code : List Micro} {ps : List PinArgs} (hl : s.look = none)
    (hexec : exec i s = .next (s.runCommand code)) (hcode : pinsCode ps = code)
    (hlen : 0 < code.length ∧ code.length ≤ fullRun) :
    ∃ (qs : List PinArgs) (t : State), execAll (qs.map PinArgs.instr) s = .next t ∧ exec i s = .next t := by
  subst hcode
  have hne : ps ≠ [] := fun h => by simp [h, pinsCode] at hlen
  refine ⟨ps, _, execAll_pins hne hl, ?_⟩
  rw [hexec, State.runCommand_closed (pinsCode_straight ps) hlen.2 hl]

/-! ### Samples -/

theorem samplesOf_append (a b : List Event) : samplesOf (a ++ b) = samplesOf a ++ samplesOf b := List.filterMap_append

theorem samplesOf_pinTrace (p : Pin) (v : Bool) (hold : Hold) : samplesOf (pinTrace p v hold) = [] := by
  cases hold <;> rfl

/-- `PIN` commands take no sample (R94). -/
theorem execAll_pins_samplesOf {ps : List PinArgs} {s t : State} (hl : s.look = none)
    (h : execAll (ps.map PinArgs.instr) s = .next t) : samplesOf t.trace = samplesOf s.trace := by
  induction ps generalizing s with
  | nil =>
    injection h with h
    rw [h]
  | cons a ps ih =>
    rw [execAll_cons_instr hl] at h
    have hl' : (runCode (pinCode a.1 a.2.1 a.2.2) s).closed.look = none := (runCode_pinCode_look _ _ _ s).trans hl
    rw [ih hl' h, State.closed_trace, pinCode_trace, samplesOf_append, samplesOf_pinTrace, List.append_nil]

theorem samplesOf_sampleTrace (bits : List Bool) : samplesOf (sampleTrace bits) = bits := by
  induction bits with
  | nil => rfl
  | cons b bits ih => exact congrArg (b :: ·) ih

/-- The samples of `readWord` are the bits of its word (R102). -/
theorem samplesOf_readTrace (w : Word) : samplesOf (readTrace w) = msbBits w 16 := by
  rw [readTrace, samplesOf_append, samplesOf_sampleTrace]
  exact List.append_nil _

/-- Settles O29: each operation's pseudocode is that of its sequence of `PIN` commands (`reproduced_by_pins`); no `PIN` appends
a sample event, and `RWORD` appends those of the sixteen bits of its word. -/
theorem pinSequencesReproduceTheCompositeOperations : Obligations.PinSequencesReproduceTheCompositeOperations := by
  refine ⟨fun i s hl hi => ?_, fun ps s t hl h => execAll_pins_samplesOf hl h, fun s hl => ⟨_, exec_rword hl, ?_⟩⟩
  · rcases hi with rfl | ⟨v, n, rfl, hn⟩ | ⟨v, d, rfl⟩ | rfl | ⟨b0, b1, rfl⟩
    · exact reproduced_by_pins hl rfl pinsCode_startPins (by decide)
    · refine reproduced_by_pins hl (if_pos hn) (pinsCode_writePins v n.toNat) ?_
      have hlt := n.isLt
      rw [writeBitsCode_length, fullRun]
      omega
    · refine reproduced_by_pins hl rfl (pinsCode_shiftPins v d) ?_
      rw [shiftByteCode_length]
      decide
    · exact reproduced_by_pins hl rfl pinsCode_latchPins (by decide)
    · refine reproduced_by_pins hl rfl (pinsCode_cascadePins b0 b1) ?_
      rw [cascadeCode_length]
      decide
  · rw [State.complete_trace, readWordCode_trace, samplesOf_append, samplesOf_readTrace, List.length_append, msbBits_length]
    rfl

end Sys2Proof.Machine
end

section
/-! The statements about the EEPROM driver (spec/41_eeprom.md): `START`, `WBITS`, `RDAT` and `RDRNG` are each the pseudocode of
its rule, run from the state itself and completed (`exec_eepromCommand`); what remains is the law of that pseudocode. -/

namespace Sys2Proof.Machine

/-! ### A command on the EEPROM's bus -/

@[simp] theorem State.closed_pins (s : State) : s.closed.pins = s.pins := rfl
@[simp] theorem State.closed_result (s : State) : s.closed.result = s.result := rfl
@[simp] theorem State.closed_work (s : State) : s.closed.work = s.work := rfl
@[simp] theorem State.closed_eeprom (s : State) : s.closed.eeprom = s.eeprom := rfl
@[simp] theorem State.closed_din (s : State) : s.closed.din = s.din := rfl
@[simp] theorem State.closed_draws (s : State) : s.closed.draws = s.draws := rfl

theorem State.closed_completed (s : State) : Completed s.closed :=
  State.complete_completed rfl

theorem State.closed_released {s : State} (h : Released s) : Released s.closed :=
  ⟨h.sel, h.clk, h.dout⟩

theorem State.closed_onlyEepromBus (s : State) : OnlyEepromBus s s.closed := by
  constructor <;> rfl

/-- A command whose pseudocode is straight and stays on the EEPROM's bus completes, and touches nothing else (R38, R81). -/
theorem exec_eepromCommand {i : Instr} {s : State} {code : List Micro} (hl : s.look = none)
    (hexec : exec i s = .next (s.runCommand code)) (hcode : Straight code) (hbus : code.all Micro.eeBus = true)
    (hlen : code.length ≤ fullRun) :
    exec i s = .next (runCode code s).closed ∧ Completed (runCode code s).closed ∧
      OnlyEepromBus s (runCode code s).closed := by
  rw [hexec, State.runCommand_closed hcode hlen hl]
  exact ⟨rfl, State.closed_completed _, (runCode_onlyEepromBus hbus s).trans (State.closed_onlyEepromBus _)⟩

/-! ### `START`, `WBITS` and `RDAT` (R100, R101, R103) -/

/-- Settles O30: the trace is `startCode_trace`, and the device has taken the start bit by `startCode_eeprom`. -/
theorem startSendsTheStartCondition : Obligations.StartSendsTheStartCondition := by
  intro s hl
  obtain ⟨hexec, hdone, hframe⟩ := exec_eepromCommand hl (i := .start) rfl startCode_straight startCode_eeBus (by decide)
  refine ⟨_, hexec, hdone, ?_⟩
  rw [State.closed_trace, State.closed_pins, State.closed_result, State.closed_work, State.closed_din, State.closed_draws,
    State.closed_eeprom, startCode_eeprom]
  exact ⟨startCode_trace s, startCode_eeSel s, startCode_eeClk s, startCode_eeDout s, startCode_result s, startCode_work s,
    startCode_din s, startCode_draws s, rfl, rfl, hframe⟩

theorem bitCountOk_of_bounds {n : BitVec 5} (hpos : 1 ≤ n.toNat) (hle : n.toNat ≤ 16) : bitCountOk n = true := by
  simp [bitCountOk, hpos, hle]

/-- Settles O31: a count of 1 to 16 is legal, and the rest are the laws of `writeBits` (`writeBitsCode_trace`,
`writeBitsCode_pins`, `writeBitsCode_keeps`). -/
theorem writeBitsSendsTheBits : Obligations.WriteBitsSendsTheBits := by
  intro v n s hl hpos hle
  have hlen : (writeBitsCode v n.toNat).length ≤ fullRun := by
    rw [writeBitsCode_length, fullRun]
    omega
  obtain ⟨hexec, hdone, hframe⟩ := exec_eepromCommand hl (i := .wbits v n) (if_pos (bitCountOk_of_bounds hpos hle))
    (writeBitsCode_straight v _) (writeBitsCode_eeBus v _) hlen
  obtain ⟨hsel, hclk, hdout⟩ := writeBitsCode_pins v n.toNat s hpos
  obtain ⟨hresult, hwork, hdin, hdraws⟩ := writeBitsCode_keeps v n.toNat s
  refine ⟨_, hexec, hdone, ?_⟩
  rw [State.closed_trace, State.closed_pins, State.closed_result, State.closed_work, State.closed_din, State.closed_draws]
  exact ⟨writeBitsCode_trace v _ s, hsel, hclk, hdout, hresult, hwork, hdin, hdraws, hframe⟩

/-- Settles O35: `RDAT` is one `readWordAt`, whose trace and pins are `readWordAtCode_trace` and `readWordAtCode_pins`, at all
nine bits of the address. -/
theorem readWordAtIsOneTransaction : Obligations.ReadWordAtIsOneTransaction := by
  intro a s hl
  have hlen : (readWordAtCode (zext16 a)).length ≤ fullRun := by
    rw [readWordAtCode_length]
    decide
  obtain ⟨hexec, hdone, hframe⟩ := exec_eepromCommand hl (i := .rdat a) rfl (readWordAtCode_straight _)
    (readWordAtCode_eeBus _) hlen
  have htrace := readWordAtCode_trace (zext16 a) s
  rw [wireAddr_zext16] at htrace
  obtain ⟨hsel, hclk, hdout⟩ := readWordAtCode_pins (zext16 a) s
  refine ⟨_, readAtValue (zext16 a) s, hexec, hdone, ?_⟩
  rw [State.closed_result, State.closed_trace, readWordAtCode_result]
  exact ⟨rfl, htrace, State.closed_released ⟨hsel, hclk, hdout⟩, hframe⟩

/-! ### `RDRNG` (R104) -/

/-- How many addresses `RDRNG first, last` reads: all of the range, or one (R104). -/
def readCount (first last : EeAddr) : Nat :=
  if first.toNat < last.toNat then last.toNat - first.toNat + 1 else 1

theorem readRangeCode_eq_readsFrom (first last : EeAddr) :
    readRangeCode first last = readsFrom first.toNat (readCount first last) :=
  readRangeCode_eq first last

theorem readCount_pos (first last : EeAddr) : 0 < readCount first last := by
  unfold readCount
  split <;> omega

/-- The last address read is the end of the range, or `first` where there is no range (R104). -/
theorem readCount_last (first last : EeAddr) :
    BitVec.ofNat 9 (first.toNat + (readCount first last - 1)) = if first.toNat < last.toNat then last else first := by
  unfold readCount
  split
  · next h =>
    rw [Nat.add_sub_cancel, Nat.add_sub_cancel' h.le, BitVec.ofNat_toNat, BitVec.setWidth_eq]
  · rw [Nat.sub_self, Nat.add_zero, BitVec.ofNat_toNat, BitVec.setWidth_eq]

theorem exec_rdrng {s : State} (hl : s.look = none) (first last : EeAddr) :
    exec (.rdrng first last) s = .next (runCode (readRangeCode first last) s).closed ∧
      Completed (runCode (readRangeCode first last) s).closed ∧
      OnlyEepromBus s (runCode (readRangeCode first last) s).closed :=
  exec_eepromCommand hl rfl (readRangeCode_straight first last) (readRangeCode_eeBus first last)
    ((readRangeCode_length first last).trans (by decide))

/-- Settles O37: the pseudocode is reads at ascending addresses (`readRangeCode_eq_readsFrom`), whose trace, last word and
released bus are `readsFrom_reads`. -/
theorem readRangeReadsEveryAddressInOrder : Obligations.ReadRangeReadsEveryAddressInOrder := by
  intro first last s hl
  obtain ⟨hexec, hdone, hframe⟩ := exec_rdrng hl first last
  obtain ⟨ws, hcount, htrace, hlast, -⟩ := readsFrom_reads (readCount first last) first.toNat s
  rw [← readRangeCode_eq_readsFrom] at htrace hlast
  obtain ⟨hresult, hreleased⟩ := hlast (readCount_pos first last)
  refine ⟨_, ws, hexec, hdone, hcount, ?_⟩
  rw [State.closed_trace, State.closed_result, hcount]
  exact ⟨htrace, hresult, State.closed_released hreleased, hframe⟩

/-! ### The strobed words (R24) -/

theorem resultsOf_append (a b : List Event) : resultsOf (a ++ b) = resultsOf a ++ resultsOf b := List.filterMap_append

theorem resultsOf_flatMap {α : Type} (f : α → List Event) (l : List α) :
    resultsOf (l.flatMap f) = l.flatMap (fun a => resultsOf (f a)) := List.filterMap_flatMap

/-- A transaction strobes its word and nothing else: its other events are drives, settles and samples (R103). -/
theorem resultsOf_readAtTrace (a : EeAddr) (w : Word) : resultsOf (readAtTrace a w) = [w] := rfl

/-- Settles O38: each transaction of the range strobes one word (`resultsOf_readAtTrace`), which with the reference EEPROM is
the stored one (`readsFrom_reads`). -/
theorem readRangeStrobesTheStoredWords : Obligations.ReadRangeStrobesTheStoredWords := by
  intro first last s hl href
  obtain ⟨ws, -, htrace, hlast, hstored⟩ := readsFrom_reads (readCount first last) first.toNat s
  rw [← readRangeCode_eq_readsFrom] at htrace hlast
  have hpos := readCount_pos first last
  refine ⟨_, (exec_rdrng hl first last).1, ?_, ?_⟩
  · rw [State.closed_trace, htrace, resultsOf_append, resultsOf_flatMap]
    refine congrArg (resultsOf s.trace ++ ·) ((List.flatMap_congr fun k hk => ?_).trans List.map_eq_flatMap.symm)
    rw [resultsOf_readAtTrace, hstored href k (List.mem_range.1 hk)]
  · rw [State.closed_result]
    calc (runCode (readRangeCode first last) s).result
        = ws.getD (readCount first last - 1) 0 := (hlast hpos).1
      _ = eeRead s.ee (BitVec.ofNat 9 (first.toNat + (readCount first last - 1))) :=
          hstored href _ (Nat.sub_one_lt_of_lt hpos)
      _ = eeRead s.ee (if first.toNat < last.toNat then last else first) := by rw [readCount_last]

end Sys2Proof.Machine
end

section
/-! The statements about the shift-register driver (spec/42_shiftreg.md): `SHIFT`, `LATCH` and `CASC` are each the pseudocode of
its rule, run from the state itself and completed (`exec_cascadeCommand`); what remains is the law of that pseudocode. -/

namespace Sys2Proof.Machine

/-! ### A command on the cascade's bus -/

@[simp] theorem State.closed_chain (s : State) : s.closed.chain = s.chain := rfl
@[simp] theorem State.closed_out (s : State) : s.closed.out = s.out := rfl

theorem State.closed_onlyCascadeBus (s : State) : OnlyCascadeBus s s.closed := by
  constructor <;> rfl

/-- A command whose pseudocode is straight and stays on the cascade's bus completes, and touches nothing else (R38, R81). -/
theorem exec_cascadeCommand {i : Instr} {s : State} {code : List Micro} (hl : s.look = none)
    (hexec : exec i s = .next (s.runCommand code)) (hcode : Straight code) (hbus : code.all Micro.srBus = true)
    (hlen : code.length ≤ fullRun) :
    exec i s = .next (runCode code s).closed ∧ Completed (runCode code s).closed ∧
      OnlyCascadeBus s (runCode code s).closed := by
  rw [hexec, State.runCommand_closed hcode hlen hl]
  exact ⟨rfl, State.closed_completed _, (runCode_onlyCascadeBus hbus s).trans (State.closed_onlyCascadeBus _)⟩

theorem exec_shift {s : State} (hl : s.look = none) (v : Byte) (dir : Direction) :
    exec (.shift v dir) s = .next (runCode (shiftsCode (dirBits v dir)) s).closed ∧
      Completed (runCode (shiftsCode (dirBits v dir)) s).closed ∧
      OnlyCascadeBus s (runCode (shiftsCode (dirBits v dir)) s).closed := by
  rw [← shiftByteCode_dir]
  exact exec_cascadeCommand hl rfl (shiftByteCode_straight v dir) (shiftByteCode_srBus v dir)
    ((shiftByteCode_length v dir).trans_le (by decide))

theorem exec_latch {s : State} (hl : s.look = none) :
    exec .latch s = .next (runCode latchCode s).closed ∧ Completed (runCode latchCode s).closed ∧
      OnlyCascadeBus s (runCode latchCode s).closed :=
  exec_cascadeCommand hl rfl rfl latchCode_srBus (by decide)

theorem exec_casc {s : State} (hl : s.look = none) (b0 b1 : Byte) :
    exec (.casc b0 b1) s = .next (runCode (cascadeCode b0 b1) s).closed ∧
      Completed (runCode (cascadeCode b0 b1) s).closed ∧
      OnlyCascadeBus s (runCode (cascadeCode b0 b1) s).closed :=
  exec_cascadeCommand hl rfl (cascadeCode_straight b0 b1) (cascadeCode_srBus b0 b1)
    ((cascadeCode_length b0 b1).trans_le (by decide))

/-! ### `SHIFT`, `LATCH` and `CASC` on the wires (R120, R121, R122) -/

theorem dirBits_ne_nil (v : Byte) (dir : Direction) : dirBits v dir ≠ [] := by
  cases dir <;> exact List.cons_ne_nil _ _

/-- Settles O41: eight rounds of `shiftByte`, whose trace, pins and outputs are `shiftsCode_trace`, `shiftsCode_pins` and
`shiftsCode_out`, at the bits of the direction. -/
theorem shiftSendsEightBits : Obligations.ShiftSendsEightBits := by
  intro v dir s hl
  obtain ⟨hexec, hdone, hframe⟩ := exec_shift hl v dir
  have htrace := shiftsCode_trace (dirBits v dir) s
  obtain ⟨hclk, hdata, hlatch⟩ := shiftsCode_pins (dirBits v dir) s (dirBits_ne_nil v dir)
  have hout := shiftsCode_out (dirBits v dir) s
  refine ⟨_, hexec, hdone, ?_⟩
  rw [State.closed_trace, State.closed_pins, State.closed_out]
  cases dir <;> exact ⟨htrace, hdata, hclk, hlatch, hout, hframe⟩

/-- Settles O43: one pulse, which copies the chain exactly when it makes an edge (`latchCode_out`). -/
theorem latchCopiesTheChain : Obligations.LatchCopiesTheChain := by
  intro s hl
  obtain ⟨hexec, hdone, hframe⟩ := exec_latch hl
  obtain ⟨hclk, hdata, hlatch⟩ := latchCode_pins s
  obtain ⟨hout, hchain⟩ := latchCode_out s
  refine ⟨_, hexec, hdone, ?_⟩
  rw [State.closed_trace, State.closed_pins, State.closed_out, State.closed_chain]
  exact ⟨latchCode_trace s, hlatch, hclk, hdata, hout, hchain, hframe⟩

/-- Settles O44: `CASC` is one `writeCascade` (`cascadeCode_trace`, `cascadeCode_pins`). -/
theorem cascadeSendsByte1ThenByte0 : Obligations.CascadeSendsByte1ThenByte0 := by
  intro b0 b1 s hl
  obtain ⟨hexec, hdone, hframe⟩ := exec_casc hl b0 b1
  obtain ⟨hclk, hdata, hlatch⟩ := cascadeCode_pins b0 b1 s
  refine ⟨_, hexec, hdone, ?_⟩
  rw [State.closed_trace, State.closed_pins]
  exact ⟨cascadeCode_trace b0 b1 s, hdata, hclk, hlatch, hframe⟩

/-! ### What the cascade holds (R123) -/

/-- Bit `k` of a reversed byte is its bit `7 - k`. -/
theorem getLsbD_reverse_byte (b : Byte) {k : Nat} (hk : k < 8) : b.reverse.getLsbD k = b.getLsbD (7 - k) := by
  rw [BitVec.getLsbD_reverse, BitVec.getMsbD, decide_eq_true hk, Bool.true_and]

/-- The chain that `cascadeCode_chain` gives has each byte's bit 7 next to the input: `CH[7 - n]` is `byte0[n]`, `CH[15 - n]`
is `byte1[n]`. -/
theorem getLsbD_reverse_append (b0 b1 : Byte) {n : Nat} (hn : n < 8) :
    (b1.reverse ++ b0.reverse).getLsbD (7 - n) = b0.getLsbD n ∧
    (b1.reverse ++ b0.reverse).getLsbD (15 - n) = b1.getLsbD n := by
  have hmirror : 7 - (7 - n) = n := by omega
  have hfar : 15 - n - 8 = 7 - n := by omega
  rw [BitVec.getLsbD_append, BitVec.getLsbD_append, if_pos (by omega), if_neg (by omega), hfar,
    getLsbD_reverse_byte b0 (by omega), getLsbD_reverse_byte b1 (by omega), hmirror]
  exact ⟨rfl, rfl⟩

theorem lsbFirst_eq_map (v : Byte) : lsbFirst v = (List.range 8).map v.getLsbD := rfl

/-- After eight shifts, most significant bit first, the near register holds the byte: its bit 0 came last. -/
theorem getLsbD_foldl_shiftIn_msbFirst (v : Byte) (ch : BitVec 16) {p : Nat} (hp : p < 8) :
    ((msbFirst v).foldl shiftIn ch).getLsbD p = v.getLsbD p := by
  have hlen : (msbFirst v).length = 8 := rfl
  rw [foldl_shiftIn _ _ _ (by omega), if_pos (by omega), msbFirst, List.reverse_reverse, lsbFirst_eq_map]
  simp [List.getD_eq_getElem?_getD, hp]

/-- Settles O45: with both clocks low no edge is lost, so the chain is what `cascadeCode_chain` and `shiftsCode_chain` give,
whose bits are `getLsbD_reverse_append` and `getLsbD_foldl_shiftIn_msbFirst`. -/
theorem cascadeHoldsNearAndFarBytes : Obligations.CascadeHoldsNearAndFarBytes := by
  refine ⟨fun b0 b1 s hl hclk hlatch => ?_, fun v s hl hclk => ?_⟩
  · obtain ⟨hchain, hout⟩ := cascadeCode_chain b0 b1 hclk hlatch
    refine ⟨_, (exec_casc hl b0 b1).1, ?_⟩
    rw [State.closed_out, State.closed_chain, hout, hchain]
    exact ⟨rfl, fun n hn => getLsbD_reverse_append b0 b1 hn⟩
  · obtain ⟨hchain, -, -⟩ := shiftsCode_chain (msbFirst v) hclk
    refine ⟨_, (exec_shift hl v .msb).1, fun p hp => ?_⟩
    rw [State.closed_chain, dirBits, hchain]
    exact getLsbD_foldl_shiftIn_msbFirst v s.chain hp

/-! ### The two directions (R120) -/

/-- The two formulas of R120 for the bit sent send the same bits when the byte is reversed. -/
theorem shiftBits_msb_eq_reverse_lsb (v : Byte) : shiftBits v .msb = shiftBits v.reverse .lsb :=
  List.map_congr_left fun _ hk => (getLsbD_reverse_byte v (List.mem_range.1 hk)).symm

/-- Settles O42: the two commands run the same pseudocode, as they send the same bits (`shiftBits_msb_eq_reverse_lsb`). -/
theorem shiftDirectionsAreMirrors : Obligations.ShiftDirectionsAreMirrors := by
  intro v s
  have hcode : shiftByteCode v .msb = shiftByteCode v.reverse .lsb :=
    congrArg (List.flatMap shiftOne) (shiftBits_msb_eq_reverse_lsb v)
  exact congrArg (fun code => Host.Outcome.next (s.runCommand code)) hcode

end Sys2Proof.Machine
end

section
/-! RENDER of a text with no terminator (spec/43_renderer.md R133, spec/70_reset_and_hazards.md R184): its character loop runs on,
and while it does the host can change no byte of TXT, for all of TXT is its text (R67). -/

namespace Sys2Proof.Machine

/-! ### Writing the byte a memory holds already -/

theorem Memory.write_read_self {size : Nat} {m : Memory} (h : Memory.wf size m = true) {a : Nat} (ha : a < size) :
    Memory.write m a (Memory.read m a) = m := by
  refine Memory.ext_of_wf (Memory.wf_write h ha _) h fun b => ?_
  rw [Memory.read_write h]
  split
  · next hab => rw [hab]
  · rfl

/-- Host writes of the bytes TXT holds already change nothing. -/
theorem State.hostWrites_eq_self {s : State} (hwf : Memory.wf 65536 s.txt = true) (ws : List (TxtAddr × Byte))
    (h : ∀ w ∈ ws, s.txtRead w.1 = w.2) : s.hostWrites ws = s := by
  induction ws with
  | nil => rfl
  | cons w ws ih =>
    have hw : Memory.write s.txt w.1.toNat w.2 = s.txt := by
      rw [← h w List.mem_cons_self]
      exact Memory.write_read_self hwf w.1.isLt
    calc s.hostWrites (w :: ws) = ({ s with txt := Memory.write s.txt w.1.toNat w.2 } : State).hostWrites ws := rfl
      _ = s.hostWrites ws := by rw [hw]
      _ = s := ih fun w' hw' => h w' (List.mem_cons_of_mem w hw')

/-! ### The text with no terminator is all of TXT (R67, log entry 18) -/

theorem State.NoTerminator.of_txt {s t : State} (h : s.NoTerminator) (ht : t.txt = s.txt) : t.NoTerminator := fun a => by
  rw [State.txtRead, ht]
  exact h a

theorem State.NoTerminator.inText {s : State} (h : s.NoTerminator) (base a : TxtAddr) : s.inText base a = true :=
  List.all_eq_true.2 fun _ _ => bne_iff_ne.2 (h _)

/-- Writes that do not break the text write, everywhere, the byte that is there. -/
theorem State.NoTerminator.txtRead_of_keepsText {s : State} (h : s.NoTerminator) (hbase : s.textBase ≠ none)
    {ws : List (TxtAddr × Byte)} (hkeep : s.breaksText ws = false) {w : TxtAddr × Byte} (hw : w ∈ ws) :
    s.txtRead w.1 = w.2 := by
  obtain ⟨base, hbase⟩ := Option.ne_none_iff_exists'.1 hbase
  simp only [State.breaksText, hbase, h.inText, Bool.true_and] at hkeep
  simpa using List.any_eq_false.1 hkeep w hw

/-- So a step that has a meaning leaves TXT as it is. -/
theorem State.NoTerminator.ready_eq {s : State} (h : s.NoTerminator) (hwf : Memory.wf 65536 s.txt = true)
    (hbase : s.textBase ≠ none) (hkeep : s.breaksText s.hostIn.txt = false) : s.ready = s.takeInput :=
  State.hostWrites_eq_self (s := s.takeInput) hwf _ fun _ hw => h.txtRead_of_keepsText hbase hkeep hw

/-! ### The loop runs on -/

theorem Micro.loops_iff {m : Micro} : m.loops = true ↔
    m = .fetch ∨ m = .nextChar ∨ (∃ c idx, m = .scanTest c idx true) ∨ ∃ addr, m = .metaTest addr := by
  cases m <;> simp [Micro.loops]

theorem State.rendering_iff {s : State} : s.Rendering ↔ s.seq = .busy ∧ Looping s.todo := by
  simp only [State.Rendering, Looping, Micro.loops_iff]

/-- However far the step runs it, the command is still running, so nothing of its control state changes (R133). -/
theorem resume_rendering {s : State} (h : s.Rendering) (ht : s.NoTerminator) :
    s.resume.Rendering ∧ TickFrame s s.resume := by
  obtain ⟨hseq, hloop⟩ := State.rendering_iff.1 h
  obtain ⟨hloop', -, hseq'⟩ := runTicks_looping s.budget ht hloop
  rw [State.resume, State.settleSeq_of_todo_ne_nil hloop'.ne_nil]
  exact ⟨State.rendering_iff.2 ⟨hseq'.trans hseq, hloop'⟩, runTicks_frame s.budget s⟩

/-- Settles O58: of the ways a busy engine steps only reset is another than going on, the host's writes leave TXT as it is
(`State.NoTerminator.ready_eq`), and the loop runs on (`resume_rendering`). -/
theorem onlyResetEndsARenderWithoutTerminator : Obligations.OnlyResetEndsARenderWithoutTerminator := by
  intro s t hrender hnoTerm hwf hbase hrst hstep
  have hbusy := hrender.1
  cases step_cases hstep with
  | reset hr _ => rw [hrst] at hr; nomatch hr
  | quiet _ hseq _ => rw [hbusy] at hseq; simp at hseq
  | command _ _ hseq _ _ _ _ _ => rw [hbusy] at hseq; nomatch hseq
  | fault _ hseq _ _ _ _ _ => rw [hbusy] at hseq; nomatch hseq
  | busy _ hkeep _ ht =>
    rw [hnoTerm.ready_eq hwf hbase hkeep] at ht
    subst ht
    obtain ⟨hrender', hframe⟩ := resume_rendering (s := s.takeInput) hrender hnoTerm
    refine ⟨hrender', hnoTerm.of_txt hframe.txt, ?_, ?_⟩
    · rw [hframe.txt]; exact hwf
    · rw [hframe.textBase]; exact hbase

theorem looping_render (ptr : TxtAddr) : Looping (renderCode ptr) :=
  (Looping.single rfl).append [.setTxtptr ptr]

/-- Settles O57: the command is accepted with the loop still to run (`looping_render`), and runs on (`resume_rendering`). -/
theorem renderWithoutTerminatorDoesNotComplete : Obligations.RenderWithoutTerminatorDoesNotComplete := by
  intro ptr s hnoTerm
  obtain ⟨hrender, hframe⟩ := resume_rendering (s := ({ s with textBase := some ptr } : State).accept (renderCode ptr))
    (State.rendering_iff.2 ⟨rfl, looping_render ptr⟩) (hnoTerm.of_txt rfl)
  exact ⟨_, rfl, hrender, hframe.done⟩

end Sys2Proof.Machine
end

section
/-! The statements about `FIND` (spec/43_renderer.md R130, R131): the command is one lookup from slot 0 (`exec_find`), and what
a lookup does is `Scanned`. -/

namespace Sys2Proof.Machine

/-- `FIND` is one lookup over all the slots, run from its acceptance, and completion. -/
theorem exec_find {s : State} (hl : s.look = none) (c : Byte) : ∃ (u : State) (ws : List Word),
    exec (.find c) s = .next u.closed ∧ Scanned c false 0 37 [] (s.accept (scanCode c 0 false)) ws u := by
  obtain ⟨n, u, ws, hleads, hn, hscan⟩ := scan_leads c false [] 37 0 (s.accept (scanCode c 0 false)) (by decide) rfl
    (List.append_nil _).symm
  have htodo : u.todo = [] := by
    rcases hscan.outcome with ⟨-, -, h⟩ | ⟨-, -, -, h⟩ <;> exact h
  have hrun : s.runCommand (scanCode c 0 false) = u.complete :=
    State.runCommand_completes hleads htodo (by rw [State.budget_full hl, fullRun]; omega)
  refine ⟨u, ws, ?_, hscan⟩
  rw [← State.complete_eq_closed htodo, ← hrun]
  rfl

/-- The last of the words read is in RESULT, and no other holds the character. -/
theorem Scanned.words {c : Byte} {r : Bool} {idx k : Nat} {rest : List Micro} {s t : State} {ws : List Word}
    (h : Scanned c r idx k rest s ws t) :
    t.result = ws.getD (ws.length - 1) 0 ∧ ∀ j, j + 1 < ws.length → lowByte (ws.getD j 0) ≠ c := by
  have hpos : 0 < ws.length := List.length_pos_iff.2 h.pos
  refine ⟨?_, fun j hj => h.misses _ ?_⟩
  · rw [h.result, List.getLast_eq_getElem, List.getD_eq_getElem _ _ (Nat.sub_one_lt_of_lt hpos)]
  · rw [List.getD_eq_getElem _ _ (by omega), ← List.getElem_dropLast (h := by rw [List.length_dropLast]; omega)]
    exact List.getElem_mem _

/-- Settles O48: what a lookup does, whatever the samples (`Scanned`). -/
theorem findScansUntilTheFirstMatch : Obligations.FindScansUntilTheFirstMatch := by
  intro c s hl
  obtain ⟨u, ws, hexec, hscan⟩ := exec_find hl c
  obtain ⟨hresult, hmisses⟩ := hscan.words
  have haccept : OnlyEepromBus { s with faddr := u.faddr }
      { s.accept (scanCode c 0 false) with faddr := u.faddr } := by constructor <;> rfl
  refine ⟨u.closed, ws, hexec, u.closed_completed, List.length_pos_iff.2 hscan.pos, hscan.le, hscan.trace, hresult, hmisses,
    ?_, State.closed_released ⟨hscan.sel, hscan.clk, hscan.dout⟩, (haccept.trans hscan.frame).trans u.closed_onlyEepromBus⟩
  rw [State.closed_result, hscan.result]
  rcases hscan.outcome with ⟨hhit, hfaddr, -⟩ | ⟨hmiss, hall, hfaddr, -⟩
  · rw [Nat.zero_add] at hfaddr
    exact .inl ⟨hhit, hfaddr⟩
  · exact .inr ⟨hmiss, hall, hfaddr⟩

/-! ### Over the reference EEPROM (R56, R131) -/

theorem lookupAddr_of_some {ee : List (Nat × Word)} {c : Byte} {i : Nat} (h : firstSlot ee c = some i) :
    lookupAddr ee c = BitVec.ofNat 16 (10 * i) := by
  simp only [lookupAddr, h]

theorem lookupAddr_of_none {ee : List (Nat × Word)} {c : Byte} (h : firstSlot ee c = none) : lookupAddr ee c = 5 := by
  simp only [lookupAddr, h]

/-- A lookup over the reference EEPROM leaves the address of the lookup at the level of words in FADDR and the last word it
reads in RESULT. -/
theorem Scanned.registers {c : Byte} {r : Bool} {rest : List Micro} {s t : State} {ws : List Word}
    (h : Scanned c r 0 37 rest s ws t) (href : s.eeRef = true) :
    t.faddr = lookupAddr s.ee c ∧ t.result = slotWord s.ee (slotsRead s.ee c - 1) := by
  rcases (h.ref href).2 with ⟨i, hi, hfaddr, hresult, -⟩ | ⟨hnone, hfaddr, hresult, -⟩
  · rw [lookupAddr_of_some hi, slotsRead, hi]
    exact ⟨hfaddr, hresult⟩
  · rw [lookupAddr_of_none hnone, slotsRead, hnone]
    exact ⟨hfaddr, hresult⟩

/-- Settles O50: the words read are the stored ones (`Scanned.ref`). -/
theorem findReadsTheStoredSlots : Obligations.FindReadsTheStoredSlots := by
  intro c s hl href
  obtain ⟨u, ws, hexec, hscan⟩ := exec_find hl c
  obtain ⟨hfaddr, hresult⟩ := hscan.registers href
  have htrace : u.trace = s.trace ++ scanTrace 0 ws := hscan.trace
  rw [(hscan.ref href).1] at htrace
  exact ⟨u.closed, hexec, hfaddr, htrace, hresult, hscan.frame.cbuf, hscan.frame.txtptr⟩

/-- Settles O49: FADDR is the lookup's value (O50), which the first slot with the character decides. -/
theorem findReturnsTheSlotOrTheSentinel : Obligations.FindReturnsTheSlotOrTheSentinel := by
  intro s hl href
  refine ⟨fun i hi hfirst => ?_, fun c hmiss => ?_⟩
  · obtain ⟨t, hexec, hfaddr, -⟩ := findReadsTheStoredSlots (lowByte (slotWord s.ee i)) s hl href
    exact ⟨t, hexec, hfaddr.trans (lookupAddr_of_some (firstSlot_some.2 ⟨hi, rfl, hfirst⟩))⟩
  · obtain ⟨t, hexec, hfaddr, -⟩ := findReadsTheStoredSlots c s hl href
    exact ⟨t, hexec, hfaddr.trans (lookupAddr_of_none (firstSlot_none.2 hmiss))⟩

end Sys2Proof.Machine
end

section
/-! The statements about `RENDER` of a text with a terminator (spec/43_renderer.md R132 to R136): the command is the character
loop from its first fetch to the terminator (`exec_render`), and what the loop does with a whole text is `TextDone`. -/

namespace Sys2Proof.Machine

/-! ### The command -/

/-- RENDER at its first fetch: accepted, with TXTPTR at the text (R132). -/
def State.atFirstFetch (s : State) (ptr : TxtAddr) : State :=
  { s with textBase := some ptr, seq := .busy, todo := [.fetch], done := false, txtptr := ptr }

theorem renderCode_leads (s : State) (ptr : TxtAddr) :
    Leads 1 (({ s with textBase := some ptr } : State).accept (renderCode ptr)) (s.atFirstFetch ptr) :=
  Leads.one (s := ({ s with textBase := some ptr } : State).accept (renderCode ptr)) rfl

/-- RENDER of a text with a terminator is the loop over that text and completion: even a text that fills TXT ends within one
step (log entry 2). -/
theorem exec_render {s : State} {ptr : TxtAddr} {cs : List Byte} (hl : s.look = none) (htext : s.HoldsText ptr cs) :
    ∃ u, exec (.render ptr) s = .next u.complete ∧ TextDone cs (s.atFirstFetch ptr) u := by
  obtain ⟨n, u, hleads, hn, hdone⟩ := text_leads cs (s.atFirstFetch ptr) rfl htext
  have hlen : cs.length < 65536 := htext.1
  have hrun := State.runCommand_completes ((renderCode_leads s ptr).trans hleads) hdone.todo
    (by rw [State.budget_full (s := { s with textBase := some ptr }) hl, fullRun]; omega)
  exact ⟨u, congrArg Host.Outcome.next hrun, hdone⟩

/-- Settles O51: the loop leaves TXTPTR at the terminator and touches nothing it may not (`TextDone`). -/
theorem renderOfATerminatedTextCompletes : Obligations.RenderOfATerminatedTextCompletes := by
  intro ptr cs s hl htext
  obtain ⟨u, hexec, hdone⟩ := exec_render hl htext
  have hf := hdone.frame
  refine ⟨u.complete, hexec, State.complete_completed hdone.todo, hdone.txtptr,
    ⟨hf.fcause, hf.finfo, hf.resetSeen, hf.txt, hf.ee, hf.eeRef, hf.host, hf.look⟩, fun hne => ⟨?_, hdone.lookup hne⟩⟩
  obtain ⟨hsel, hclk, hdout⟩ := hdone.released hne
  exact ⟨hsel, hclk, hdout⟩

theorem State.holdsText_nil {s : State} {ptr : TxtAddr} (h : s.txtRead ptr = Config.config.term) : s.HoldsText ptr [] :=
  ⟨by decide, nofun, nofun, by simpa using h⟩

/-- Settles O52: the loop ends at its first fetch (`TextDone.empty`). -/
theorem renderOfAnEmptyTextReadsOneByte : Obligations.RenderOfAnEmptyTextReadsOneByte := by
  intro ptr s hl hterm
  obtain ⟨u, hexec, hdone⟩ := exec_render hl (State.holdsText_nil hterm)
  rw [hexec, hdone.empty rfl]
  rfl

/-! ### The renderer at the level of words (R132, R134) -/

/-- Settles O53: `TextDone.stored`, as acceptance and completion make nothing. -/
theorem renderOverPinsIsTheWordRenderer : Obligations.RenderOverPinsIsTheWordRenderer := by
  intro ptr cs s hl href htext
  obtain ⟨u, hexec, hdone⟩ := exec_render hl htext
  obtain ⟨hrendered, hdin, hdraws⟩ := hdone.stored href
  exact ⟨u.complete, hexec, hrendered, hdin, hdraws⟩

theorem renderChar_miss {ee : List (Nat × Word)} {c : Byte} (h : firstSlot ee c = none) (r : Rendered) :
    renderChar ee r c = ⟨r.cbuf, 5, slotWord ee 36, r.events ++ findTrace ee c⟩ := by
  simp only [renderChar, h]

theorem renderChar_hit_cbuf {ee : List (Nat × Word)} {c : Byte} {i : Nat} (h : firstSlot ee c = some i) (r : Rendered) :
    (renderChar ee r c).cbuf = loadColumns ee (BitVec.ofNat 16 (10 * i)) (highByte (slotWord ee i)) r.cbuf := by
  simp only [renderChar, h]

/-- A text of misses leaves the buffer as it is and FADDR at the sentinel (R134). -/
theorem renderText_misses {ee : List (Nat × Word)} {cs : List Byte} (h : ∀ c ∈ cs, firstSlot ee c = none) (ptr : TxtAddr)
    (r : Rendered) : (renderText ee ptr cs r).cbuf = r.cbuf ∧
      (renderText ee ptr cs r).faddr = if cs = [] then r.faddr else 5 := by
  induction cs generalizing ptr r with
  | nil => exact ⟨rfl, rfl⟩
  | cons c cs ih =>
    obtain ⟨hcbuf, hfaddr⟩ := ih (fun c' hc' => h c' (List.mem_cons_of_mem c hc')) (ptr + 1)
      (renderChar ee { r with events := r.events ++ [.txtRead ptr c] } c)
    rw [renderChar_miss (h c List.mem_cons_self)] at hcbuf hfaddr
    rw [renderText, renderChar_miss (h c List.mem_cons_self)]
    exact ⟨hcbuf, by rw [hfaddr]; simp⟩

/-- Settles O54: every character is a miss (`firstSlot_none`), so the loop leaves the display (`TextDone.missed`) and the
renderer at the level of words the buffer (`renderText_misses`). -/
theorem renderOfMissesLeavesTheDisplay : Obligations.RenderOfMissesLeavesTheDisplay := by
  intro ptr cs s hl href htext habsent
  have hmiss : ∀ c ∈ cs, firstSlot s.ee c = none := fun c hc => firstSlot_none.2 (habsent c hc)
  obtain ⟨u, hexec, hdone⟩ := exec_render hl htext
  obtain ⟨hclk, hdata, hlatch, hchain, hout⟩ := hdone.missed href hmiss
  have hrendered : u.rendered = renderText s.ee ptr cs s.rendered := (hdone.stored href).1
  obtain ⟨hcbuf, hfaddr⟩ := renderText_misses hmiss ptr s.rendered
  rw [← hrendered] at hcbuf hfaddr
  exact ⟨u.complete, hexec, ⟨hclk, hdata, hlatch, hchain, hout⟩, hcbuf, fun hne => hfaddr.trans (if_neg hne)⟩

/-- Settles O55: a character of the table is shown, and the blanking write is the last (`TextDone.shown`). -/
theorem renderEndsWithABlankDisplay : Obligations.RenderEndsWithABlankDisplay := by
  intro ptr cs s hl href htext hfound
  obtain ⟨c, hc, i, hi, hslot⟩ := hfound
  have hhit : firstSlot s.ee c ≠ none := fun hnone => firstSlot_none.1 hnone i hi hslot
  obtain ⟨u, hexec, hdone⟩ := exec_render hl htext
  obtain ⟨hclk, hdata, hlatch, hchain, hout⟩ := hdone.shown href ⟨c, hc, hhit⟩
  exact ⟨u.complete, hexec, hclk, hdata, hlatch, hchain, hout⟩

/-! ### The column load (R135) -/

/-- The byte the column load puts in entry `e`: word `e / 2` holds two, the low byte first. -/
def columnByte (ee : List (Nat × Word)) (addr : Word) (e : Nat) : Byte :=
  if e % 2 = 0 then lowByte (bitmapWord ee addr (e / 2)) else highByte (bitmapWord ee addr (e / 2))

theorem columnByte_even (ee : List (Nat × Word)) (addr : Word) (k : Nat) :
    columnByte ee addr (2 * k) = lowByte (bitmapWord ee addr k) := by
  rw [columnByte, if_pos (by omega), Nat.mul_div_cancel_left k (by decide)]

theorem columnByte_odd (ee : List (Nat × Word)) (addr : Word) (k : Nat) :
    columnByte ee addr (2 * k + 1) = highByte (bitmapWord ee addr k) := by
  rw [columnByte, if_neg (by omega), show (2 * k + 1) / 2 = k by omega]

theorem wf_loadWord {m : Memory} (h : Memory.wf 256 m = true) (ee : List (Nat × Word)) (addr : Word) {k : Nat} (hk : k < 128) :
    Memory.wf 256 (loadWord ee addr m k) = true :=
  Memory.wf_write (Memory.wf_write h (by omega) _) (by omega) _

theorem read_loadWord {m : Memory} (h : Memory.wf 256 m = true) (ee : List (Nat × Word)) (addr : Word) {k : Nat} (hk : k < 128)
    (e : Nat) : Memory.read (loadWord ee addr m k) e = if e / 2 = k then columnByte ee addr e else Memory.read m e := by
  rw [loadWord, Memory.read_write (Memory.wf_write h (by omega) _), Memory.read_write h, ← columnByte_even, ← columnByte_odd]
  by_cases hlow : 2 * k = e
  · subst hlow
    rw [if_neg (by omega), if_pos rfl, if_pos (by omega)]
  · by_cases hhigh : 2 * k + 1 = e
    · subst hhigh
      rw [if_pos rfl, if_pos (by omega)]
    · rw [if_neg hhigh, if_neg hlow, if_neg (by omega)]

/-- The load of the first `n` bitmap words writes the entries below `2 * n` and no other. -/
theorem read_loadWords {m : Memory} (h : Memory.wf 256 m = true) (ee : List (Nat × Word)) (addr : Word) {n : Nat}
    (hn : n ≤ 128) : Memory.wf 256 ((List.range n).foldl (loadWord ee addr) m) = true ∧
    ∀ e, Memory.read ((List.range n).foldl (loadWord ee addr) m) e =
      if e / 2 < n then columnByte ee addr e else Memory.read m e := by
  induction n with
  | zero => exact ⟨h, fun _ => rfl⟩
  | succ n ih =>
    obtain ⟨hwf, hread⟩ := ih (by omega)
    rw [List.range_succ, List.foldl_append, List.foldl_cons, List.foldl_nil]
    refine ⟨wf_loadWord hwf ee addr (by omega), fun e => ?_⟩
    rw [read_loadWord hwf ee addr (by omega), hread]
    by_cases hlast : e / 2 = n
    · rw [if_pos hlast, if_pos (by omega)]
    · rw [if_neg hlast]
      simp only [show e / 2 < n + 1 ↔ e / 2 < n by omega]

theorem read_loadColumns {m : Memory} (h : Memory.wf 256 m = true) (ee : List (Nat × Word)) (addr : Word) (cc : Byte) (e : Nat) :
    Memory.read (loadColumns ee addr cc m) e = if e / 2 ≤ cc.toNat / 2 then columnByte ee addr e else Memory.read m e := by
  have hcc : cc.toNat / 2 + 1 ≤ 128 := by omega
  rw [loadColumns_eq, (read_loadWords h ee addr hcc).2]
  simp only [Nat.lt_succ_iff]

/-- Settles O56: the buffer is that of the column load (`TextDone.stored`), whose entries are `read_loadColumns`. -/
theorem columnLoadWritesTheEntriesOfItsCount : Obligations.ColumnLoadWritesTheEntriesOfItsCount := by
  intro ptr c i s hl href htext hwf hslot
  obtain ⟨u, hexec, hdone⟩ := exec_render hl htext
  have hrendered : u.rendered = renderText s.ee ptr [c] s.rendered := (hdone.stored href).1
  have hcbuf : u.cbuf = loadColumns s.ee (BitVec.ofNat 16 (10 * i)) (highByte (slotWord s.ee i)) s.cbuf :=
    (congrArg Rendered.cbuf hrendered).trans (renderChar_hit_cbuf hslot _)
  have hread (e : Nat) : u.complete.cbufRead e = if e / 2 ≤ (highByte (slotWord s.ee i)).toNat / 2 then
      columnByte s.ee (BitVec.ofNat 16 (10 * i)) e else s.cbufRead e := by
    rw [State.cbufRead, State.complete_cbuf, hcbuf, read_loadColumns hwf]
    rfl
  refine ⟨u.complete, hexec, fun k hk => ⟨?_, ?_⟩, fun e he => ?_⟩
  · rw [hread, if_pos (by omega), columnByte_even]
  · rw [hread, if_pos (by omega), columnByte_odd]
  · rw [hread, if_neg (by omega)]

end Sys2Proof.Machine
end

section
/-! The statements about faults (spec/60_exceptions.md): taking one (R154, R155) and the HALT it leaves the engine in, which
only reset ends (R156). -/

namespace Sys2Proof.Machine

/-! ### Taking a fault (R154) -/

/-- The idle engine issues the word presented (R80). -/
theorem step_issue {s : State} {w : CmdWord} (hseen : s.resetSeen = true) (hrst : s.hostIn.rst = false)
    (hseq : s.seq = .idle) (htext : s.breaksText s.hostIn.txt = false) (hcmd : s.hostIn.cmd = some w) :
    step s = issue w s.ready := by
  rw [step_running hseen hrst htext, hcmd, stepEngine_issue (s := s.ready) hseq]

/-- Issuing a word that is no command raises a fault with that word. -/
theorem issue_raises {s t : State} {w : CmdWord} (h : issue w s = .next t)
    (hdecode : decode w = .illegalCmd ∨ decode w = .badBitCount) : ∃ cause, t = s.raiseFault cause w := by
  rcases hdecode with hdecode | hdecode
  · rw [issue_illegal hdecode] at h
    exact ⟨_, (Host.Outcome.next.inj h).symm⟩
  · rw [issue_badBitCount hdecode] at h
    exact ⟨_, (Host.Outcome.next.inj h).symm⟩

/-! ### The halted engine (R156) -/

/-- Without reset the halted engine only lets the inputs in. -/
theorem step_halted {s t : State} (hseq : s.seq = .halt) (hrst : s.hostIn.rst = false) (h : step s = .next t) :
    t = s.ready := by
  cases step_cases h with
  | reset hr => rw [hrst] at hr; nomatch hr
  | quiet _ _ ht => exact ht
  | busy _ _ hne | command _ _ hne | fault _ hne => rw [hseq] at hne; nomatch hne

theorem halt_flags {s : State} (h : s.seq = .halt) :
    s.faultFlag = true ∧ s.busyFlag = false ∧ s.cmdReady = false := by
  simp [State.faultFlag, State.busyFlag, State.cmdReady, h]

/-- The halted engine shows a fault until reset. -/
theorem faultFlag_of_step_halted {s t : State} (hseq : s.seq = .halt) (h : step s = .next t)
    (hrst : s.hostIn.rst = false) : t.faultFlag = true := by
  obtain rfl := step_halted hseq hrst h
  exact (halt_flags (s := s.ready) hseq).1

/-- Letting the inputs in changes what no register of the status port shows, but for the free level of `PINS[6]`. -/
theorem State.ready_regQ (s : State) {r : BitVec 3} (hr : r ≠ 6) : s.ready.regQ r = s.regQ r := by
  unfold State.regQ
  split
  case h_7 hsix => exact absurd (BitVec.eq_of_toNat_eq hsix) hr
  all_goals rfl

/-! ### The two statements -/

/-- Settles O11: the step is the issue of the word (`step_issue`), and the fault it raises leaves the engine halted. -/
theorem faultEntryWritesThreeRegisters : Obligations.FaultEntryWritesThreeRegisters := by
  intro s w hseen hrst hseq htext hcmd
  have hstep : step s = issue w s.ready := step_issue hseen hrst hseq htext hcmd
  refine ⟨fun hdecode => hstep.trans (issue_illegal hdecode _), fun hdecode => hstep.trans (issue_badBitCount hdecode _),
    fun t ht hdecode => ?_⟩
  obtain ⟨cause, rfl⟩ := issue_raises (hstep.symm.trans ht) hdecode
  have hhalt : (s.ready.raiseFault cause w).seq = .halt := rfl
  obtain ⟨hfault, hbusy, hready⟩ := halt_flags hhalt
  exact ⟨hfault, hbusy, hready, rfl, fun _ => faultFlag_of_step_halted hhalt⟩

/-- Settles O12: in reset the step is `State.resetEngine`; without it the halted engine only lets the inputs in
(`step_halted`). -/
theorem haltIsLeftOnlyByReset : Obligations.HaltIsLeftOnlyByReset := by
  intro s hseq
  obtain ⟨hfault, -, hready⟩ := halt_flags hseq
  refine ⟨hready, hfault, fun hrst => ⟨_, step_reset hrst, rfl, rfl, rfl⟩, fun hrst hseen htext => ?_, fun hrst t h => ?_⟩
  · exact ⟨_, (step_running hseen hrst htext).trans (stepEngine_halt (s := s.ready) hseq _)⟩
  · obtain rfl := step_halted hseq hrst h
    exact ⟨rfl, hseq, rfl, rfl, rfl, fun _ => s.ready_regQ, fun _ => rfl⟩

end Sys2Proof.Machine
end

section
/-! What reset reaches (spec/70_reset_and_hazards.md R171, R173) and the least time of each command (R187): the statements of
the commands give the events a command appends, and the laws of `minUnits` say what those add up to. -/

namespace Sys2Proof.Machine

/-! ### Reset and the outside (R171, R173) -/

/-- Settles O15: a step in reset is `State.resetEngine` once the host's writes have landed (`step_reset`), and that keeps every
device. -/
theorem resetReachesNoDevice : Obligations.ResetReachesNoDevice := by
  intro s t hrst h
  obtain rfl : s.ready.resetEngine = t := Host.Outcome.next.inj ((step_reset hrst).symm.trans h)
  exact ⟨rfl, rfl, rfl, rfl, rfl, rfl⟩

/-! ### The time of one command (R187) -/

/-- `i`, run from `s`, appends events whose settles add up to `n` units (R187). -/
def TakesUnits (i : Instr) (s : State) (n : Nat) : Prop :=
  ∃ t, exec i s = .next t ∧ minUnits t.trace = minUnits s.trace + n

/-- A command takes the time of the events it appends. -/
theorem TakesUnits.of_trace {i : Instr} {s t : State} {evs : List Event} {n : Nat} (hexec : exec i s = .next t)
    (htrace : t.trace = s.trace ++ evs) (hunits : minUnits evs = n) : TakesUnits i s n :=
  ⟨t, hexec, by rw [htrace, minUnits_append, hunits]⟩

/-- The units `PIN` holds its level (R187). -/
def holdUnits : Hold → Nat
  | .none => 0
  | .short => 1
  | .srclk => 5
  | .latch => 10

section
variable {s : State} (hl : s.look = none)
include hl

theorem pin_takesUnits (p : Pin) (v : Bool) (hold : Hold) : TakesUnits (.pin (.out p) v hold) s (holdUnits hold) := by
  obtain ⟨t, hexec, -, htrace, -⟩ := pinDrivesItsSignal p v hold s hl
  cases hold <;> exact .of_trace hexec htrace rfl

theorem start_takesUnits : TakesUnits .start s 4 := by
  obtain ⟨t, hexec, -, htrace, -⟩ := startSendsTheStartCondition s hl
  exact .of_trace hexec htrace minUnits_startTrace

theorem wbits_takesUnits (v : Word) {n : BitVec 5} (hn : bitCountOk n = true) :
    TakesUnits (.wbits v n) s (2 * n.toNat) := by
  have hbounds : 1 ≤ n.toNat ∧ n.toNat ≤ 16 := by simpa [bitCountOk] using hn
  obtain ⟨t, hexec, -, htrace, -⟩ := writeBitsSendsTheBits v n s hl hbounds.1 hbounds.2
  exact .of_trace hexec htrace (by rw [minUnits_sendTrace, msbBits_length])

theorem rword_takesUnits : TakesUnits .rword s 32 := by
  obtain ⟨t, w, hexec, -, -, htrace, -⟩ := readWordAssemblesItsSamples s hl
  exact .of_trace hexec htrace (minUnits_readTrace w)

theorem rdat_takesUnits (a : EeAddr) : TakesUnits (.rdat a) s 10058 := by
  obtain ⟨t, w, hexec, -, -, htrace, -⟩ := readWordAtIsOneTransaction a s hl
  exact .of_trace hexec htrace (minUnits_readAtTrace a w)

/-- One transaction for each address read (R104). -/
theorem rdrng_takesUnits (first last : EeAddr) : TakesUnits (.rdrng first last) s (10058 * readCount first last) := by
  obtain ⟨t, ws, hexec, -, hcount, htrace, -⟩ := readRangeReadsEveryAddressInOrder first last s hl
  refine .of_trace hexec htrace ?_
  rw [minUnits_flatMap _ 10058 _ fun _ _ => minUnits_readAtTrace _ _, List.length_range, hcount, readCount]

theorem shift_takesUnits (v : Byte) (dir : Direction) : TakesUnits (.shift v dir) s 80 := by
  obtain ⟨t, hexec, -, htrace, -⟩ := shiftSendsEightBits v dir s hl
  exact .of_trace hexec htrace (by cases dir <;> exact minUnits_shiftTrace _)

theorem latch_takesUnits : TakesUnits .latch s 10 := by
  obtain ⟨t, hexec, -, htrace, -⟩ := latchCopiesTheChain s hl
  exact .of_trace hexec htrace minUnits_latchTrace

theorem casc_takesUnits (b0 b1 : Byte) : TakesUnits (.casc b0 b1) s 170 := by
  obtain ⟨t, hexec, -, htrace, -⟩ := cascadeSendsByte1ThenByte0 b0 b1 s hl
  exact .of_trace hexec htrace (minUnits_cascadeTrace b0 b1)

/-- One transaction for each slot read (R130). -/
theorem find_takesUnits (href : s.eeRef = true) (c : Byte) : TakesUnits (.find c) s (10058 * slotsRead s.ee c) := by
  obtain ⟨t, hexec, -, htrace, -⟩ := findReadsTheStoredSlots c s hl href
  exact .of_trace hexec htrace (minUnits_findTrace s.ee c)

/-- The trace is that of the renderer at the level of words (R138). -/
theorem render_takesUnits (href : s.eeRef = true) {ptr : TxtAddr} {cs : List Byte} (htext : s.HoldsText ptr cs) :
    TakesUnits (.render ptr) s (cs.map (charUnits s.ee)).sum := by
  obtain ⟨t, hexec, hrendered, -⟩ := renderOverPinsIsTheWordRenderer ptr cs s hl href htext
  have htrace : t.trace = (renderText s.ee ptr cs s.rendered).events := congrArg Rendered.events hrendered
  exact ⟨t, hexec, by rw [htrace, minUnits_renderText]; rfl⟩

end

/-! ### The table (R187) -/

/-- Settles O60: each row is the time of its command above; the counts of `RDRNG` and `FIND` are told apart as the table has
them. -/
theorem commandsTakeTheirLeastTime : Obligations.CommandsTakeTheirLeastTime := by
  intro s hl
  refine ⟨fun p v hold => ?_, start_takesUnits hl, fun v _ hn => wbits_takesUnits hl v hn, rword_takesUnits hl,
    rdat_takesUnits hl, fun first last => ?_, shift_takesUnits hl, latch_takesUnits hl, casc_takesUnits hl,
    fun href => ⟨fun c => ?_, fun ptr cs htext => render_takesUnits hl href htext⟩⟩
  · cases hold <;> exact pin_takesUnits hl p v _
  · have h := rdrng_takesUnits hl first last
    rw [readCount, mul_ite] at h
    exact h
  · have h := find_takesUnits hl href c
    rw [slotsRead] at h
    cases hslot : firstSlot s.ee c <;> rw [hslot] at h <;> exact h

end Sys2Proof.Machine
end
